-- ==== Sys2Proof/Word.lean ====
section
/-! DEFINITION. The 32-bit packed word of the TMC (00_scope.md R6). -/

namespace Sys2Proof

/-- A packed word: 32 horizontal pixels, or any 32-bit value of the command stream and the register window (R6). -/
abbrev Word := BitVec 32

end Sys2Proof
end

