-- ==== Sys2Proof/Config.lean ====
section
/-! DEFINITION. What an implementation of the TMC fixes: the parameters of 00_scope.md R7 and one freedom of 70_reset_and_hazards.md R321.
No rule of the spec draws a free value (44_scan_engine.md R251), so there is none here. -/

namespace Sys2Proof

/-- The configuration of one TMC (00_scope.md R7). -/
structure Config where
  /-- `MAX_WIDTH`: the largest legal image width in pixels. -/
  maxWidth : Nat
  /-- `MAX_FEATURES`: entries of the descriptor table. -/
  maxFeatures : Nat
  /-- `MAX_FEAT_ROWS`: the largest feature height, and the lines of the circular row buffer. -/
  maxFeatRows : Nat
  /-- `MAX_FEAT_COLS32`: the largest feature width in packed words. -/
  maxFeatCols32 : Nat
  /-- `FEAT_MEM_WORDS`: words of the feature matrix memory. -/
  featMemWords : Nat
  /-- `CMD_FIFO_DEPTH`: command words the FIFO holds. -/
  cmdFifoDepth : Nat
  /-- `BASE_ADDR`: the bus address of the register window. -/
  baseAddr : Nat
  /-- Whether a reset clears the memories whose contents R321 and R320 leave unspecified, or keeps them
  (R321: "an implementation may keep or clear them"). -/
  resetClears : Bool
  deriving DecidableEq, Repr

/-- `MAX_COLS32 = MAX_WIDTH >> 5` (00_scope.md R7). -/
def Config.maxCols32 (c : Config) : Nat := c.maxWidth / 32

/-- `STAGE_WORDS = max(MAX_COLS32, MAX_FEAT_COLS32)` (00_scope.md R8). -/
def Config.stageWords (c : Config) : Nat := max c.maxCols32 c.maxFeatCols32

/-- The legal ranges of 00_scope.md R7 and R8. -/
abbrev Config.Legal (c : Config) : Prop :=
  (32 ≤ c.maxWidth ∧ c.maxWidth ≤ 16777215) ∧
  (1 ≤ c.maxFeatures ∧ c.maxFeatures ≤ 65535) ∧
  (1 ≤ c.maxFeatRows ∧ c.maxFeatRows ≤ 4095) ∧
  (1 ≤ c.maxFeatCols32 ∧ c.maxFeatCols32 ≤ 127) ∧
  (1 ≤ c.featMemWords ∧ c.featMemWords ≤ 4294967295) ∧
  1 ≤ c.cmdFifoDepth ∧
  c.baseAddr % 256 = 0

/-- The reference configuration of 00_scope.md R9. `BASE_ADDR` (the platform's) and `resetClears` are not
in R9: DESIGN CHOICE 0 and "keep" (log 2). -/
def Config.reference : Config where
  maxWidth := 1024
  maxFeatures := 16
  maxFeatRows := 64
  maxFeatCols32 := 4
  featMemWords := 1024
  cmdFifoDepth := 4
  baseAddr := 0
  resetClears := false

end Sys2Proof
end

