-- ==== Sys2Proof/Machine/State.lean ====
section
/-! DEFINITION. The state of the TMC (10_state.md), the reasons a step can stop, and the state after hardware reset. -/

namespace Sys2Proof.Machine

/-- The sequencer phase (10_state.md R31); codes 3 and 6 are never entered, so they have no name. -/
inductive Phase where
  /-- Set-up; the phase after reset. -/
  | config
  /-- Between FEAT_BEGIN and FEAT_END. -/
  | loading
  /-- After SCAN_START: rows are received and matched. -/
  | scanning
  /-- Terminal: a match was confirmed. -/
  | found
  /-- Terminal: all rows consumed, no match. -/
  | exhausted
  /-- Terminal: a fatal error was raised. -/
  | error
  deriving DecidableEq, Repr

/-- The position within a command (10_state.md R22). -/
inductive Parse where
  /-- The next word is a command header. -/
  | header
  /-- The next word is the payload of the PIXELS header `h`. -/
  | payload (h : Word)
  deriving DecidableEq, Repr

/-- The feature being loaded (10_state.md R39). -/
structure Load where
  rows : BitVec 12
  cols : BitVec 12
  cols32 : BitVec 7
  /-- The FM address of row 0 word 0. -/
  base : BitVec 32
  /-- Rows committed so far; LOAD_ROW reads it (R56). -/
  r : BitVec 12
  deriving DecidableEq, Repr

/-- One entry of the descriptor table (10_state.md R40). -/
structure Desc where
  rows : BitVec 12
  cols : BitVec 12
  cols32 : BitVec 7
  base : BitVec 32
  /-- The signature of the feature's bottom-left column. -/
  sig : Word
  deriving DecidableEq, Repr

/-- An internal memory (20_memory.md R80): address and content pairs in one canonical form, addresses strictly
rising, no entry equal to what an unlisted address reads as. The unit is a whole word or a whole descriptor (R90, log 10). -/
abbrev Mem (α : Type) := List (Nat × α)

/-- A bus access of the host (40_control.md R150, R151): bus address, size in bytes and, for a write, the value. -/
inductive HostAccess where
  | read (addr size : Nat)
  | write (addr size : Nat) (v : Word)
  deriving DecidableEq, Repr

/-- What the bus answers to an access (R150, R151, 20_memory.md R81, R87). -/
inductive BusResponse where
  /-- A read completed with this value. -/
  | data (v : Word)
  /-- A write completed. -/
  | done
  /-- A size other than 4 or an unaligned offset: no state change. -/
  | busError
  /-- The address lies outside the window: not an access to the TMC. -/
  | notSelected
  deriving DecidableEq, Repr

/-- Who moves next (70_reset_and_hazards.md R340), or the platform's reset input (R320). -/
inductive Move where
  | core
  | host
  | hardReset
  deriving DecidableEq, Repr

/-- The whole state of the TMC, with the host's pending accesses and the schedule (logs 5 and 6). -/
structure State where
  /-- The parameters; no step changes them (10_state.md R20, log 1). -/
  cfg : Config
  /-- CTRL.IRQ_EN (R26). -/
  irqEn : Bool
  /-- STATUS.PHASE (R31). -/
  phase : Phase
  /-- PARSE and its saved header (R22). -/
  parse : Parse
  /-- The command FIFO, head first (R35). -/
  fifo : List Word
  /-- CMD_COUNT (R34). -/
  cmdCount : BitVec 32
  /-- ERR_CODE (R33). -/
  errCode : BitVec 8
  /-- ERR_INFO (R33). -/
  errInfo : Word
  /-- IMG_WIDTH (R50). -/
  imgWidth : BitVec 24
  /-- IMG_HEIGHT (R50). -/
  imgHeight : BitVec 24
  /-- IMG_COLS32 (R50). -/
  imgCols32 : BitVec 19
  /-- ROW_Y (R51). -/
  rowY : BitVec 24
  /-- CYCLE_ROWS (R52). -/
  cycleRows : BitVec 12
  /-- FEAT_COUNT (R53). -/
  featCount : BitVec 16
  /-- FMEM_USED (R53). -/
  fmemUsed : BitVec 32
  /-- CAND_COUNT (R54). -/
  candCount : BitVec 32
  /-- PIX_COUNT (R55). -/
  pixCount : BitVec 24
  /-- ACC (R36). -/
  acc : Word
  /-- LOAD (R39). -/
  load : Load
  /-- RES_X (R57). -/
  resX : BitVec 24
  /-- RES_Y (R57). -/
  resY : BitVec 24
  /-- RES_FEAT (R57). -/
  resFeat : BitVec 16
  /-- RES_DIM (R57). -/
  resDim : BitVec 24
  /-- FEAT_SEL (R58). -/
  featSel : BitVec 16
  /-- STAGE (R37), by word. -/
  stage : Mem Word
  /-- SIG (R38), by pixel position. -/
  sig : Mem Word
  /-- DESC (R40), by feature id. -/
  desc : Mem Desc
  /-- FM (R41), by word address. -/
  fm : Mem Word
  /-- RB (R42): word `c` of line `s` at `s × MAX_COLS32 + c` (log 10). -/
  rb : Mem Word
  /-- The accesses the host has still to make, in its program order (the model's own field, log 5). -/
  host : List HostAccess
  /-- The bus's answer to the host's last completed access (the model's own field, log 5). -/
  response : Option BusResponse
  /-- Who moves at the coming steps (the model's own field, log 6). -/
  schedule : List Move
  deriving DecidableEq, Repr

/-- Why a step stops with a fault. Each is raised only when a command would access an internal address that the spec says does
not exist; no run from reset reaches one (R191, R247, R325), so all are safe: the model stops where no hardware can be (log 11). -/
inductive Fault where
  /-- A STAGE word at or above STAGE_WORDS (10_state.md R37). Raised by PIXELS and ROW_END. Safe. -/
  | noStageWord
  /-- An FM word at or above FEAT_MEM_WORDS (20_memory.md R83). Raised by ROW_END and FEAT_END. Safe. -/
  | noFmWord
  /-- An RB line or word outside the buffer, or a line number modulo CYCLE_ROWS = 0 (20_memory.md R82). Raised by ROW_END. Safe. -/
  | noRbWord
  /-- A SIG register at or above 32 × MAX_COLS32 (20_memory.md R84). Raised by SCAN_START and ROW_END. Safe. -/
  | noSigRegister
  /-- A DESC entry at or above MAX_FEATURES (10_state.md R40). Raised by FEAT_END, SCAN_START and ROW_END. Safe. -/
  | noDescEntry
  deriving DecidableEq, Repr

/-- Why a step is refused. -/
inductive Refusal where
  /-- Raised by an arm of exec that has no meaning yet; no arm raises it now. Safe. -/
  | notModelled (mnemonic : String)
  deriving DecidableEq, Repr

/-- LOAD with every field 0 (R323). -/
def Load.zero : Load where
  rows := 0
  cols := 0
  cols32 := 0
  base := 0
  r := 0

/-- The hard-reset column of 70_reset_and_hazards.md R323, for any configuration. The memories R323 leaves
unspecified list nothing, and read as zero (DESIGN CHOICE, log 3). -/
def State.resetWith (cfg : Config) : State where
  cfg := cfg
  irqEn := false
  phase := .config
  parse := .header
  fifo := []
  cmdCount := 0
  errCode := 0
  errInfo := 0
  imgWidth := 0
  imgHeight := 0
  imgCols32 := 0
  rowY := 0
  cycleRows := 0
  featCount := 0
  fmemUsed := 0
  candCount := 0
  pixCount := 0
  acc := 0
  load := Load.zero
  resX := 0
  resY := 0
  resFeat := 0
  resDim := 0
  featSel := 0
  stage := []
  sig := []
  desc := []
  fm := []
  rb := []
  host := []
  response := none
  schedule := []

/-- The TMC of the reference configuration (00_scope.md R9) right after hardware reset (R320). -/
def State.reset : State := State.resetWith Config.reference

end Sys2Proof.Machine
end

