-- ==== Sys2Proof/Machine/Ops.lean ====
section
/-! DEFINITION. The named operations over memory and registers: reading and writing an internal memory, raising an error
(60_exceptions.md R284), and the resets that return from one (60_exceptions.md R287, 70_reset_and_hazards.md R320 to R322). -/

namespace Sys2Proof.Machine

/-! ## Internal memories (20_memory.md R80, R90) -/

/-- What an unlisted word of STAGE, SIG, FM or RB reads as (DESIGN CHOICE 0, log 3). -/
def unlistedWord : Word := 0#32

/-- What an unlisted entry of DESC reads as (DESIGN CHOICE, every field 0, log 3). -/
def unlistedDesc : Desc where
  rows := 0
  cols := 0
  cols32 := 0
  base := 0
  sig := 0

/-- The content at address `a`, `d` where nothing is listed. -/
def memRead {α : Type} (d : α) : Mem α → Nat → α
  | [], _ => d
  | (b, v) :: m, a => if b = a then v else memRead d m a

/-- The memory without the entries at address `a`. -/
def memErase {α : Type} (m : Mem α) (a : Nat) : Mem α := m.filter fun e => !(e.1 == a)

/-- The memory with an entry put in at its place in the rising order. -/
def memInsert {α : Type} (a : Nat) (v : α) : Mem α → Mem α
  | [] => [(a, v)]
  | (b, w) :: m => if a < b then (a, v) :: (b, w) :: m else (b, w) :: memInsert a v m

/-- Writing one word or descriptor; writing what an unlisted address reads as leaves no entry. -/
def memWrite {α : Type} [DecidableEq α] (d : α) (m : Mem α) (a : Nat) (v : α) : Mem α :=
  if v = d then memErase m a else memInsert a v (memErase m a)

/-- Writing a list of words at consecutive addresses from `a` on, in increasing order. -/
def memWriteBlock {α : Type} [DecidableEq α] (d : α) : Mem α → Nat → List α → Mem α
  | m, _, [] => m
  | m, a, v :: vs => memWriteBlock d (memWrite d m a v) (a + 1) vs

/-- The canonical form: addresses strictly rising, no entry equal to what an unlisted address reads as. -/
abbrev memWf {α : Type} (d : α) (m : Mem α) : Prop :=
  m.Pairwise (fun e e' => e.1 < e'.1) ∧ ∀ e ∈ m, e.2 ≠ d

/-- Every listed address is below `size`. -/
abbrev memWithin {α : Type} (m : Mem α) (size : Nat) : Prop := ∀ e ∈ m, e.1 < size

/-- `STAGE[k]` (10_state.md R37). -/
def stageRead (s : State) (k : Nat) : Word := memRead unlistedWord s.stage k

/-- `SIG[x]` (10_state.md R38). -/
def sigRead (s : State) (x : Nat) : Word := memRead unlistedWord s.sig x

/-- `DESC[f]` (10_state.md R40). -/
def descRead (s : State) (f : Nat) : Desc := memRead unlistedDesc s.desc f

/-- `FM[a]` (20_memory.md R83). -/
def fmRead (s : State) (a : Nat) : Word := memRead unlistedWord s.fm a

/-- The place of word `c` of RB line `line` (20_memory.md R82, log 10). -/
def rbAddr (cfg : Config) (line c : Nat) : Nat := line * cfg.maxCols32 + c

/-- `RB[line][c]` (20_memory.md R82). -/
def rbRead (s : State) (line c : Nat) : Word := memRead unlistedWord s.rb (rbAddr s.cfg line c)

/-! ## Errors (60_exceptions.md) -/

/-- The errors of 60_exceptions.md R281. -/
inductive ErrorCode where
  | usageNoFeatures
  | loadBadDims
  | loadTooLarge
  | loadTableFull
  | loadMemFull
  | loadRowLength
  | loadRowCount
  | streamTooWide
  | streamRowLength
  | streamTruncated
  | illegalOpcode
  | illegalOperand
  | illegalPhase
  deriving DecidableEq, Repr

/-- The numbers of 60_exceptions.md R281. -/
def errorNumber : ErrorCode → BitVec 8
  | .usageNoFeatures => 0x01
  | .loadBadDims => 0x10
  | .loadTooLarge => 0x11
  | .loadTableFull => 0x12
  | .loadMemFull => 0x13
  | .loadRowLength => 0x14
  | .loadRowCount => 0x15
  | .streamTooWide => 0x20
  | .streamRowLength => 0x30
  | .streamTruncated => 0x31
  | .illegalOpcode => 0x40
  | .illegalOperand => 0x41
  | .illegalPhase => 0x42

/-- `raise Error(code)` with raising header `h` (60_exceptions.md R284): the TMC's way of taking an exception. Nothing
else changes; there is no saved pc, vector or handler (R280, R285). -/
def raise (e : ErrorCode) (h : Word) (s : State) : State :=
  { s with phase := .error, errCode := errorNumber e, errInfo := h }

/-- A terminal phase: FOUND, EXHAUSTED or ERROR (10_state.md R27, R31). -/
def isTerminal : Phase → Bool
  | .config | .loading | .scanning => false
  | .found | .exhausted | .error => true

/-! ## Resets: the only ways out of a terminal phase (60_exceptions.md R287) -/

/-- What a reset makes of a memory whose contents R320 and R321 leave unspecified (log 4). -/
def afterReset {α : Type} (cfg : Config) (m : Mem α) : Mem α := if cfg.resetClears then [] else m

/-- The soft reset (70_reset_and_hazards.md R321). CTRL.IRQ_EN, CMD_COUNT, FEAT_SEL, the FIFO and PARSE are kept. -/
def softReset (s : State) : State :=
  { s with
    phase := .config
    errCode := 0
    errInfo := 0
    imgWidth := 0
    imgHeight := 0
    imgCols32 := 0
    rowY := 0
    cycleRows := 0
    candCount := 0
    pixCount := 0
    acc := 0
    featCount := 0
    fmemUsed := 0
    load := Load.zero
    resX := 0
    resY := 0
    resFeat := 0
    resDim := 0
    stage := afterReset s.cfg s.stage
    sig := afterReset s.cfg s.sig
    desc := afterReset s.cfg s.desc
    fm := afterReset s.cfg s.fm
    rb := afterReset s.cfg s.rb }

/-- CTRL.SRST with the value `v` of the CTRL write (70_reset_and_hazards.md R322). -/
def srst (v : Word) (s : State) : State :=
  softReset { s with irqEn := v.getLsbD 0, fifo := [], parse := .header }

/-- Hardware reset (70_reset_and_hazards.md R320, R323). The host and the schedule are not the TMC's: they go on. -/
def hardReset (s : State) : State :=
  { State.resetWith s.cfg with
    stage := afterReset s.cfg s.stage
    sig := afterReset s.cfg s.sig
    desc := afterReset s.cfg s.desc
    fm := afterReset s.cfg s.fm
    rb := afterReset s.cfg s.rb
    host := s.host
    response := s.response
    schedule := s.schedule }

/-! ## The checks every command shares -/

/-- What running a command answers. -/
abbrev Result := Host.Outcome State Fault Refusal

/-- Steps 1, 4 and 5 of 30_encoding.md R116 for a command with header `h` and a set of legal phases: discarded in a terminal
phase, ILLEGAL_PHASE outside the set, else the command's own semantics. -/
def guarded (legal : Phase → Bool) (h : Word) (body : State → Result) (s : State) : Result :=
  if isTerminal s.phase then .next s
  else if legal s.phase then body s
  else .next (raise .illegalPhase h s)

/-- Legal in CONFIG, LOADING and SCANNING (30_encoding.md R113: NOP). -/
def anyWorkingPhase (p : Phase) : Bool := !isTerminal p

/-- Legal in CONFIG alone (R113: SET_WIDTH, SET_HEIGHT, FEAT_BEGIN, SCAN_START). -/
def configOnly (p : Phase) : Bool := p == .config

/-- Legal in LOADING alone (R113: FEAT_END). -/
def loadingOnly (p : Phase) : Bool := p == .loading

/-- Legal in SCANNING alone (R113: STREAM_END). -/
def scanningOnly (p : Phase) : Bool := p == .scanning

/-- Legal in LOADING and SCANNING (R113: PIXELS, ROW_END). -/
def rowPhases (p : Phase) : Bool := p == .loading || p == .scanning

/-- The end of a complete row: `PIX_COUNT <- 0; ACC <- 0` (41_row_codec.md R172). -/
def clearRow (s : State) : State := { s with pixCount := 0, acc := 0 }

end Sys2Proof.Machine
end

