-- ==== Sys2Proof/Machine/Flags.lean ====
section
/-! DEFINITION. The condition state (10_state.md R59): PHASE and the derived bits of STATUS (R27), and the interrupt output
(60_exceptions.md R290). The TMC has no arithmetic flags. -/

namespace Sys2Proof.Machine

/-- The codes of 10_state.md R31. -/
def phaseCode : Phase → BitVec 3
  | .config => 0
  | .loading => 1
  | .scanning => 2
  | .found => 4
  | .exhausted => 5
  | .error => 7

/-- STATUS.DONE (R27): PHASE is terminal. -/
def doneBit (s : State) : Bool := isTerminal s.phase

/-- STATUS.IDLE (R27, R28): the FIFO is empty; a command is one atomic step, so none is ever half executed
(DEDUCED, log 17). -/
def idleBit (s : State) : Bool := s.fifo.isEmpty

/-- STATUS.PAYLOAD_WAIT (R27, R30). -/
def payloadWaitBit (s : State) : Bool :=
  match s.parse with
  | .header => false
  | .payload _ => true

/-- The interrupt output, `CTRL.IRQ_EN & STATUS.DONE` (60_exceptions.md R290); STATUS.IRQ reads it. The level alone is modelled (log 16). -/
def irqLine (s : State) : Bool := s.irqEn && doneBit s

/-- STATUS.FIFO_FULL (R27, R30). -/
def fifoFullBit (s : State) : Bool := s.fifo.length == s.cfg.cmdFifoDepth

/-- The STATUS register (R27). -/
def statusWord (s : State) : Word :=
  (phaseCode s.phase).setWidth 32 |||
  ((BitVec.ofBool (doneBit s)).setWidth 32 <<< 3) |||
  ((BitVec.ofBool (idleBit s)).setWidth 32 <<< 4) |||
  ((BitVec.ofBool (payloadWaitBit s)).setWidth 32 <<< 5) |||
  ((BitVec.ofBool (irqLine s)).setWidth 32 <<< 6) |||
  ((BitVec.ofBool (fifoFullBit s)).setWidth 32 <<< 7)

/-- The CTRL register (R26): IRQ_EN in bit 0; SRST and the reserved bits read 0. -/
def ctrlWord (s : State) : Word := (BitVec.ofBool s.irqEn).setWidth 32

end Sys2Proof.Machine
end

