-- ==== Sys2Proof/Machine/Bus.lean ====
section
/-! DEFINITION. The register window and the host's bus accesses (10_state.md R23 to R34, R50 to R58; 40_control.md R150 to R153;
20_memory.md R81, R87 to R89). -/

namespace Sys2Proof.Machine

/-! ## Reading a register -/

/-- CAP_FEAT (10_state.md R25): MAX_FEAT_ROWS in bits 27:16, MAX_FEATURES in bits 15:0. -/
def capFeatWord (cfg : Config) : Word :=
  ((BitVec.ofNat 12 cfg.maxFeatRows).setWidth 32 <<< 16) ||| (BitVec.ofNat 16 cfg.maxFeatures).setWidth 32

/-- FEAT_SEL names a committed feature (10_state.md R58). -/
def featSelected (s : State) : Bool := decide (s.featSel.toNat < s.featCount.toNat)

/-- FEAT_DIM of a descriptor (10_state.md R58): VALID, cols32, rows, cols. -/
def dimWord (d : Desc) : Word :=
  (1#32 <<< 31) ||| (d.cols32.setWidth 32 <<< 24) ||| (d.rows.setWidth 32 <<< 12) ||| d.cols.setWidth 32

/-- FEAT_DIM, FEAT_SIG or FEAT_BASE: a view of the selected descriptor, 0 where none is selected (10_state.md R58). -/
def descWindow (view : Desc → Word) (s : State) : Word :=
  if featSelected s then view (descRead s s.featSel.toNat) else 0

/-- The value of the register at a word-aligned window offset (10_state.md R23); CMD and every offset the table does not
list read 0 (R23, R32). ERR_* and RES_* read the stored value, 0 outside their phases in every reachable state (DEDUCED, log 15). -/
def regRead (s : State) (off : Nat) : Word :=
  if off = 0x00 then 0x544D4300#32
  else if off = 0x04 then 0x00010000#32
  else if off = 0x08 then (BitVec.ofNat 24 s.cfg.maxWidth).setWidth 32
  else if off = 0x0C then capFeatWord s.cfg
  else if off = 0x10 then BitVec.ofNat 32 s.cfg.featMemWords
  else if off = 0x14 then (BitVec.ofNat 7 s.cfg.maxFeatCols32).setWidth 32
  else if off = 0x20 then ctrlWord s
  else if off = 0x24 then statusWord s
  else if off = 0x2C then s.errCode.setWidth 32
  else if off = 0x30 then s.errInfo
  else if off = 0x34 then s.cmdCount
  else if off = 0x40 then s.imgWidth.setWidth 32
  else if off = 0x44 then s.imgHeight.setWidth 32
  else if off = 0x48 then s.imgCols32.setWidth 32
  else if off = 0x4C then s.rowY.setWidth 32
  else if off = 0x50 then s.cycleRows.setWidth 32
  else if off = 0x54 then s.featCount.setWidth 32
  else if off = 0x58 then s.fmemUsed
  else if off = 0x5C then s.candCount
  else if off = 0x60 then s.pixCount.setWidth 32
  else if off = 0x64 then s.load.r.setWidth 32
  else if off = 0x70 then s.resX.setWidth 32
  else if off = 0x74 then s.resY.setWidth 32
  else if off = 0x78 then s.resFeat.setWidth 32
  else if off = 0x7C then s.resDim.setWidth 32
  else if off = 0x80 then s.featSel.setWidth 32
  else if off = 0x84 then descWindow dimWord s
  else if off = 0x88 then descWindow Desc.sig s
  else if off = 0x8C then descWindow Desc.base s
  else 0

/-! ## Accesses -/

/-- The bus address lies in the window (20_memory.md R81, log 12). -/
def inWindow (cfg : Config) (addr : Nat) : Bool :=
  decide (cfg.baseAddr ≤ addr) && decide (addr ≤ cfg.baseAddr + 0xFF)

/-- The window offset of a bus address (20_memory.md R81). -/
def windowOffset (cfg : Config) (addr : Nat) : Nat := addr - cfg.baseAddr

/-- The access is 32 bits wide and aligned (20_memory.md R87). -/
def legalAccess (off size : Nat) : Bool := size == 4 && off % 4 == 0

/-- BusRead (40_control.md R150): the answer to a read; a read changes nothing (20_memory.md R89). -/
def busRead (s : State) (addr size : Nat) : BusResponse :=
  if inWindow s.cfg addr then
    if legalAccess (windowOffset s.cfg addr) size then .data (regRead s (windowOffset s.cfg addr))
    else .busError
  else .notSelected

/-- A write of `v` to CTRL (40_control.md R152). -/
def writeCtrl (v : Word) (s : State) : State :=
  if v.getLsbD 1 then srst v s else { s with irqEn := v.getLsbD 0 }

/-- A word that CMD accepts goes to the FIFO tail (20_memory.md R88). -/
def pushCmd (v : Word) (s : State) : State := { s with fifo := s.fifo ++ [v] }

/-- A write of `v` to FEAT_SEL (40_control.md R153). -/
def writeFeatSel (v : Word) (s : State) : State := { s with featSel := v.setWidth 16 }

/-- The effect of a legal write at a window offset (40_control.md R151); RO and reserved offsets ignore it. -/
def regWrite (off : Nat) (v : Word) (s : State) : State :=
  if off = 0x20 then writeCtrl v s
  else if off = 0x28 then pushCmd v s
  else if off = 0x80 then writeFeatSel v s
  else s

/-- BusWrite (40_control.md R151): the answer and the state after the write. -/
def busWrite (s : State) (addr size : Nat) (v : Word) : BusResponse × State :=
  if inWindow s.cfg addr then
    if legalAccess (windowOffset s.cfg addr) size then (.done, regWrite (windowOffset s.cfg addr) v s)
    else (.busError, s)
  else (.notSelected, s)

/-- The access is a write to CMD. -/
def isCmdWrite (cfg : Config) : HostAccess → Bool
  | .read _ _ => false
  | .write addr size _ =>
    inWindow cfg addr && legalAccess (windowOffset cfg addr) size && windowOffset cfg addr == 0x28

/-- The access waits: a CMD write while the FIFO is full (20_memory.md R88). -/
def stalls (s : State) (a : HostAccess) : Bool :=
  isCmdWrite s.cfg a && decide (s.cfg.cmdFifoDepth ≤ s.fifo.length)

/-- One access that does not wait (70_reset_and_hazards.md R340 items 1 and 2): its effect, and its answer. -/
def access (a : HostAccess) (s : State) : State :=
  match a with
  | .read addr size => { s with response := some (busRead s addr size) }
  | .write addr size v =>
    { (busWrite s addr size v).2 with response := some (busWrite s addr size v).1 }

/-- The host's turn: its next access takes effect, unless it has none or its CMD write waits (20_memory.md R88, R94 item 1). -/
def hostMove (s : State) : State :=
  match s.host with
  | [] => s
  | a :: rest => if stalls s a then s else access a { s with host := rest }

end Sys2Proof.Machine
end

