-- ==== Sys2Proof/Syntax.lean ====
section
/-! DEFINITION. The commands of the TMC, one constructor per row of spec/opcode_table.json (30_encoding.md R113). -/

namespace Sys2Proof

/-- A command with its operands as 30_encoding.md R112 assembles them: unsigned fields of the header word,
and for `PIXELS` the payload word. -/
inductive Instr where
  /-- `NOP` (R140). -/
  | nop
  /-- `SOFT_RESET` (R141). -/
  | softReset
  /-- `SET_WIDTH VAL` (R142). -/
  | setWidth (val : BitVec 24)
  /-- `SET_HEIGHT VAL` (R143). -/
  | setHeight (val : BitVec 24)
  /-- `FEAT_BEGIN ROWS, COLS` (R190). -/
  | featBegin (rows cols : BitVec 12)
  /-- `FEAT_END` (R192). -/
  | featEnd
  /-- `PIXELS N, p` (R171); the payload is kept whole, its unused low bits included (R114). -/
  | pixels (n : BitVec 6) (payload : Word)
  /-- `ROW_END` (R172). -/
  | rowEnd
  /-- `STREAM_END` (R245). -/
  | streamEnd
  /-- `SCAN_START` (R240). -/
  | scanStart
  deriving DecidableEq, Repr

end Sys2Proof
end

