-- ==== Sys2Proof/WellFormed.lean ====
section
/-! DEFINITION. Which commands are legal encodings (30_encoding.md R119): only the pixel count of `PIXELS` can be illegal,
since every value of VAL, ROWS and COLS decodes. -/

namespace Sys2Proof

/-- 30_encoding.md R119: `PIXELS` with `N = 0` or `N > 32` is illegal; no other operand value is. -/
def Instr.wellFormed : Instr → Bool
  | .pixels n _ => decide (1 ≤ n.toNat) && decide (n.toNat ≤ 32)
  | .nop | .softReset | .setWidth _ | .setHeight _ | .featBegin _ _ | .featEnd | .rowEnd | .streamEnd | .scanStart => true

end Sys2Proof
end

