-- ==== Sys2Proof/Decode.lean ====
section
/-! DEFINITION. Command encoding (30_encoding.md): header fields, decoder, encoder, and the words of an opcode-table row. -/

namespace Sys2Proof

/-! ## Header fields (R111, R112) -/

/-- `OPC = h[31:24]` (R111). -/
def opcOf (h : Word) : BitVec 8 := h.extractLsb' 24 8

/-- `IMM = h[23:0]`, also the field `VAL` of format HW (R111). -/
def immOf (h : Word) : BitVec 24 := h.extractLsb' 0 24

/-- `ROWS = h[23:12]` of format HF (R111). -/
def rowsOf (h : Word) : BitVec 12 := h.extractLsb' 12 12

/-- `COLS = h[11:0]` of format HF (R111). -/
def colsOf (h : Word) : BitVec 12 := h.extractLsb' 0 12

/-- `h[23:6]` of format HP, reserved (R111). -/
def reservedOf (h : Word) : BitVec 18 := h.extractLsb' 6 18

/-- `N = h[5:0]` of format HP (R111). -/
def countOf (h : Word) : BitVec 6 := h.extractLsb' 0 6

/-- 30_encoding.md R110: `OPC = 0x20` alone means two words. -/
def takesPayload (h : Word) : Bool := opcOf h == 0x20#8

/-- 30_encoding.md R110: the length of a command in words, read from its first word. -/
def commandWords (h : Word) : Nat := if takesPayload h then 2 else 1

/-! ## Decoding -/

/-- Why a header is illegal before any state is looked at (R116 steps 2 and 3). -/
inductive Illegal where
  /-- `OPC` is not in the table of R113. -/
  | opcode
  /-- A reserved operand bit is set (R119). -/
  | operand
  deriving DecidableEq, Repr

/-- Format H0: the operand bits must be 0 (R111, R119). -/
def decodeH0 (h : Word) (i : Instr) : Except Illegal Instr :=
  if immOf h = 0#24 then .ok i else .error .operand

/-- The command of header `h` and payload `p` (R113; `p` is used by `PIXELS` alone). A `PIXELS` whose `N` is outside 1..32
decodes to a command that is not well formed; its meaning raises ILLEGAL_OPERAND (R116 step 3, log 13). -/
def decodeCommand (h p : Word) : Except Illegal Instr :=
  if opcOf h = 0x00#8 then decodeH0 h .nop
  else if opcOf h = 0x01#8 then decodeH0 h .softReset
  else if opcOf h = 0x02#8 then .ok (.setWidth (immOf h))
  else if opcOf h = 0x03#8 then .ok (.setHeight (immOf h))
  else if opcOf h = 0x10#8 then .ok (.featBegin (rowsOf h) (colsOf h))
  else if opcOf h = 0x11#8 then decodeH0 h .featEnd
  else if opcOf h = 0x20#8 then
    if reservedOf h = 0#18 then .ok (.pixels (countOf h) p) else .error .operand
  else if opcOf h = 0x21#8 then decodeH0 h .rowEnd
  else if opcOf h = 0x22#8 then decodeH0 h .streamEnd
  else if opcOf h = 0x30#8 then decodeH0 h .scanStart
  else .error .opcode

/-- Why a list of words gives no command. -/
inductive DecodeError where
  /-- A word of the command is still missing (no word at all, or a `PIXELS` header without its payload). -/
  | incomplete
  /-- The header is illegal. -/
  | illegal (why : Illegal)
  deriving DecidableEq, Repr

/-- The first command of a list of command words, with the words after it (R110). -/
def decode : List Word → Except DecodeError (Instr × List Word)
  | [] => .error .incomplete
  | h :: rest =>
    if takesPayload h then
      match rest with
      | [] => .error .incomplete
      | p :: rest' =>
        match decodeCommand h p with
        | .ok i => .ok (i, rest')
        | .error e => .error (.illegal e)
    else
      match decodeCommand h 0#32 with
      | .ok i => .ok (i, rest)
      | .error e => .error (.illegal e)

/-! ## Encoding (R113, R120) -/

/-- Format H0: opcode and 24 zero bits. -/
def headerH0 (opc : BitVec 8) : Word := opc.setWidth 32 <<< 24

/-- Format HW: opcode and a 24-bit value. -/
def headerHW (opc : BitVec 8) (val : BitVec 24) : Word := (opc.setWidth 32 <<< 24) ||| val.setWidth 32

/-- Format HF: opcode, ROWS, COLS. -/
def headerHF (opc : BitVec 8) (rows cols : BitVec 12) : Word :=
  (opc.setWidth 32 <<< 24) ||| (rows.setWidth 32 <<< 12) ||| cols.setWidth 32

/-- Format HP: opcode, 18 zero bits, N. -/
def headerHP (opc : BitVec 8) (n : BitVec 6) : Word := (opc.setWidth 32 <<< 24) ||| n.setWidth 32

/-- The header word of a command (R113); an error records it (60_exceptions.md R284; DEDUCED, log 9). -/
def headerOf : Instr → Word
  | .nop => headerH0 0x00#8
  | .softReset => headerH0 0x01#8
  | .setWidth val => headerHW 0x02#8 val
  | .setHeight val => headerHW 0x03#8 val
  | .featBegin rows cols => headerHF 0x10#8 rows cols
  | .featEnd => headerH0 0x11#8
  | .pixels n _ => headerHP 0x20#8 n
  | .rowEnd => headerH0 0x21#8
  | .streamEnd => headerH0 0x22#8
  | .scanStart => headerH0 0x30#8

/-- The words of a command: its header, and for `PIXELS` its payload (R110, R113). -/
def encode : Instr → List Word
  | .pixels n p => [headerOf (.pixels n p), p]
  | .nop => [headerOf .nop]
  | .softReset => [headerOf .softReset]
  | .setWidth val => [headerOf (.setWidth val)]
  | .setHeight val => [headerOf (.setHeight val)]
  | .featBegin rows cols => [headerOf (.featBegin rows cols)]
  | .featEnd => [headerOf .featEnd]
  | .rowEnd => [headerOf .rowEnd]
  | .streamEnd => [headerOf .streamEnd]
  | .scanStart => [headerOf .scanStart]

/-! ## The words of an opcode-table row -/

/-- The header word of a row's bits: the low 32 bits of the `nbits` given. -/
def tableHeader (nbits w : Nat) : Word := BitVec.ofNat 32 (w % 2 ^ nbits)

/-- The payload word of a row's bits: bits 63..32 of the `nbits` given, zero where the row has none. -/
def tablePayload (nbits w : Nat) : Word := BitVec.ofNat 32 (w % 2 ^ nbits / 2 ^ 32)

/-- The command the decoder reads from a row's bits: first word bits 31..0, second word bits 63..32. -/
def decodeTableWord (nbits w : Nat) : Option Instr :=
  match decode [tableHeader nbits w, tablePayload nbits w] with
  | .ok (i, _) => some i
  | .error _ => none

end Sys2Proof
end

