-- ==== Sys2Proof/Machine/Operands.lean ====
section
/-! DEFINITION. Operand forms: the pixels of a payload (30_encoding.md R114), the current row's length (41_row_codec.md R170),
pixel positions (10_state.md R38), and the packed row as a function (41_row_codec.md R173). -/

namespace Sys2Proof.Machine

/-- Pixel `j` of a packed word or payload: bit `31 − j` (00_scope.md R11, 30_encoding.md R112). -/
def pixelOf (p : Word) (j : Nat) : Bool := p.getLsbD (31 - j)

/-- The `n` pixels a PIXELS payload carries, first one first (30_encoding.md R114). -/
def payloadPixels (n : Nat) (p : Word) : List Bool := (List.range n).map (pixelOf p)

/-- One pixel shifted into a 32-bit value: `((v << 1) | b) mod 2^32` (41_row_codec.md R170, 44_scan_engine.md R242, 42_feature.md R193). -/
def shiftIn (v : Word) (b : Bool) : Word := (v <<< 1) ||| (BitVec.ofBool b).setWidth 32

/-- `ROW_LEN` (41_row_codec.md R170): `L.cols` in LOADING, `IMG_WIDTH` in SCANNING. -/
def rowLen (s : State) : Nat :=
  if s.phase = .loading then s.load.cols.toNat else s.imgWidth.toNat

/-- `ROW_WORDS` (41_row_codec.md R170): `L.cols32` in LOADING, `IMG_COLS32` in SCANNING. -/
def rowWords (s : State) : Nat :=
  if s.phase = .loading then s.load.cols32.toNat else s.imgCols32.toNat

/-- The row-length error of 41_row_codec.md R170. -/
def rowLengthError (s : State) : ErrorCode :=
  if s.phase = .loading then .loadRowLength else .streamRowLength

/-- `x = 32c + o` (10_state.md R38). -/
def position (c o : Nat) : Nat := 32 * c + o

/-- The packed word of 32 pixels, the first in bit 31. -/
def packWord (px : Nat → Bool) : Word :=
  (List.range 32).foldl (fun v i => shiftIn v (px i)) 0#32

/-- `Pack(b, W)` (41_row_codec.md R173): the `W >> 5` packed words of a row of `W` pixels. -/
def packRow (b : Nat → Bool) (w : Nat) : List Word :=
  (List.range (w / 32)).map fun k => packWord fun i => b (32 * k + i)

/-- The 32 pixels that start at offset `o` of the left of two neighbouring words: the funnel shift of 42_feature.md R194. -/
def funnel (o : Nat) (left right : Word) : Word :=
  if o = 0 then left else (left <<< o) ||| (right >>> (32 - o))

end Sys2Proof.Machine
end

