-- ==== Sys2Proof/Machine/Codec.lean ====
section
/-! DEFINITION. The bit-row-packer (41_row_codec.md): pack_step and PIXELS. -/

namespace Sys2Proof.Machine

/-- `pack_step(b)` (R170): one pixel enters the packer; the 32nd of an aligned group stores a word, if the row keeps that word. -/
def packStep (s : State) (b : Bool) : State :=
  let acc := shiftIn s.acc b
  let k := s.pixCount.toNat / 32
  { s with
    acc := acc
    stage := if s.pixCount.toNat % 32 = 31 ∧ k < rowWords s then memWrite unlistedWord s.stage k acc else s.stage
    pixCount := s.pixCount + 1 }

/-- The pixels of one command enter in order (R171). -/
def packPixels (px : List Bool) (s : State) : State := px.foldl packStep s

/-- The next `n` pixels complete a word that the row keeps but STAGE does not have (log 11). -/
def stageWordMissing (n : Nat) (s : State) : Bool :=
  decide (32 ≤ s.pixCount.toNat % 32 + n) && decide (s.pixCount.toNat / 32 < rowWords s) &&
    decide (s.cfg.stageWords ≤ s.pixCount.toNat / 32)

/-- The pixel count is outside 1..32 (30_encoding.md R119). -/
def badCount (n : BitVec 6) : Bool := n == 0#6 || decide (32 < n.toNat)

/-- PIXELS past every decode check (R171): the row-length check comes before any pixel. -/
def pixelsBody (n : BitVec 6) (p : Word) (s : State) : Result :=
  if rowLen s < s.pixCount.toNat + n.toNat then .next (raise (rowLengthError s) (headerOf (.pixels n p)) s)
  else if stageWordMissing n.toNat s then .fault .noStageWord
  else .next (packPixels (payloadPixels n.toNat p) s)

/-- PIXELS (R171), with the operand check of 30_encoding.md R116 step 3 on N (log 13). -/
def execPixels (n : BitVec 6) (p : Word) (s : State) : Result :=
  if isTerminal s.phase then .next s
  else if badCount n then .next (raise .illegalOperand (headerOf (.pixels n p)) s)
  else guarded rowPhases (headerOf (.pixels n p)) (pixelsBody n p) s

end Sys2Proof.Machine
end

