-- ==== Sys2Proof/Machine/Control.lean ====
section
/-! DEFINITION. The control commands NOP, SOFT_RESET, SET_WIDTH and SET_HEIGHT (40_control.md R140 to R143). -/

namespace Sys2Proof.Machine

/-- NOP (R140). -/
def execNop (s : State) : Result :=
  guarded anyWorkingPhase (headerOf .nop) (fun s => .next s) s

/-- SOFT_RESET (R141): the one command that runs in every phase. -/
def execSoftReset (s : State) : Result := .next (softReset s)

/-- The writes of SET_WIDTH (R142). -/
def setImageWidth (val : BitVec 24) (s : State) : State :=
  { s with imgWidth := val, imgCols32 := (val >>> 5).setWidth 19 }

/-- SET_WIDTH (R142). -/
def execSetWidth (val : BitVec 24) (s : State) : Result :=
  guarded configOnly (headerOf (.setWidth val))
    (fun s =>
      if s.cfg.maxWidth < val.toNat then .next (raise .streamTooWide (headerOf (.setWidth val)) s)
      else .next (setImageWidth val s))
    s

/-- The write of SET_HEIGHT (R143). -/
def setImageHeight (val : BitVec 24) (s : State) : State := { s with imgHeight := val }

/-- SET_HEIGHT (R143). -/
def execSetHeight (val : BitVec 24) (s : State) : Result :=
  guarded configOnly (headerOf (.setHeight val)) (fun s => .next (setImageHeight val s)) s

end Sys2Proof.Machine
end

