-- ==== Sys2Proof/Machine/Feature.lean ====
section
/-! DEFINITION. Features (42_feature.md): FEAT_BEGIN, the feature row commit, FEAT_END, the feature signature and the template
comparator. -/

namespace Sys2Proof.Machine

/-! ## Loading -/

/-- `cols32 = COLS >> 5` (R190). -/
def featCols32 (cols : BitVec 12) : BitVec 7 := (cols >>> 5).setWidth 7

/-- The writes of FEAT_BEGIN (R190). -/
def beginLoad (rows cols : BitVec 12) (s : State) : State :=
  { s with
    load := { rows := rows, cols := cols, cols32 := featCols32 cols, base := s.fmemUsed, r := 0 }
    pixCount := 0
    acc := 0
    phase := .loading }

/-- FEAT_BEGIN (R190): its checks in the order the rule lists them. -/
def execFeatBegin (rows cols : BitVec 12) (s : State) : Result :=
  guarded configOnly (headerOf (.featBegin rows cols))
    (fun s =>
      if rows.toNat = 0 ∨ (featCols32 cols).toNat = 0 then
        .next (raise .loadBadDims (headerOf (.featBegin rows cols)) s)
      else if s.cfg.maxFeatRows < rows.toNat ∨ s.cfg.maxFeatCols32 < (featCols32 cols).toNat then
        .next (raise .loadTooLarge (headerOf (.featBegin rows cols)) s)
      else if s.featCount.toNat = s.cfg.maxFeatures then
        .next (raise .loadTableFull (headerOf (.featBegin rows cols)) s)
      else if s.cfg.featMemWords < s.fmemUsed.toNat + rows.toNat * (featCols32 cols).toNat then
        .next (raise .loadMemFull (headerOf (.featBegin rows cols)) s)
      else .next (beginLoad rows cols s))
    s

/-- The FM address of word 0 of the row the next ROW_END commits: `L.base + L.r × L.cols32` (R191). -/
def commitAddr (s : State) : Nat := s.load.base.toNat + s.load.r.toNat * s.load.cols32.toNat

/-- The words of the current feature row: `STAGE[0 .. L.cols32 − 1]` (R191). -/
def featureRowWords (s : State) : List Word := (List.range s.load.cols32.toNat).map (stageRead s)

/-- The writes of feature_row_commit (R191). -/
def commitRow (s : State) : State :=
  { s with
    fm := memWriteBlock unlistedWord s.fm (commitAddr s) (featureRowWords s)
    load := { s.load with r := s.load.r + 1 } }

/-- ROW_END in LOADING past the length check (R191 and 41_row_codec.md R172). -/
def featureRowCommit (h : Word) (s : State) : Result :=
  if s.load.r = s.load.rows then .next (raise .loadRowCount h s)
  else if s.cfg.stageWords < s.load.cols32.toNat then .fault .noStageWord
  else if s.cfg.featMemWords < commitAddr s + s.load.cols32.toNat then .fault .noFmWord
  else .next (clearRow (commitRow s))

/-- FeatureSignature (R193): the leftmost pixel of each row, top to bottom, shifted in. -/
def featureSignature (s : State) : Word :=
  (List.range s.load.rows.toNat).foldl
    (fun v r => shiftIn v (pixelOf (fmRead s (s.load.base.toNat + r * s.load.cols32.toNat)) 0)) 0#32

/-- The descriptor FEAT_END commits (R192). -/
def newDesc (s : State) : Desc where
  rows := s.load.rows
  cols := s.load.cols
  cols32 := s.load.cols32
  base := s.load.base
  sig := featureSignature s

/-- The writes of FEAT_END (R192). The index is computed from DESC, so index_insert writes nothing more (43_feature_index.md R220, 10_state.md R43). -/
def commitFeature (s : State) : State :=
  { s with
    desc := memWrite unlistedDesc s.desc s.featCount.toNat (newDesc s)
    featCount := s.featCount + 1
    fmemUsed := s.fmemUsed + BitVec.ofNat 32 (s.load.rows.toNat * s.load.cols32.toNat)
    phase := .config }

/-- FEAT_END (R192): ROW_LENGTH before ROW_COUNT (60_exceptions.md R286). -/
def execFeatEnd (s : State) : Result :=
  guarded loadingOnly (headerOf .featEnd)
    (fun s =>
      if s.pixCount ≠ 0 then .next (raise .loadRowLength (headerOf .featEnd) s)
      else if s.load.r ≠ s.load.rows then .next (raise .loadRowCount (headerOf .featEnd) s)
      else if s.cfg.featMemWords < s.load.base.toNat + s.load.rows.toNat * s.load.cols32.toNat then .fault .noFmWord
      else if s.cfg.maxFeatures ≤ s.featCount.toNat then .fault .noDescEntry
      else .next (commitFeature s))
    s

/-! ## The template comparator -/

/-- The 32 image pixels the comparator compares with word `k` of a feature row: those of line `line` from pixel
`32(c + k) + o` on (R194). -/
def windowWord (s : State) (line c o k : Nat) : Word :=
  funnel o (rbRead s line (c + k)) (rbRead s line (c + k + 1))

/-- Word `k` of row `r` of a committed feature: `FM[base + r × cols32 + k]` (20_memory.md R83). -/
def featureWord (s : State) (d : Desc) (r k : Nat) : Word :=
  fmRead s (d.base.toNat + r * d.cols32.toNat + k)

/-- The RB line of feature row `r` when the feature's bottom row lies on image row `y`: `(y − rows + 1 + r) mod CYCLE_ROWS` (R194). -/
def windowLine (s : State) (d : Desc) (y r : Nat) : Nat := (y + 1 + r - d.rows.toNat) % s.cycleRows.toNat

/-- `Matches(f, o, c, y)` (R194), with its two guards. -/
def matchesAt (s : State) (f o c y : Nat) : Bool :=
  let d := descRead s f
  decide (d.rows.toNat ≤ y + 1) &&
  decide (c + d.cols32.toNat + (if 0 < o then 1 else 0) ≤ s.imgCols32.toNat) &&
  (List.range d.rows.toNat).all fun r =>
    (List.range d.cols32.toNat).all fun k =>
      windowWord s (windowLine s d y r) c o k == featureWord s d r k

end Sys2Proof.Machine
end

