-- ==== Sys2Proof/Machine/Index.lean ====
section
/-! DEFINITION. The signature index (43_feature_index.md), computed from the descriptor table (10_state.md R43). -/

namespace Sys2Proof.Machine

/-- `Lookup(key)` (R221): the committed features whose signature is `key`, in increasing id. -/
def lookup (s : State) (key : Word) : List Nat :=
  (List.range s.featCount.toNat).filter fun f => (descRead s f).sig == key

end Sys2Proof.Machine
end

