-- ==== Sys2Proof/Machine/Scan.lean ====
section
/-! DEFINITION. The scan sequencer (44_scan_engine.md): SCAN_START, the scan row of ROW_END, STREAM_END, and ROW_END itself
(41_row_codec.md R172). -/

namespace Sys2Proof.Machine

/-! ## SCAN_START -/

/-- The tallest committed feature's row count (R240). -/
def tallest (s : State) : BitVec 12 :=
  (List.range s.featCount.toNat).foldl
    (fun m f => if m.toNat < (descRead s f).rows.toNat then (descRead s f).rows else m) 0#12

/-- The writes of SCAN_START (R240). Every SIG register is cleared, as 10_state.md R38 says; R240's loop names those of the image's
width alone (DESIGN CHOICE, log 19). -/
def startScan (s : State) : State :=
  { s with
    cycleRows := tallest s
    sig := memWriteBlock unlistedWord s.sig 0 (List.replicate (32 * s.cfg.maxCols32) 0#32)
    rowY := 0
    pixCount := 0
    acc := 0
    candCount := 0
    phase := if s.imgHeight = 0 then .exhausted else .scanning }

/-- SCAN_START (R240). -/
def execScanStart (s : State) : Result :=
  guarded configOnly (headerOf .scanStart)
    (fun s =>
      if s.featCount = 0 then .next (raise .usageNoFeatures (headerOf .scanStart) s)
      else if s.cfg.maxFeatures < s.featCount.toNat then .fault .noDescEntry
      else if s.cfg.maxCols32 < s.imgCols32.toNat then .fault .noSigRegister
      else .next (startScan s))
    s

/-! ## One scan row -/

/-- The packed words of the current image row: `STAGE[0 .. IMG_COLS32 − 1]` (R241). -/
def imageRowWords (s : State) : List Word := (List.range s.imgCols32.toNat).map (stageRead s)

/-- The RB line of the current row: `y mod CYCLE_ROWS` (R241). -/
def currentLine (s : State) : Nat := s.rowY.toNat % s.cycleRows.toNat

/-- scan_row step 1 (R241): the row goes into its RB line. -/
def storeRow (s : State) : State :=
  { s with rb := memWriteBlock unlistedWord s.rb (rbAddr s.cfg (currentLine s) 0) (imageRowWords s) }

/-- The signatures after the current row: each position takes in its pixel of STAGE (R242). -/
def newSignatures (s : State) : List Word :=
  (List.range (32 * s.imgCols32.toNat)).map fun x =>
    shiftIn (sigRead s x) (pixelOf (stageRead s (x / 32)) (x % 32))

/-- scan_row step 2a (R242). -/
def updateSignatures (s : State) : State :=
  { s with sig := memWriteBlock unlistedWord s.sig 0 (newSignatures s) }

/-- A feature to compare at a position: column, offset, feature id (R243). -/
structure Candidate where
  c : Nat
  o : Nat
  f : Nat
  deriving DecidableEq, Repr

/-- The two conditions of R243, as integers: `y >= rows − 1` and `c < IMG_COLS32 − cols32`. -/
def fits (s : State) (c f : Nat) : Bool :=
  decide ((descRead s f).rows.toNat ≤ s.rowY.toNat + 1) &&
  decide (c + (descRead s f).cols32.toNat < s.imgCols32.toNat)

/-- The candidates at one position, in increasing feature id (R243, 43_feature_index.md R222). -/
def candidatesAt (s : State) (c o : Nat) : List Candidate :=
  ((lookup s (sigRead s (position c o))).filter (fits s c)).map fun f => { c := c, o := o, f := f }

/-- Every candidate of the row, in the order of R243: column, offset, feature id. -/
def candidates (s : State) : List Candidate :=
  (List.range s.imgCols32.toNat).flatMap fun c => (List.range 32).flatMap fun o => candidatesAt s c o

/-- `CAND_COUNT <- min(CAND_COUNT + 1, 2^32 − 1)` (R243). -/
def countCandidate (n : BitVec 32) : BitVec 32 := if n = 0xFFFFFFFF#32 then n else n + 1

/-- The comparisons of R243 in order, up to the first that succeeds: the new CAND_COUNT and the match, if any. -/
def search (s : State) : List Candidate → BitVec 32 → BitVec 32 × Option Candidate
  | [], n => (n, none)
  | k :: ks, n =>
    if matchesAt s k.f k.o k.c s.rowY.toNat then (countCandidate n, some k)
    else search s ks (countCandidate n)

/-- RES_DIM of a descriptor: `(rows << 12) | cols` (R243, 10_state.md R57). -/
def resultDim (d : Desc) : BitVec 24 := (d.rows.setWidth 24 <<< 12) ||| d.cols.setWidth 24

/-- The report of a match and the entry to FOUND (R243). -/
def enterFound (k : Candidate) (s : State) : State :=
  let d := descRead s k.f
  { s with
    resX := BitVec.ofNat 24 (position k.c k.o)
    resY := BitVec.ofNat 24 (s.rowY.toNat + 1 - d.rows.toNat)
    resFeat := BitVec.ofNat 16 k.f
    resDim := resultDim d
    phase := .found }

/-- scan_row step 3 (R244): the next row, or EXHAUSTED after the last. -/
def advanceRow (s : State) : State :=
  { s with
    rowY := s.rowY + 1
    phase := if s.rowY + 1 = s.imgHeight then .exhausted else s.phase }

/-- scan_row steps 2b to 3 (R243, R244), on the state whose RB and SIG hold the row. -/
def searchRow (s : State) : State :=
  let r := search s (candidates s) s.candCount
  match r.2 with
  | some k => enterFound k { s with candCount := r.1 }
  | none => advanceRow { s with candCount := r.1 }

/-- scan_row (R241 to R244). -/
def scanRow (s : State) : State := searchRow (updateSignatures (storeRow s))

/-- A committed feature lies outside FM (log 11). -/
def featureOutsideFm (s : State) : Bool :=
  (List.range s.featCount.toNat).any fun f =>
    decide (s.cfg.featMemWords <
      (descRead s f).base.toNat + (descRead s f).rows.toNat * (descRead s f).cols32.toNat)

/-- The first address space in which a scan row needs an address that does not exist, if there is one (log 11). -/
def scanRowFault (s : State) : Option Fault :=
  if s.cfg.stageWords < s.imgCols32.toNat then some .noStageWord
  else if s.cycleRows.toNat = 0 ∨ s.cfg.maxFeatRows < s.cycleRows.toNat ∨ s.cfg.maxCols32 < s.imgCols32.toNat then
    some .noRbWord
  else if s.cfg.maxFeatures < s.featCount.toNat then some .noDescEntry
  else if featureOutsideFm s then some .noFmWord
  else none

/-- ROW_END in SCANNING past the length check (41_row_codec.md R172). -/
def scanRowEnd (s : State) : Result :=
  match scanRowFault s with
  | some e => .fault e
  | none => .next (clearRow (scanRow s))

/-! ## ROW_END and STREAM_END -/

/-- ROW_END past the decode and phase checks (41_row_codec.md R172). -/
def rowEndBody (s : State) : Result :=
  if s.pixCount.toNat ≠ rowLen s then .next (raise (rowLengthError s) (headerOf .rowEnd) s)
  else if s.phase = .loading then featureRowCommit (headerOf .rowEnd) s
  else scanRowEnd s

/-- ROW_END (41_row_codec.md R172). -/
def execRowEnd (s : State) : Result := guarded rowPhases (headerOf .rowEnd) rowEndBody s

/-- STREAM_END (R245). -/
def execStreamEnd (s : State) : Result :=
  guarded scanningOnly (headerOf .streamEnd)
    (fun s => .next (raise .streamTruncated (headerOf .streamEnd) s)) s

end Sys2Proof.Machine
end

