-- ==== Sys2Proof/Machine/Dispatch.lean ====
section
/-! DEFINITION. One arm per command (30_encoding.md R113). -/

namespace Sys2Proof.Machine

def exec (i : Instr) (s : State) : Host.Outcome State Fault Refusal :=
  match i with
  | .nop => Sys2Proof.Machine.execNop s
  | .softReset => Sys2Proof.Machine.execSoftReset s
  | .setWidth val => Sys2Proof.Machine.execSetWidth val s
  | .setHeight val => Sys2Proof.Machine.execSetHeight val s
  | .featBegin rows cols => Sys2Proof.Machine.execFeatBegin rows cols s
  | .featEnd => Sys2Proof.Machine.execFeatEnd s
  | .pixels n payload => Sys2Proof.Machine.execPixels n payload s
  | .rowEnd => Sys2Proof.Machine.execRowEnd s
  | .streamEnd => Sys2Proof.Machine.execStreamEnd s
  | .scanStart => Sys2Proof.Machine.execScanStart s

end Sys2Proof.Machine
end

