-- ==== Sys2Proof/Machine/Parser.lean ====
section
/-! DEFINITION. The command parser (30_encoding.md R115, R116), the three kinds of step of 70_reset_and_hazards.md R340, and the
placing of a command where the parser takes its next word. -/

namespace Sys2Proof.Machine

/-- The error of an illegal header (30_encoding.md R116 steps 2 and 3). -/
def illegalCode : Illegal → ErrorCode
  | .opcode => .illegalOpcode
  | .operand => .illegalOperand

/-- An illegal header: discarded in a terminal phase, else its error (30_encoding.md R116 steps 1 to 3). -/
def rejectWord (e : Illegal) (h : Word) (s : State) : State :=
  if isTerminal s.phase then s else raise (illegalCode e) h s

/-- `execute(h, p)` (30_encoding.md R116); `p` is used by PIXELS alone. -/
def execute (h p : Word) (s : State) : Result :=
  match decodeCommand h p with
  | .ok i => exec i s
  | .error e => .next (rejectWord e h s)

/-- The parser's turn on the word `w` it has taken from the FIFO (30_encoding.md R115). -/
def parseWord (w : Word) (s : State) : Result :=
  match s.parse with
  | .payload h => execute h w { s with parse := .header }
  | .header => if takesPayload w then .next { s with parse := .payload w } else execute w 0#32 s

/-- The word at the FIFO head is consumed and counted (10_state.md R34, R35). -/
def takeWord (s : State) : State := { s with fifo := s.fifo.drop 1, cmdCount := s.cmdCount + 1 }

/-- A core step (70_reset_and_hazards.md R340 item 3); with an empty FIFO it is not enabled and nothing changes. -/
def coreMove (s : State) : Result :=
  match s.fifo with
  | [] => .next s
  | w :: _ => parseWord w (takeWord s)

/-- One step of the machine (70_reset_and_hazards.md R340): the agent the schedule names moves; with no schedule left the core
goes first, and the host when the FIFO is empty (log 6). -/
def advance (s : State) : Result :=
  match s.schedule with
  | .core :: rest => coreMove { s with schedule := rest }
  | .host :: rest => .next (hostMove { s with schedule := rest })
  | .hardReset :: rest => .next (hardReset { s with schedule := rest })
  | [] => if s.fifo.isEmpty then .next (hostMove s) else coreMove s

/-- The schedule under which the core moves at the very next step. -/
def coreNext : List Move → List Move
  | [] => []
  | m :: rest => .core :: m :: rest

/-- The command with header `h` and payload `p` where the parser takes its next word: a one-word command at the FIFO head; a
PIXELS with its header already taken and its payload at the FIFO head (log 8). -/
def placeCommand (h p : Word) (s : State) : State :=
  if takesPayload h then
    { s with parse := .payload h, fifo := p :: s.fifo.drop 1, schedule := coreNext s.schedule }
  else
    { s with parse := .header, fifo := h :: s.fifo.drop 1, schedule := coreNext s.schedule }

end Sys2Proof.Machine
end

