-- ==== Sys2Proof/Machine/Step.lean ====
section
/-! DEFINITION. The step of the machine and the placing of an opcode-table row's word where the step takes it. -/

namespace Sys2Proof.Machine

/-- One step (70_reset_and_hazards.md R340). -/
def step (s : State) : Host.Outcome State Fault Refusal := Sys2Proof.Machine.advance s

/-- The state with an opcode-table row's command placed where the next step takes it (log 8). -/
def State.withFetchWord (s : State) (nbits w : Nat) : State :=
  Sys2Proof.Machine.placeCommand (tableHeader nbits w) (tablePayload nbits w) s

end Sys2Proof.Machine
end

