-- ==== Sys2Proof/Machine/Assembler.lean ====
section
/-! DEFINITION. The assembler forms and pseudo-commands (30_encoding.md R120, R121), and their one-line text syntax (log 14). -/

namespace Sys2Proof.Machine

/-- One line of assembly (R120), or a pseudo-command (R121). -/
inductive AsmLine where
  | nop
  | softReset
  | setWidth (w : Nat)
  | setHeight (h : Nat)
  | featBegin (rows cols : Nat)
  | featEnd
  | pixels (n p : Nat)
  | rowEnd
  | streamEnd
  | scanStart
  /-- `.word v`: the raw word. -/
  | word (v : Nat)
  /-- `ROW "b0b1..."`. -/
  | row (bits : List Bool)
  /-- `ZROW L`. -/
  | zrow (l : Nat)
  /-- `FEATURE "r0", "r1", ...`. -/
  | feature (rows : List (List Bool))
  /-- `IMAGE w, h`. -/
  | image (w h : Nat)
  deriving DecidableEq, Repr

/-! ## Expansion (R121) -/

/-- The PIXELS commands of one row: 32 pixels at a time, the last shorter (R121). -/
def rowPixels (bits : List Bool) : List AsmLine :=
  (List.range ((bits.length + 31) / 32)).map fun i =>
    .pixels (min 32 (bits.length - 32 * i)) (packWord fun j => (bits.getD (32 * i + j) false)).toNat

/-- `ROW`: the row's PIXELS, then ROW_END (R121). -/
def expandRow (bits : List Bool) : List AsmLine := rowPixels bits ++ [.rowEnd]

/-- The width of a feature's strings, all equal (R121). -/
def featureCols : List (List Bool) → Option Nat
  | [] => some 0
  | r :: rest => if rest.all (fun q => q.length == r.length) then some r.length else none

/-- The commands a line stands for (R121); `none` for a FEATURE of unequal strings. -/
def expand : AsmLine → Option (List AsmLine)
  | .row bits => some (expandRow bits)
  | .zrow l => some (expandRow (List.replicate l false))
  | .feature rows =>
    (featureCols rows).map fun cols =>
      .featBegin rows.length cols :: (rows.flatMap expandRow ++ [.featEnd])
  | .image w h => some [.setWidth w, .setHeight h]
  | .nop => some [.nop]
  | .softReset => some [.softReset]
  | .setWidth w => some [.setWidth w]
  | .setHeight h => some [.setHeight h]
  | .featBegin rows cols => some [.featBegin rows cols]
  | .featEnd => some [.featEnd]
  | .pixels n p => some [.pixels n p]
  | .rowEnd => some [.rowEnd]
  | .streamEnd => some [.streamEnd]
  | .scanStart => some [.scanStart]
  | .word v => some [.word v]

/-! ## Words (R120) -/

/-- The words of one command; an operand that does not fit its field is refused (R120). -/
def lineWords : AsmLine → Option (List Word)
  | .nop => some (encode .nop)
  | .softReset => some (encode .softReset)
  | .setWidth w => if w < 2 ^ 24 then some (encode (.setWidth (BitVec.ofNat 24 w))) else none
  | .setHeight h => if h < 2 ^ 24 then some (encode (.setHeight (BitVec.ofNat 24 h))) else none
  | .featBegin rows cols =>
    if rows < 2 ^ 12 ∧ cols < 2 ^ 12 then
      some (encode (.featBegin (BitVec.ofNat 12 rows) (BitVec.ofNat 12 cols)))
    else none
  | .featEnd => some (encode .featEnd)
  | .pixels n p =>
    if n < 2 ^ 6 ∧ p < 2 ^ 32 then some (encode (.pixels (BitVec.ofNat 6 n) (BitVec.ofNat 32 p))) else none
  | .rowEnd => some (encode .rowEnd)
  | .streamEnd => some (encode .streamEnd)
  | .scanStart => some (encode .scanStart)
  | .word v => if v < 2 ^ 32 then some [BitVec.ofNat 32 v] else none
  | .row _ | .zrow _ | .feature _ | .image _ _ => none

/-- The words of a list of commands, in order. -/
def linesWords : List AsmLine → Option (List Word)
  | [] => some []
  | l :: ls =>
    match lineWords l, linesWords ls with
    | some w, some ws => some (w ++ ws)
    | _, _ => none

/-- The words of one line of assembly, pseudo-commands expanded (R120, R121). -/
def assembleLine (l : AsmLine) : Option (List Word) := (expand l).bind linesWords

/-- The words of a program. -/
def assemble : List AsmLine → Option (List Word)
  | [] => some []
  | l :: ls =>
    match assembleLine l, assemble ls with
    | some w, some ws => some (w ++ ws)
    | _, _ => none

/-! ## Text (R120; the lexical details the rule leaves open are in log 14) -/

/-- The line without its `;` comment. -/
def dropComment (cs : List Char) : List Char := cs.takeWhile fun c => c != ';'

/-- The words between spaces, tabs and commas; `acc` is the word being read, last character first. -/
def tokens : List Char → List Char → List (List Char)
  | acc, [] => if acc.isEmpty then [] else [acc.reverse]
  | acc, c :: cs =>
    if c == ' ' || c == ',' || c == '\t' then
      if acc.isEmpty then tokens [] cs else acc.reverse :: tokens [] cs
    else tokens (c :: acc) cs

/-- The value of a decimal or hexadecimal digit. -/
def digitValue (c : Char) : Option Nat :=
  if '0'.toNat ≤ c.toNat ∧ c.toNat ≤ '9'.toNat then some (c.toNat - '0'.toNat)
  else if 'a'.toNat ≤ c.toNat ∧ c.toNat ≤ 'f'.toNat then some (c.toNat - 'a'.toNat + 10)
  else if 'A'.toNat ≤ c.toNat ∧ c.toNat ≤ 'F'.toNat then some (c.toNat - 'A'.toNat + 10)
  else none

/-- A digit string in a base, most significant digit first. -/
def digitsValue (base : Nat) : Nat → List Char → Option Nat
  | n, [] => some n
  | n, c :: cs =>
    match digitValue c with
    | some d => if d < base then digitsValue base (n * base + d) cs else none
    | none => none

/-- A number: decimal, or hexadecimal after `0x` (R120). -/
def numberValue : List Char → Option Nat
  | [] => none
  | '0' :: 'x' :: cs => if cs.isEmpty then none else digitsValue 16 0 cs
  | cs => digitsValue 10 0 cs

/-- The pixels between the quotes of a row string. -/
def pixelChars : List Char → Option (List Bool)
  | ['"'] => some []
  | '0' :: cs => (pixelChars cs).map (false :: ·)
  | '1' :: cs => (pixelChars cs).map (true :: ·)
  | _ => none

/-- A row string: `"` pixels `"`. -/
def rowString : List Char → Option (List Bool)
  | '"' :: cs => pixelChars cs
  | _ => none

/-- Every row string of a FEATURE line. -/
def rowStrings : List (List Char) → Option (List (List Bool))
  | [] => some []
  | t :: ts =>
    match rowString t, rowStrings ts with
    | some r, some rs => some (r :: rs)
    | _, _ => none

/-- A form with one number. -/
def oneNumber (f : Nat → AsmLine) : List (List Char) → Option AsmLine
  | [a] => (numberValue a).map f
  | _ => none

/-- A form with two numbers. -/
def twoNumbers (f : Nat → Nat → AsmLine) : List (List Char) → Option AsmLine
  | [a, b] =>
    match numberValue a, numberValue b with
    | some x, some y => some (f x y)
    | _, _ => none
  | _ => none

/-- A form with no operand. -/
def noOperand (l : AsmLine) : List (List Char) → Option AsmLine
  | [] => some l
  | _ => none

/-- One non-empty line of text, in words (R120, R121). -/
def parseTokens (name : List Char) (args : List (List Char)) : Option AsmLine :=
  if name = "NOP".toList then noOperand .nop args
  else if name = "SOFT_RESET".toList then noOperand .softReset args
  else if name = "SET_WIDTH".toList then oneNumber .setWidth args
  else if name = "SET_HEIGHT".toList then oneNumber .setHeight args
  else if name = "FEAT_BEGIN".toList then twoNumbers .featBegin args
  else if name = "FEAT_END".toList then noOperand .featEnd args
  else if name = "PIXELS".toList then twoNumbers .pixels args
  else if name = "ROW_END".toList then noOperand .rowEnd args
  else if name = "STREAM_END".toList then noOperand .streamEnd args
  else if name = "SCAN_START".toList then noOperand .scanStart args
  else if name = ".word".toList then oneNumber .word args
  else if name = "ZROW".toList then oneNumber .zrow args
  else if name = "IMAGE".toList then twoNumbers .image args
  else if name = "ROW".toList then
    match args with
    | [t] => (rowString t).map .row
    | _ => none
  else if name = "FEATURE".toList then (rowStrings args).map .feature
  else none

/-- A line of text: its words, none for an empty or comment line; `none` where the assembler refuses it (R120). -/
def assembleText (cs : List Char) : Option (List Word) :=
  match tokens [] (dropComment cs) with
  | [] => some []
  | name :: args => (parseTokens name args).bind assembleLine

end Sys2Proof.Machine
end

