-- ==== Sys2Proof/Safety.lean ====
section
/-! DEFINITION. What claims about runs are stated in: the legal-phase table, what no command may touch, the invariant of the
machine, the history of a scan, and what one host agent's accesses are. -/

namespace Sys2Proof.Safety

open Sys2Proof.Machine

/-! ## Commands -/

/-- The "legal in phase" column of 30_encoding.md R113. SOFT_RESET alone is legal in the terminal phases. -/
def legalIn : Instr → Phase → Bool
  | .softReset, _ => true
  | .nop, p => p == .config || p == .loading || p == .scanning
  | .setWidth _, p | .setHeight _, p | .featBegin _ _, p | .scanStart, p => p == .config
  | .featEnd, p => p == .loading
  | .pixels _ _, p | .rowEnd, p => p == .loading || p == .scanning
  | .streamEnd, p => p == .scanning

/-- The parts of the state that no command writes: the configuration, CTRL, the command stream, FEAT_SEL (70_reset_and_hazards.md
R321 keeps them even at SOFT_RESET), and the host and its schedule. -/
abbrev SameInterface (s t : State) : Prop :=
  t.cfg = s.cfg ∧ t.irqEn = s.irqEn ∧ t.parse = s.parse ∧ t.fifo = s.fifo ∧ t.cmdCount = s.cmdCount ∧
  t.featSel = s.featSel ∧ t.host = s.host ∧ t.response = s.response ∧ t.schedule = s.schedule

/-- Every word of STAGE, SIG, FM and RB and every entry of DESC reads as before. -/
def SameMemories (s t : State) : Prop :=
  (∀ a, stageRead t a = stageRead s a) ∧ (∀ a, sigRead t a = sigRead s a) ∧ (∀ a, fmRead t a = fmRead s a) ∧
  (∀ line c, rbRead t line c = rbRead s line c) ∧ (∀ f, descRead t f = descRead s f)

/-- Commands executed one after another, stopping at the first that does not answer a next state. -/
def execAll : List Instr → State → Result
  | [], s => .next s
  | i :: is, s =>
    match exec i s with
    | .next t => execAll is t
    | .fault e => .fault e
    | .refused r => .refused r

/-! ## The invariant of the machine -/

/-- The FM words of a feature: `rows × cols32` (10_state.md R53). -/
def featWords (d : Desc) : Nat := d.rows.toNat * d.cols32.toNat

/-- The FM words allocated to the features below `f` (20_memory.md R83). -/
def allocatedBelow (s : State) (f : Nat) : Nat := ((List.range f).map fun g => featWords (descRead s g)).sum

/-- The ranges of a committed descriptor (10_state.md R40). -/
abbrev DescLegal (cfg : Config) (d : Desc) : Prop :=
  (1 ≤ d.rows.toNat ∧ d.rows.toNat ≤ cfg.maxFeatRows) ∧
  d.cols32 = featCols32 d.cols ∧
  (1 ≤ d.cols32.toNat ∧ d.cols32.toNat ≤ cfg.maxFeatCols32)

/-- The committed features: legal, allocated one after another, within the capacities (10_state.md R40, R53, 20_memory.md R83). -/
abbrev FeatInv (s : State) : Prop :=
  s.featCount.toNat ≤ s.cfg.maxFeatures ∧
  (∀ f, f < s.featCount.toNat → DescLegal s.cfg (descRead s f) ∧ (descRead s f).base.toNat = allocatedBelow s f) ∧
  s.fmemUsed.toNat = allocatedBelow s s.featCount.toNat ∧
  s.fmemUsed.toNat ≤ s.cfg.featMemWords

/-- The feature being loaded (10_state.md R39, 42_feature.md R190, R191). -/
abbrev LoadInv (s : State) : Prop :=
  s.phase = .loading →
    (1 ≤ s.load.rows.toNat ∧ s.load.rows.toNat ≤ s.cfg.maxFeatRows) ∧
    s.load.cols32 = featCols32 s.load.cols ∧
    (1 ≤ s.load.cols32.toNat ∧ s.load.cols32.toNat ≤ s.cfg.maxFeatCols32) ∧
    s.load.base = s.fmemUsed ∧
    s.load.r.toNat ≤ s.load.rows.toNat ∧
    s.featCount.toNat < s.cfg.maxFeatures ∧
    s.fmemUsed.toNat + s.load.rows.toNat * s.load.cols32.toNat ≤ s.cfg.featMemWords ∧
    s.pixCount.toNat ≤ s.load.cols.toNat

/-- The image size (10_state.md R50, 40_control.md R142). -/
abbrev ImageInv (s : State) : Prop :=
  s.imgWidth.toNat ≤ s.cfg.maxWidth ∧ s.imgCols32 = (s.imgWidth >>> 5).setWidth 19

/-- A running scan (10_state.md R51, R52, R55, 44_scan_engine.md R240, R244). -/
abbrev ScanInv (s : State) : Prop :=
  s.phase = .scanning →
    1 ≤ s.featCount.toNat ∧ s.cycleRows = tallest s ∧ s.rowY.toNat < s.imgHeight.toNat ∧
    s.pixCount.toNat ≤ s.imgWidth.toNat

/-- Before a scan its counters are 0, and after an exhausted one every row is consumed (10_state.md R51, R52, R54). -/
abbrev RowInv (s : State) : Prop :=
  (s.phase = .config ∨ s.phase = .loading → s.rowY = 0 ∧ s.cycleRows = 0 ∧ s.candCount = 0) ∧
  (s.phase = .exhausted → s.rowY = s.imgHeight)

/-- A saved header is a PIXELS header (10_state.md R22, 30_encoding.md R115). -/
def payloadHeader : Parse → Bool
  | .header => true
  | .payload h => takesPayload h

/-- The command stream (10_state.md R22, R35). -/
abbrev StreamInv (s : State) : Prop :=
  s.fifo.length ≤ s.cfg.cmdFifoDepth ∧ payloadHeader s.parse = true

/-- The error registers are 0 outside ERROR, and ERR_CODE is not 0 in it (10_state.md R33, 60_exceptions.md R281). -/
abbrev ErrorInv (s : State) : Prop :=
  (s.phase ≠ .error → s.errCode = 0 ∧ s.errInfo = 0) ∧ (s.phase = .error → s.errCode ≠ 0)

/-- The result registers are 0 outside FOUND (10_state.md R57). -/
abbrev ResultInv (s : State) : Prop :=
  s.phase ≠ .found → s.resX = 0 ∧ s.resY = 0 ∧ s.resFeat = 0 ∧ s.resDim = 0

/-- Every memory is in canonical form. -/
abbrev Canonical (s : State) : Prop :=
  memWf unlistedWord s.stage ∧ memWf unlistedWord s.sig ∧ memWf unlistedDesc s.desc ∧ memWf unlistedWord s.fm ∧
  memWf unlistedWord s.rb

/-- Every memory lists only addresses of its space (20_memory.md R80). -/
abbrev WithinSpaces (s : State) : Prop :=
  memWithin s.stage s.cfg.stageWords ∧ memWithin s.sig (32 * s.cfg.maxCols32) ∧ memWithin s.desc s.cfg.maxFeatures ∧
  memWithin s.fm s.cfg.featMemWords ∧ memWithin s.rb (s.cfg.maxFeatRows * s.cfg.maxCols32)

/-- The invariant of the machine: what every state that a run from reset reaches satisfies. -/
abbrev Inv (s : State) : Prop :=
  s.cfg.Legal ∧ FeatInv s ∧ LoadInv s ∧ ImageInv s ∧ ScanInv s ∧ RowInv s ∧ StreamInv s ∧ ErrorInv s ∧ ResultInv s ∧
  Canonical s ∧ WithinSpaces s

/-- The signature of a committed feature's stored rows (42_feature.md R193), read back from FM. -/
def storedSignature (s : State) (d : Desc) : Word :=
  (List.range d.rows.toNat).foldl (fun v r => shiftIn v (pixelOf (featureWord s d r 0) 0)) 0#32

/-- Every committed descriptor holds the signature of its stored rows (10_state.md R40). -/
abbrev SignatureInv (s : State) : Prop :=
  ∀ f, f < s.featCount.toNat → (descRead s f).sig = storedSignature s (descRead s f)

/-! ## The history of a scan: `img i x` is pixel `x` of image row `i` as the host delivered it -/

/-- Packed word `c` of image row `i` (00_scope.md R11). -/
def imageWord (img : Nat → Nat → Bool) (i c : Nat) : Word := packWord fun j => img i (32 * c + j)

/-- RB holds the last CYCLE_ROWS rows, each in line `row mod CYCLE_ROWS` (10_state.md R42). -/
abbrev BufferHolds (img : Nat → Nat → Bool) (s : State) : Prop :=
  ∀ i, i < s.rowY.toNat → ∀ c, c < s.imgCols32.toNat → s.rowY.toNat ≤ i + s.cycleRows.toNat →
    rbRead s (i % s.cycleRows.toNat) c = imageWord img i c

/-- `SIG[x]` holds the last 32 pixels of column `x`, the most recent in bit 0, with zeros above row 0 (10_state.md R38,
44_scan_engine.md R242). -/
abbrev SignaturesHold (img : Nat → Nat → Bool) (s : State) : Prop :=
  ∀ x, x < 32 * s.imgCols32.toNat → ∀ b, b < 32 →
    (sigRead s x).getLsbD b = (decide (b < s.rowY.toNat) && img (s.rowY.toNat - 1 - b) x)

/-- The rows of `img` above ROW_Y have been scanned. -/
abbrev Scanned (img : Nat → Nat → Bool) (s : State) : Prop := BufferHolds img s ∧ SignaturesHold img s

/-- STAGE holds row ROW_Y of `img`. -/
abbrev RowStaged (img : Nat → Nat → Bool) (s : State) : Prop :=
  ∀ c, c < s.imgCols32.toNat → stageRead s c = imageWord img s.rowY.toNat c

/-- Pixel `j` of stored row `r` of a committed feature (42_feature.md R196). -/
def featurePixel (s : State) (d : Desc) (r j : Nat) : Bool := pixelOf (featureWord s d r (j / 32)) (j % 32)

/-- The image shows feature `d` with its top-left pixel at `(x, y)` (44_scan_engine.md R249). -/
abbrev Shows (img : Nat → Nat → Bool) (s : State) (d : Desc) (x y : Nat) : Prop :=
  ∀ r, r < d.rows.toNat → ∀ j, j < 32 * d.cols32.toNat → img (y + r) (x + j) = featurePixel s d r j

/-- The state in which the search of a scan row runs: the row stored and the signatures updated (44_scan_engine.md R241, R242). -/
def searchState (s : State) : State := updateSignatures (storeRow s)

/-- Feature `f` is a candidate at `(o, c)` for the row just stored and matches there (44_scan_engine.md R243). -/
abbrev MatchesHere (s : State) (c o f : Nat) : Prop :=
  c < s.imgCols32.toNat ∧ o < 32 ∧ f < s.featCount.toNat ∧
  (descRead s f).sig = sigRead s (position c o) ∧
  (descRead s f).rows.toNat ≤ s.rowY.toNat + 1 ∧
  c + (descRead s f).cols32.toNat < s.imgCols32.toNat ∧
  matchesAt s f o c s.rowY.toNat = true

/-! ## Resets and the host -/

/-- What the soft reset leaves in the registers it writes (70_reset_and_hazards.md R321). -/
abbrev SoftResetDone (t : State) : Prop :=
  t.phase = .config ∧ t.errCode = 0 ∧ t.errInfo = 0 ∧ t.imgWidth = 0 ∧ t.imgHeight = 0 ∧ t.imgCols32 = 0 ∧
  t.rowY = 0 ∧ t.cycleRows = 0 ∧ t.candCount = 0 ∧ t.pixCount = 0 ∧ t.acc = 0 ∧ t.featCount = 0 ∧ t.fmemUsed = 0 ∧
  (t.load.rows = 0 ∧ t.load.cols = 0 ∧ t.load.cols32 = 0 ∧ t.load.base = 0 ∧ t.load.r = 0) ∧
  t.resX = 0 ∧ t.resY = 0 ∧ t.resFeat = 0 ∧ t.resDim = 0

/-- The core moves at the coming step, and the schedule left after it is `rest` (log 6). -/
abbrev CoreTurn (s : State) (rest : List Move) : Prop :=
  (s.schedule = [] ∧ s.fifo ≠ [] ∧ rest = []) ∨ s.schedule = .core :: rest

/-- The host moves at the coming step, and the schedule left after it is `rest` (log 6). -/
abbrev HostTurn (s : State) (rest : List Move) : Prop :=
  (s.schedule = [] ∧ s.fifo = [] ∧ rest = []) ∨ s.schedule = .host :: rest

/-- The pixels a PIXELS line of an expansion delivers (30_encoding.md R121). -/
def linePixels : AsmLine → List Bool
  | .pixels n p => payloadPixels n (BitVec.ofNat 32 p)
  | .nop | .softReset | .setWidth _ | .setHeight _ | .featBegin _ _ | .featEnd | .rowEnd | .streamEnd | .scanStart
  | .word _ | .row _ | .zrow _ | .feature _ | .image _ _ => []

/-- A pixel of the row buffer (20_memory.md R82, R85). -/
def bufferPixel (s : State) (line x : Nat) : Bool := pixelOf (rbRead s line (x / 32)) (x % 32)

/-- The access is a CTRL write with bit 1 set (70_reset_and_hazards.md R322). -/
def isSrstWrite (cfg : Config) : HostAccess → Bool
  | .read _ _ => false
  | .write addr size v =>
    inWindow cfg addr && legalAccess (windowOffset cfg addr) size && windowOffset cfg addr == 0x20 && v.getLsbD 1

/-- No access the host has still to make is a CTRL.SRST. -/
abbrev NoSrst (cfg : Config) (hs : List HostAccess) : Prop := ∀ a, a ∈ hs → isSrstWrite cfg a = false

/-- The access is a write. -/
def isWrite : HostAccess → Bool
  | .read _ _ => false
  | .write _ _ _ => true

/-- Every access the host has still to make is a write. -/
abbrev OnlyWrites (hs : List HostAccess) : Prop := ∀ a, a ∈ hs → isWrite a = true

/-- The command words a state has still to consume: those in the FIFO and those the host has still to write to CMD. -/
def pendingWords (s : State) : Nat := s.fifo.length + (s.host.filter (isCmdWrite s.cfg)).length

/-- The schedule holds no hardware reset. -/
abbrev NoHardReset (ms : List Move) : Prop := ∀ m, m ∈ ms → m ≠ Move.hardReset

end Sys2Proof.Safety
end

