-- ==== Sys2Proof/Certificates/Slice0/Obligations.lean ====
section
/-! DEFINITION. The statements for the provers, one def per entry of OBLIGATIONS.json. -/

open Sys2Proof Sys2Proof.Machine Sys2Proof.Safety

/-! ## Encoding -/

/-- Words written out from the encodings of 30_encoding.md R113 and R120 decode to the commands they stand for. -/
def Obligations.SampleWordsDecode : Prop :=
  decode [0x00000000#32] = .ok (.nop, []) ∧
  decode [0x01000000#32] = .ok (.softReset, []) ∧
  decode [0x02000080#32] = .ok (.setWidth 128#24, []) ∧
  decode [0x03000014#32] = .ok (.setHeight 20#24, []) ∧
  decode [0x10002020#32] = .ok (.featBegin 2#12 32#12, []) ∧
  decode [0x11000000#32] = .ok (.featEnd, []) ∧
  decode [0x20000020#32, 0xFFFFFFFF#32] = .ok (.pixels 32#6 0xFFFFFFFF#32, []) ∧
  decode [0x21000000#32] = .ok (.rowEnd, []) ∧
  decode [0x22000000#32] = .ok (.streamEnd, []) ∧
  decode [0x30000000#32] = .ok (.scanStart, [])

/-- Decoding the words of any command gives that command back and leaves the words after it (30_encoding.md R110 to R114). -/
def Obligations.DecodeOfEncode : Prop :=
  ∀ (i : Instr) (rest : List Word), decode (encode i ++ rest) = .ok (i, rest)

/-- Whatever the decoder accepts is the encoding of the command it answers: each word sequence has one meaning, and no bit of it is
dropped (30_encoding.md R111, R113, R119). -/
def Obligations.EncodeOfDecode : Prop :=
  ∀ (ws : List Word) (i : Instr) (rest : List Word), decode ws = .ok (i, rest) → encode i ++ rest = ws

/-- Which headers the decoder refuses, and under which name (30_encoding.md R119; the pixel count is checked by the meaning of PIXELS, log 13). -/
def Obligations.IllegalHeaders : Prop :=
  ∀ h p : Word,
    (decodeCommand h p = .error .opcode ↔
      opcOf h ∉ [0x00#8, 0x01#8, 0x02#8, 0x03#8, 0x10#8, 0x11#8, 0x20#8, 0x21#8, 0x22#8, 0x30#8]) ∧
    (decodeCommand h p = .error .operand ↔
      (opcOf h ∈ [0x00#8, 0x01#8, 0x11#8, 0x21#8, 0x22#8, 0x30#8] ∧ immOf h ≠ 0#24) ∨
      (opcOf h = 0x20#8 ∧ reservedOf h ≠ 0#18))

/-- The PIXELS commands of a ROW line deliver exactly the pixels of its string, 1 to 32 each (30_encoding.md R121). -/
def Obligations.RowExpansionDeliversItsPixels : Prop :=
  ∀ bits : List Bool,
    (rowPixels bits).flatMap linePixels = bits ∧
    ∀ l, l ∈ rowPixels bits → ∃ n p, l = .pixels n p ∧ 1 ≤ n ∧ n ≤ 32 ∧ p < 2 ^ 32

/-! ## The step -/

/-- A step in which the core takes the header of a one-word command is exec of that command, on the state whose FIFO, CMD_COUNT
and schedule have moved past the word (30_encoding.md R115, R118; whose turn a step is, the model's schedule says, log 6). -/
def Obligations.StepRunsOneWordCommand : Prop :=
  ∀ (s : State) (h : Word) (ws : List Word) (ms : List Move) (i : Instr),
    CoreTurn s ms → s.parse = .header → s.fifo = h :: ws → decode [h] = .ok (i, []) →
    step s = exec i { s with fifo := ws, cmdCount := s.cmdCount + 1, schedule := ms }

/-- A step in which the core takes the payload of a saved PIXELS header is exec of that PIXELS, with PARSE back at HEADER
(30_encoding.md R115, R118). -/
def Obligations.StepRunsPixelsOnItsPayload : Prop :=
  ∀ (s : State) (h p : Word) (ws : List Word) (ms : List Move) (i : Instr),
    CoreTurn s ms → s.parse = .payload h → s.fifo = p :: ws → decode [h, p] = .ok (i, []) →
    step s = exec i { s with parse := .header, fifo := ws, cmdCount := s.cmdCount + 1, schedule := ms }

/-- A step in which the core takes a header with OPC = 0x20 saves it in PARSE and changes nothing else, in every phase
(30_encoding.md R115). -/
def Obligations.StepTakesPixelsHeader : Prop :=
  ∀ (s : State) (h : Word) (ws : List Word) (ms : List Move),
    CoreTurn s ms → s.parse = .header → s.fifo = h :: ws → opcOf h = 0x20#8 →
    step s = .next { s with parse := .payload h, fifo := ws, cmdCount := s.cmdCount + 1, schedule := ms }

/-- An illegal header, with its payload where it is a PIXELS header: only its words are consumed in a terminal phase; else ERROR is
entered with ILLEGAL_OPCODE (0x40) or ILLEGAL_OPERAND (0x41) and the header in ERR_INFO (30_encoding.md R116 steps 1 to 3). -/
def Obligations.StepRejectsIllegalHeader : Prop :=
  ∀ (s : State) (w h : Word) (ws : List Word) (ms : List Move) (e : Illegal),
    CoreTurn s ms → s.fifo = w :: ws →
    (s.parse = .header ∧ h = w ∧ opcOf h ≠ 0x20#8 ∨ s.parse = .payload h) →
    decodeCommand h w = .error e →
    (isTerminal s.phase = true →
      step s = .next { s with parse := .header, fifo := ws, cmdCount := s.cmdCount + 1, schedule := ms }) ∧
    (isTerminal s.phase = false →
      step s = .next
        { s with
          parse := .header, fifo := ws, cmdCount := s.cmdCount + 1, schedule := ms
          phase := .error, errInfo := h
          errCode := match e with | .opcode => 0x40#8 | .operand => 0x41#8 })

/-- CMD_COUNT counts the words the core consumes since hardware reset, one at a time and in order, whatever they are and whatever the
phase; a SOFT_RESET, every host move, CTRL.SRST among them, and a turn of the core that finds no word (log 6) leave it
(10_state.md R34). -/
def Obligations.CmdCountCountsConsumedWords : Prop :=
  (∀ (s t : State) (ms : List Move), step s = .next t →
    (CoreTurn s ms → ∀ w ws, s.fifo = w :: ws → t.cmdCount = s.cmdCount + 1 ∧ t.fifo = ws) ∧
    (s.schedule = .core :: ms → s.fifo = [] → t.cmdCount = s.cmdCount) ∧
    (HostTurn s ms → t.cmdCount = s.cmdCount) ∧
    (s.schedule = .hardReset :: ms → t.cmdCount = 0)) ∧
  ∀ s t : State, exec .softReset s = .next t → t.cmdCount = s.cmdCount

/-! ## The register window -/

/-- A CMD write enters the FIFO at its tail while there is room, and waits while the FIFO is full: then nothing but the schedule
changes, and the write is still the host's next access (20_memory.md R88; the host's accesses and the schedule are the model's own
fields, logs 5 and 6). -/
def Obligations.CmdWriteQueuesOrStalls : Prop :=
  ∀ (s : State) (v : Word) (hs : List HostAccess) (ms : List Move),
    HostTurn s ms → s.host = .write (s.cfg.baseAddr + 0x28) 4 v :: hs →
    (s.fifo.length < s.cfg.cmdFifoDepth →
      step s = .next { s with fifo := s.fifo ++ [v], host := hs, response := some .done, schedule := ms }) ∧
    (s.cfg.cmdFifoDepth ≤ s.fifo.length → step s = .next { s with schedule := ms })

/-- A host read answers the register's value, or a bus error for a size other than 4 or an unaligned offset, and is no access to
the TMC outside the window; it changes no state of the TMC (40_control.md R150, 20_memory.md R81, R87, R89). -/
def Obligations.HostReadChangesNothing : Prop :=
  ∀ (s : State) (addr size : Nat) (hs : List HostAccess) (ms : List Move),
    HostTurn s ms → s.host = .read addr size :: hs →
    step s = .next
      { s with
        host := hs, schedule := ms
        response := some
          (if s.cfg.baseAddr ≤ addr ∧ addr ≤ s.cfg.baseAddr + 0xFF then
            if size = 4 ∧ (addr - s.cfg.baseAddr) % 4 = 0 then .data (regRead s (addr - s.cfg.baseAddr)) else .busError
          else .notSelected) }

/-- A host access to the window, read or write, that is not 32 bits wide or not at a multiple of 4 is answered with a bus error and no
data, and no TMC state changes (20_memory.md R87). -/
def Obligations.BusErrorsChangeNothing : Prop :=
  ∀ (s : State) (a : HostAccess) (off size : Nat) (hs : List HostAccess) (ms : List Move),
    HostTurn s ms → s.host = a :: hs → off ≤ 0xFF →
    (a = .read (s.cfg.baseAddr + off) size ∨ ∃ v, a = .write (s.cfg.baseAddr + off) size v) →
    size ≠ 4 ∨ off % 4 ≠ 0 →
    step s = .next { s with host := hs, schedule := ms, response := some .busError }

/-- A host write outside the window is no access to the TMC, and a legal one to an RO or reserved offset is ignored: neither changes
any state of the TMC (20_memory.md R81, R89, 40_control.md R151). -/
def Obligations.IgnoredWritesChangeNothing : Prop :=
  ∀ (s : State) (addr size : Nat) (v : Word) (hs : List HostAccess) (ms : List Move),
    HostTurn s ms → s.host = .write addr size v :: hs →
    (¬(s.cfg.baseAddr ≤ addr ∧ addr ≤ s.cfg.baseAddr + 0xFF) →
      step s = .next { s with host := hs, schedule := ms, response := some .notSelected }) ∧
    (∀ off, addr = s.cfg.baseAddr + off → off ≤ 0xFF → size = 4 → off % 4 = 0 → off ≠ 0x20 → off ≠ 0x28 → off ≠ 0x80 →
      step s = .next { s with host := hs, schedule := ms, response := some .done })

/-- A write to CTRL without bit 1 sets IRQ_EN to bit 0 and nothing else; a write to FEAT_SEL sets its 16 bits and nothing else
(40_control.md R152, R153). -/
def Obligations.CtrlAndFeatSelWrites : Prop :=
  ∀ (s : State) (v : Word) (hs : List HostAccess) (ms : List Move), HostTurn s ms →
    (s.host = .write (s.cfg.baseAddr + 0x20) 4 v :: hs → v.getLsbD 1 = false →
      step s = .next { s with irqEn := v.getLsbD 0, host := hs, schedule := ms, response := some .done }) ∧
    (s.host = .write (s.cfg.baseAddr + 0x80) 4 v :: hs →
      step s = .next
        { s with featSel := v.extractLsb' 0 16, host := hs, schedule := ms, response := some .done })

/-- ID and VERSION read their constants and writes to them are ignored (10_state.md R24); the capability registers read the
parameters, field by field, their other bits 0 (R25); and no step, a reset included, changes what any of the six reads. -/
def Obligations.ConstantRegisters : Prop :=
  ∀ s : State, s.cfg.Legal →
    (∀ (off : Nat) (v : Word) (hs : List HostAccess) (ms : List Move), off = 0x00 ∨ off = 0x04 →
      HostTurn s ms → s.host = .write (s.cfg.baseAddr + off) 4 v :: hs →
      ∃ t, step s = .next t ∧ t = { s with host := hs, schedule := ms, response := t.response }) ∧
    (∀ t, step s = .next t → ∀ off, off ∈ [0x00, 0x04, 0x08, 0x0C, 0x10, 0x14] → regRead t off = regRead s off) ∧
    regRead s 0x00 = 0x544D4300#32 ∧ regRead s 0x04 = 0x00010000#32 ∧
    (regRead s 0x08).toNat = s.cfg.maxWidth ∧
    ((regRead s 0x0C).extractLsb' 0 16).toNat = s.cfg.maxFeatures ∧
    ((regRead s 0x0C).extractLsb' 16 12).toNat = s.cfg.maxFeatRows ∧
    (regRead s 0x0C).extractLsb' 28 4 = 0#4 ∧
    (regRead s 0x10).toNat = s.cfg.featMemWords ∧
    (regRead s 0x14).toNat = s.cfg.maxFeatCols32

/-- Every register of the state reads its value, zero-extended; CMD and every offset that 10_state.md R23 does not list read 0. That
ERR_CODE, ERR_INFO and the RES registers read what is stored, whatever PHASE is, is the model's choice (log 15): R33 and R57 say 0
outside ERROR and FOUND, where the invariant has 0 stored. -/
def Obligations.RegisterWindowReads : Prop :=
  ∀ s : State,
    ((regRead s 0x20).toNat = s.irqEn.toNat ∧ (regRead s 0x2C).toNat = s.errCode.toNat ∧ regRead s 0x30 = s.errInfo ∧
      regRead s 0x34 = s.cmdCount ∧ (regRead s 0x40).toNat = s.imgWidth.toNat ∧
      (regRead s 0x44).toNat = s.imgHeight.toNat ∧ (regRead s 0x48).toNat = s.imgCols32.toNat ∧
      (regRead s 0x4C).toNat = s.rowY.toNat ∧ (regRead s 0x50).toNat = s.cycleRows.toNat ∧
      (regRead s 0x54).toNat = s.featCount.toNat ∧ regRead s 0x58 = s.fmemUsed ∧ regRead s 0x5C = s.candCount ∧
      (regRead s 0x60).toNat = s.pixCount.toNat ∧ (regRead s 0x64).toNat = s.load.r.toNat ∧
      (regRead s 0x70).toNat = s.resX.toNat ∧ (regRead s 0x74).toNat = s.resY.toNat ∧
      (regRead s 0x78).toNat = s.resFeat.toNat ∧ (regRead s 0x7C).toNat = s.resDim.toNat ∧
      (regRead s 0x80).toNat = s.featSel.toNat) ∧
    ∀ off, off ∉ [0x00, 0x04, 0x08, 0x0C, 0x10, 0x14, 0x20, 0x24, 0x2C, 0x30, 0x34, 0x40, 0x44, 0x48, 0x4C, 0x50, 0x54,
      0x58, 0x5C, 0x60, 0x64, 0x70, 0x74, 0x78, 0x7C, 0x80, 0x84, 0x88, 0x8C] → regRead s off = 0#32

/-- STATUS, bit by bit, and the interrupt output, which is STATUS.IRQ (10_state.md R27, R31, 60_exceptions.md R290). That IDLE is an
empty FIFO is the model's inference (log 17): R27 adds that no command is executing, and a command is one step (30_encoding.md R118). -/
def Obligations.StatusBits : Prop :=
  ∀ s : State,
    ((regRead s 0x24).extractLsb' 0 3 = 0#3 ↔ s.phase = .config) ∧
    ((regRead s 0x24).extractLsb' 0 3 = 1#3 ↔ s.phase = .loading) ∧
    ((regRead s 0x24).extractLsb' 0 3 = 2#3 ↔ s.phase = .scanning) ∧
    ((regRead s 0x24).extractLsb' 0 3 = 4#3 ↔ s.phase = .found) ∧
    ((regRead s 0x24).extractLsb' 0 3 = 5#3 ↔ s.phase = .exhausted) ∧
    ((regRead s 0x24).extractLsb' 0 3 = 7#3 ↔ s.phase = .error) ∧
    ((regRead s 0x24).getLsbD 3 = true ↔ s.phase = .found ∨ s.phase = .exhausted ∨ s.phase = .error) ∧
    ((regRead s 0x24).getLsbD 4 = true ↔ s.fifo = []) ∧
    ((regRead s 0x24).getLsbD 5 = true ↔ ∃ h, s.parse = .payload h) ∧
    (regRead s 0x24).getLsbD 6 = irqLine s ∧
    (irqLine s = true ↔ s.irqEn = true ∧ (s.phase = .found ∨ s.phase = .exhausted ∨ s.phase = .error)) ∧
    ((regRead s 0x24).getLsbD 7 = true ↔ s.fifo.length = s.cfg.cmdFifoDepth) ∧
    (regRead s 0x24).extractLsb' 8 24 = 0#24

/-- The descriptor window shows the selected committed feature, field by field, and reads 0 for any other id (10_state.md R58). -/
def Obligations.DescriptorWindow : Prop :=
  ∀ s : State,
    (s.featSel.toNat < s.featCount.toNat →
      (regRead s 0x84).getLsbD 31 = true ∧
      (regRead s 0x84).extractLsb' 24 7 = (descRead s s.featSel.toNat).cols32 ∧
      (regRead s 0x84).extractLsb' 12 12 = (descRead s s.featSel.toNat).rows ∧
      (regRead s 0x84).extractLsb' 0 12 = (descRead s s.featSel.toNat).cols ∧
      regRead s 0x88 = (descRead s s.featSel.toNat).sig ∧ regRead s 0x8C = (descRead s s.featSel.toNat).base) ∧
    (s.featCount.toNat ≤ s.featSel.toNat → regRead s 0x84 = 0#32 ∧ regRead s 0x88 = 0#32 ∧ regRead s 0x8C = 0#32)

/-! ## Every command -/

/-- No command, SOFT_RESET included, writes the configuration, CTRL, PARSE, the FIFO, CMD_COUNT, FEAT_SEL, the host or its schedule
(70_reset_and_hazards.md R321, 20_memory.md R97). -/
def Obligations.CommandsLeaveInterface : Prop :=
  ∀ (i : Instr) (s t : State), exec i s = .next t → SameInterface s t

/-- Each memory is written only by the commands that 20_memory.md R80 names for it (SOFT_RESET apart, after which their contents
are unspecified): every word of the others reads as before. -/
def Obligations.SpacesWrittenOnlyByTheirCommands : Prop :=
  ∀ (i : Instr) (s t : State), exec i s = .next t → i ≠ .softReset →
    ((∀ n p, i ≠ .pixels n p) → ∀ k, stageRead t k = stageRead s k) ∧
    (i ≠ .scanStart → i ≠ .rowEnd ∨ s.phase ≠ .scanning → ∀ x, sigRead t x = sigRead s x) ∧
    (i ≠ .featEnd → ∀ f, descRead t f = descRead s f) ∧
    (i ≠ .rowEnd ∨ s.phase ≠ .loading → ∀ a, fmRead t a = fmRead s a) ∧
    (i ≠ .rowEnd ∨ s.phase ≠ .scanning → ∀ line c, rbRead t line c = rbRead s line c)

/-- In a terminal phase every command but SOFT_RESET is discarded: it completes and changes nothing, malformed or not
(30_encoding.md R116 step 1, 60_exceptions.md R288). -/
def Obligations.TerminalPhaseDiscards : Prop :=
  ∀ (i : Instr) (s : State), (s.phase = .found ∨ s.phase = .exhausted ∨ s.phase = .error) → i ≠ .softReset →
    exec i s = .next s

/-- A well-formed command outside its legal phases raises ILLEGAL_PHASE before any check of its own, and changes nothing else
(30_encoding.md R113, R116 step 4, 60_exceptions.md R286). -/
def Obligations.IllegalPhaseRaises : Prop :=
  ∀ (i : Instr) (s : State), (s.phase = .config ∨ s.phase = .loading ∨ s.phase = .scanning) → i.wellFormed = true →
    legalIn i s.phase = false →
    exec i s = .next { s with phase := .error, errCode := 0x42#8, errInfo := headerOf i }

/-- The phase changes only along the transitions of 10_state.md R31, each by the command the rule names. -/
def Obligations.PhaseTransitions : Prop :=
  (∀ (i : Instr) (s t : State), exec i s = .next t →
    t.phase = s.phase ∨
    (s.phase = .config ∧ t.phase = .loading ∧ ∃ rows cols, i = .featBegin rows cols) ∨
    (s.phase = .loading ∧ t.phase = .config ∧ i = .featEnd) ∨
    (s.phase = .config ∧ t.phase = .scanning ∧ i = .scanStart) ∨
    (s.phase = .config ∧ t.phase = .exhausted ∧ i = .scanStart ∧ s.imgHeight = 0) ∨
    (s.phase = .scanning ∧ t.phase = .found ∧ i = .rowEnd) ∨
    (s.phase = .scanning ∧ t.phase = .exhausted ∧ i = .rowEnd) ∨
    (isTerminal s.phase = false ∧ t.phase = .error) ∨
    (t.phase = .config ∧ i = .softReset)) ∧
  (∀ (s t : State) (ms : List Move), HostTurn s ms → step s = .next t →
    t.phase = s.phase ∨
    (t.phase = .config ∧ ∃ v hs, s.host = .write (s.cfg.baseAddr + 0x20) 4 v :: hs ∧ v.getLsbD 1 = true))

/-- Errors are precise: a command that enters ERROR changes PHASE, ERR_CODE and ERR_INFO alone, ERR_INFO holds its header, and
ERR_CODE is one of the codes of 60_exceptions.md R281 (R284, R285). -/
def Obligations.ErrorsArePrecise : Prop :=
  ∀ (i : Instr) (s t : State), exec i s = .next t → t.phase = .error → s.phase ≠ .error →
    t = { s with phase := .error, errCode := t.errCode, errInfo := headerOf i } ∧
    t.errCode ∈ [0x01#8, 0x10#8, 0x11#8, 0x12#8, 0x13#8, 0x14#8, 0x15#8, 0x20#8, 0x30#8, 0x31#8, 0x41#8, 0x42#8]

/-! ## Invariants -/

/-- The state after hardware reset satisfies the invariant, and its descriptors hold their signatures, for every legal configuration
(10_state.md R23, 70_reset_and_hazards.md R323). -/
def Obligations.InvariantAtReset : Prop :=
  (∀ cfg : Config, cfg.Legal → Inv (State.resetWith cfg) ∧ SignatureInv (State.resetWith cfg)) ∧ Inv State.reset

/-- From every state of the invariant a step answers a next state, again in the invariant: no step faults, no FIFO word is lost
beyond its depth, no internal access leaves its space (10_state.md R31 to R58, 42_feature.md R191, 44_scan_engine.md R247). -/
def Obligations.StepKeepsInvariant : Prop :=
  ∀ s : State, Inv s → ∃ t, step s = .next t ∧ Inv t

/-- Every step keeps the signature of each committed feature equal to that of its stored rows (10_state.md R40, 42_feature.md R193). -/
def Obligations.StepKeepsSignatures : Prop :=
  ∀ s t : State, Inv s → SignatureInv s → step s = .next t → SignatureInv t

/-- A committed feature is never changed by a command other than SOFT_RESET: not its descriptor, not a word of its matrix
(10_state.md R40, R41). -/
def Obligations.CommittedFeaturesStay : Prop :=
  ∀ (i : Instr) (s t : State), Inv s → exec i s = .next t → i ≠ .softReset →
    s.featCount.toNat ≤ t.featCount.toNat ∧
    ∀ f, f < s.featCount.toNat →
      descRead t f = descRead s f ∧
      ∀ r, r < (descRead s f).rows.toNat → ∀ k, k < (descRead s f).cols32.toNat →
        featureWord t (descRead t f) r k = featureWord s (descRead s f) r k

/-! ## Resets -/

/-- Hardware reset: every register at the value of 70_reset_and_hazards.md R323, whatever the state; the host and the schedule go on
(the model's choice, log 7). -/
def Obligations.HardResetState : Prop :=
  ∀ (s : State) (ms : List Move), s.schedule = .hardReset :: ms →
    ∃ t, step s = .next t ∧ SoftResetDone t ∧ t.irqEn = false ∧ t.parse = .header ∧ t.fifo = [] ∧ t.cmdCount = 0 ∧
      t.featSel = 0 ∧ t.cfg = s.cfg ∧ t.host = s.host ∧ t.response = s.response ∧ t.schedule = ms ∧ irqLine t = false

/-- SOFT_RESET completes in every phase, leaves the registers of 70_reset_and_hazards.md R321 at 0 and PHASE at CONFIG, and keeps
CTRL, CMD_COUNT, FEAT_SEL, the FIFO and PARSE (40_control.md R141). -/
def Obligations.SoftResetState : Prop :=
  ∀ s : State, ∃ t, exec .softReset s = .next t ∧ SoftResetDone t ∧ SameInterface s t ∧ irqLine t = false

/-- A CTRL write with bit 1 set empties the FIFO, drops a pending PIXELS header, writes IRQ_EN from bit 0 and soft-resets, keeping
CMD_COUNT and FEAT_SEL (70_reset_and_hazards.md R322, 40_control.md R152). -/
def Obligations.SrstState : Prop :=
  ∀ (s : State) (v : Word) (hs : List HostAccess) (ms : List Move),
    HostTurn s ms → s.host = .write (s.cfg.baseAddr + 0x20) 4 v :: hs → v.getLsbD 1 = true →
    ∃ t, step s = .next t ∧ SoftResetDone t ∧ t.irqEn = v.getLsbD 0 ∧ t.parse = .header ∧ t.fifo = [] ∧
      t.cmdCount = s.cmdCount ∧ t.featSel = s.featSel ∧ t.cfg = s.cfg ∧ t.host = hs ∧ t.schedule = ms ∧
      t.response = some .done ∧ irqLine t = false

/-- What the host reads after hardware reset: CTRL 0, STATUS 0x00000010, and 0 at every offset above STATUS (10_state.md R23). -/
def Obligations.AfterResetReads : Prop :=
  ∀ cfg : Config, cfg.Legal →
    regRead (State.resetWith cfg) 0x20 = 0#32 ∧ regRead (State.resetWith cfg) 0x24 = 0x00000010#32 ∧
    ∀ off, 0x28 ≤ off → regRead (State.resetWith cfg) off = 0#32

/-! ## Control commands -/

/-- NOP completes in every phase and changes nothing (40_control.md R140). -/
def Obligations.NopDoesNothing : Prop := ∀ s : State, exec .nop s = .next s

/-- SET_WIDTH in CONFIG: IMG_WIDTH and IMG_COLS32 up to MAX_WIDTH, STREAM_TOO_WIDE above it (40_control.md R142). -/
def Obligations.SetWidthSetsOrRaises : Prop :=
  ∀ (val : BitVec 24) (s : State), s.phase = .config →
    (val.toNat ≤ s.cfg.maxWidth →
      ∃ t, exec (.setWidth val) s = .next t ∧ t.imgWidth = val ∧ t.imgCols32.toNat = val.toNat / 32 ∧
        t = { s with imgWidth := t.imgWidth, imgCols32 := t.imgCols32 }) ∧
    (s.cfg.maxWidth < val.toNat →
      exec (.setWidth val) s = .next { s with phase := .error, errCode := 0x20#8, errInfo := 0x02000000#32 ||| val.setWidth 32 })

/-- SET_HEIGHT in CONFIG writes IMG_HEIGHT and nothing else, for every value (40_control.md R143). -/
def Obligations.SetHeightSets : Prop :=
  ∀ (val : BitVec 24) (s : State), s.phase = .config → exec (.setHeight val) s = .next { s with imgHeight := val }

/-! ## The row codec -/

/-- PIXELS that fit the row: the count grows by N, the accumulator takes the pixels in from the right, the one word they may complete
is stored with its first pixel in bit 31, and nothing else changes (41_row_codec.md R170, R171). -/
def Obligations.PixelsEnterTheRow : Prop :=
  ∀ (n : BitVec 6) (p : Word) (s : State), (s.phase = .loading ∨ s.phase = .scanning) → 1 ≤ n.toNat → n.toNat ≤ 32 →
    s.pixCount.toNat + n.toNat ≤ rowLen s → rowWords s ≤ s.cfg.stageWords →
    ∃ t, exec (.pixels n p) s = .next t ∧
      t = { s with pixCount := t.pixCount, acc := t.acc, stage := t.stage } ∧
      t.pixCount.toNat = s.pixCount.toNat + n.toNat ∧
      (∀ b, b < 32 →
        t.acc.getLsbD b = if b < n.toNat then pixelOf p (n.toNat - 1 - b) else s.acc.getLsbD (b - n.toNat)) ∧
      ∀ k, if k = s.pixCount.toNat / 32 ∧ 32 ≤ s.pixCount.toNat % 32 + n.toNat ∧ k < rowWords s then
          ∀ b, b < 32 → (stageRead t k).getLsbD b =
            if b < 32 - s.pixCount.toNat % 32 then pixelOf p (31 - s.pixCount.toNat % 32 - b)
            else s.acc.getLsbD (b - (32 - s.pixCount.toNat % 32))
        else stageRead t k = stageRead s k

/-- PIXELS with N = 0 or N > 32 raises ILLEGAL_OPERAND in every working phase; one that would overrun the row raises the row-length
error of its phase, before any pixel enters (30_encoding.md R119, 41_row_codec.md R171). -/
def Obligations.PixelsErrors : Prop :=
  ∀ (n : BitVec 6) (p : Word) (s : State),
    ((s.phase = .config ∨ s.phase = .loading ∨ s.phase = .scanning) → n.toNat = 0 ∨ 32 < n.toNat →
      exec (.pixels n p) s =
        .next { s with phase := .error, errCode := 0x41#8, errInfo := 0x20000000#32 ||| n.setWidth 32 }) ∧
    (1 ≤ n.toNat → n.toNat ≤ 32 →
      (s.phase = .loading → s.load.cols.toNat < s.pixCount.toNat + n.toNat →
        exec (.pixels n p) s =
          .next { s with phase := .error, errCode := 0x14#8, errInfo := 0x20000000#32 ||| n.setWidth 32 }) ∧
      (s.phase = .scanning → s.imgWidth.toNat < s.pixCount.toNat + n.toNat →
        exec (.pixels n p) s =
          .next { s with phase := .error, errCode := 0x30#8, errInfo := 0x20000000#32 ||| n.setWidth 32 }))

/-- The payload bits below the N used have no effect whatever their value (30_encoding.md R114). -/
def Obligations.PayloadTailIgnored : Prop :=
  ∀ (n : BitVec 6) (p q : Word) (s : State),
    (∀ b, b < 32 → 32 ≤ b + n.toNat → p.getLsbD b = q.getLsbD b) → exec (.pixels n p) s = exec (.pixels n q) s

/-- However a row is split into PIXELS commands, they leave `STAGE[k] = Pack(b, W)[k]` for every word kept, store no other STAGE
word, and change nothing outside ACC, PIX_COUNT and STAGE; ROW_END then leaves STAGE as it is (41_row_codec.md R173). -/
def Obligations.RowCodecPacksTheRow : Prop :=
  ∀ (s : State) (cmds : List (BitVec 6 × Word)), (s.phase = .loading ∨ s.phase = .scanning) → s.pixCount = 0 →
    rowWords s = rowLen s / 32 → rowWords s ≤ s.cfg.stageWords →
    (∀ c, c ∈ cmds → 1 ≤ c.1.toNat ∧ c.1.toNat ≤ 32) →
    (cmds.flatMap fun c => payloadPixels c.1.toNat c.2).length = rowLen s →
    ∃ t, execAll (cmds.map fun c => .pixels c.1 c.2) s = .next t ∧
      t = { s with pixCount := t.pixCount, acc := t.acc, stage := t.stage } ∧ t.pixCount.toNat = rowLen s ∧
      (∀ k, k < rowLen s / 32 →
        (stageRead t k).toNat = ((List.range 32).map fun i =>
          ((cmds.flatMap fun c => payloadPixels c.1.toNat c.2).getD (32 * k + i) false).toNat * 2 ^ (31 - i)).sum) ∧
      (∀ k, rowLen s / 32 ≤ k → stageRead t k = stageRead s k) ∧
      ∀ u, exec .rowEnd t = .next u → ∀ k, stageRead u k = stageRead t k

/-- ROW_END of a row of the wrong length raises the row-length error of its phase; in LOADING a complete row beyond the feature's
rows raises LOAD_ROW_COUNT (41_row_codec.md R172, 42_feature.md R191, 60_exceptions.md R286). -/
def Obligations.RowEndErrors : Prop :=
  ∀ s : State,
    (s.phase = .loading → s.pixCount.toNat ≠ s.load.cols.toNat →
      exec .rowEnd s = .next { s with phase := .error, errCode := 0x14#8, errInfo := 0x21000000#32 }) ∧
    (s.phase = .scanning → s.pixCount.toNat ≠ s.imgWidth.toNat →
      exec .rowEnd s = .next { s with phase := .error, errCode := 0x30#8, errInfo := 0x21000000#32 }) ∧
    (s.phase = .loading → s.pixCount.toNat = s.load.cols.toNat → s.load.r = s.load.rows →
      exec .rowEnd s = .next { s with phase := .error, errCode := 0x15#8, errInfo := 0x21000000#32 })

/-! ## Features -/

/-- FEAT_BEGIN in CONFIG with legal dimensions and room starts loading at FMEM_USED and writes nothing else (42_feature.md R190). -/
def Obligations.FeatBeginStartsLoading : Prop :=
  ∀ (rows cols : BitVec 12) (s : State), s.phase = .config → 1 ≤ rows.toNat → rows.toNat ≤ s.cfg.maxFeatRows →
    1 ≤ cols.toNat / 32 → cols.toNat / 32 ≤ s.cfg.maxFeatCols32 → s.featCount.toNat ≠ s.cfg.maxFeatures →
    s.fmemUsed.toNat + rows.toNat * (cols.toNat / 32) ≤ s.cfg.featMemWords →
    ∃ t, exec (.featBegin rows cols) s = .next t ∧
      t = { s with load := t.load, pixCount := 0, acc := 0, phase := .loading } ∧
      t.load.rows = rows ∧ t.load.cols = cols ∧ t.load.cols32.toNat = cols.toNat / 32 ∧ t.load.base = s.fmemUsed ∧
      t.load.r = 0

/-- FEAT_BEGIN's errors, in the order of 42_feature.md R190: BAD_DIMS, TOO_LARGE, TABLE_FULL, MEM_FULL. -/
def Obligations.FeatBeginErrorsInOrder : Prop :=
  ∀ (rows cols : BitVec 12) (s : State), s.phase = .config →
    (rows.toNat = 0 ∨ cols.toNat / 32 = 0 ∨ s.cfg.maxFeatRows < rows.toNat ∨ s.cfg.maxFeatCols32 < cols.toNat / 32 ∨
      s.featCount.toNat = s.cfg.maxFeatures ∨
      s.cfg.featMemWords < s.fmemUsed.toNat + rows.toNat * (cols.toNat / 32)) →
    exec (.featBegin rows cols) s = .next
      { s with
        phase := .error
        errInfo := 0x10000000#32 ||| (rows.setWidth 32 <<< 12) ||| cols.setWidth 32
        errCode :=
          if rows.toNat = 0 ∨ cols.toNat / 32 = 0 then 0x10#8
          else if s.cfg.maxFeatRows < rows.toNat ∨ s.cfg.maxFeatCols32 < cols.toNat / 32 then 0x11#8
          else if s.featCount.toNat = s.cfg.maxFeatures then 0x12#8
          else 0x13#8 }

/-- ROW_END in LOADING stores the row's words at `L.base + L.r × L.cols32`, counts the row and clears PIX_COUNT and ACC; every other
word of FM and everything else is unchanged (42_feature.md R191, 41_row_codec.md R172). Where no run reaches, the 12-bit `L.r` wraps
(the model's inference, log 18). -/
def Obligations.RowEndCommitsFeatureRow : Prop :=
  ∀ s : State, s.phase = .loading → s.pixCount.toNat = s.load.cols.toNat → s.load.r ≠ s.load.rows →
    s.load.cols32.toNat ≤ s.cfg.stageWords →
    s.load.base.toNat + s.load.r.toNat * s.load.cols32.toNat + s.load.cols32.toNat ≤ s.cfg.featMemWords →
    ∃ t, exec .rowEnd s = .next t ∧
      t = { s with fm := t.fm, load := { s.load with r := s.load.r + 1 }, pixCount := 0, acc := 0 } ∧
      ∀ a, fmRead t a =
        if s.load.base.toNat + s.load.r.toNat * s.load.cols32.toNat ≤ a ∧
            a < s.load.base.toNat + s.load.r.toNat * s.load.cols32.toNat + s.load.cols32.toNat then
          stageRead s (a - (s.load.base.toNat + s.load.r.toNat * s.load.cols32.toNat))
        else fmRead s a

/-- FEAT_END of a complete feature writes descriptor FEAT_COUNT, counts the feature and its words, and returns to CONFIG; every other
descriptor and everything else is unchanged (42_feature.md R192). -/
def Obligations.FeatEndCommits : Prop :=
  ∀ s : State, Inv s → s.phase = .loading → s.pixCount = 0 → s.load.r = s.load.rows →
    ∃ t, exec .featEnd s = .next t ∧
      t = { s with desc := t.desc, featCount := t.featCount, fmemUsed := t.fmemUsed, phase := .config } ∧
      t.featCount.toNat = s.featCount.toNat + 1 ∧
      t.fmemUsed.toNat = s.fmemUsed.toNat + s.load.rows.toNat * s.load.cols32.toNat ∧
      ∀ f, descRead t f =
        if f = s.featCount.toNat then
          { rows := s.load.rows, cols := s.load.cols, cols32 := s.load.cols32, base := s.load.base,
            sig := featureSignature s }
        else descRead s f

/-- FEAT_END with a partial row raises LOAD_ROW_LENGTH, before LOAD_ROW_COUNT for a wrong number of rows (42_feature.md R192,
60_exceptions.md R286). -/
def Obligations.FeatEndErrors : Prop :=
  ∀ s : State, s.phase = .loading →
    (s.pixCount ≠ 0 →
      exec .featEnd s = .next { s with phase := .error, errCode := 0x14#8, errInfo := 0x11000000#32 }) ∧
    (s.pixCount = 0 → s.load.r ≠ s.load.rows →
      exec .featEnd s = .next { s with phase := .error, errCode := 0x15#8, errInfo := 0x11000000#32 })

/-- Bit `i` of the feature signature is feature pixel `(rows − 1 − i, 0)`, and 0 from `rows` on (42_feature.md R193). -/
def Obligations.FeatureSignatureBits : Prop :=
  ∀ (s : State) (i : Nat), i < 32 →
    (featureSignature s).getLsbD i =
      if i < s.load.rows.toNat then
        pixelOf (fmRead s (s.load.base.toNat + (s.load.rows.toNat - 1 - i) * s.load.cols32.toNat)) 0
      else false

/-- The comparator in pixel terms: both guards of 42_feature.md R194, and every pixel of the window equal to the feature's (R196). -/
def Obligations.MatchesPixelwise : Prop :=
  ∀ (s : State) (f o c y : Nat), o < 32 →
    (matchesAt s f o c y = true ↔
      (descRead s f).rows.toNat ≤ y + 1 ∧
      c + (descRead s f).cols32.toNat + (if 0 < o then 1 else 0) ≤ s.imgCols32.toNat ∧
      ∀ r, r < (descRead s f).rows.toNat → ∀ j, j < 32 * (descRead s f).cols32.toNat →
        bufferPixel s ((y + 1 + r - (descRead s f).rows.toNat) % s.cycleRows.toNat) (32 * c + o + j) =
          featurePixel s (descRead s f) r j)

/-! ## The scan -/

/-- SCAN_START in CONFIG: CYCLE_ROWS is the tallest feature's height, every SIG register is 0, the scan's counters are 0, and the scan
runs, or is EXHAUSTED for height 0; with no feature it raises USAGE_NO_FEATURES (44_scan_engine.md R240, 10_state.md R38; that the
registers beyond the image's width are cleared too is R38's reading, log 19). -/
def Obligations.ScanStartBegins : Prop :=
  ∀ s : State, s.phase = .config →
    (s.featCount ≠ 0 → s.featCount.toNat ≤ s.cfg.maxFeatures → s.imgCols32.toNat ≤ s.cfg.maxCols32 →
      ∃ t, exec .scanStart s = .next t ∧
        t = { s with
          cycleRows := t.cycleRows, sig := t.sig, rowY := 0, pixCount := 0, acc := 0, candCount := 0
          phase := if s.imgHeight = 0 then .exhausted else .scanning } ∧
        (∀ f, f < s.featCount.toNat → (descRead s f).rows.toNat ≤ t.cycleRows.toNat) ∧
        (∃ f, f < s.featCount.toNat ∧ t.cycleRows = (descRead s f).rows) ∧
        (∀ x, sigRead t x = if x < 32 * s.cfg.maxCols32 then 0#32 else sigRead s x) ∧
        ∀ img, Scanned img t) ∧
    (s.featCount = 0 →
      exec .scanStart s = .next { s with phase := .error, errCode := 0x01#8, errInfo := 0x30000000#32 })

/-- The candidates of a row: exactly the positions and features that the index and the two conditions of 44_scan_engine.md R243 admit,
in increasing position and, at one position, increasing feature id (43_feature_index.md R221, R222). -/
def Obligations.CandidatesInOrder : Prop :=
  ∀ s : State,
    (∀ k, k ∈ candidates s ↔
      k.c < s.imgCols32.toNat ∧ k.o < 32 ∧ k.f < s.featCount.toNat ∧
      (descRead s k.f).sig = sigRead s (32 * k.c + k.o) ∧ (descRead s k.f).rows.toNat ≤ s.rowY.toNat + 1 ∧
      k.c + (descRead s k.f).cols32.toNat < s.imgCols32.toNat) ∧
    (candidates s).Pairwise fun k k' =>
      32 * k.c + k.o < 32 * k'.c + k'.o ∨ (32 * k.c + k.o = 32 * k'.c + k'.o ∧ k.f < k'.f)

/-- ROW_END of a complete row in SCANNING completes: the row is stored in line `y mod CYCLE_ROWS`, every signature of the image takes
its pixel in, PIX_COUNT and ACC are cleared, and only the registers of 41_row_codec.md R172 change (44_scan_engine.md R241, R242). -/
def Obligations.RowEndScansTheRow : Prop :=
  ∀ s : State, Inv s → s.phase = .scanning → s.pixCount = s.imgWidth →
    ∃ t, exec .rowEnd s = .next t ∧
      t = { s with
        rb := t.rb, sig := t.sig, candCount := t.candCount, rowY := t.rowY, phase := t.phase
        resX := t.resX, resY := t.resY, resFeat := t.resFeat, resDim := t.resDim, pixCount := 0, acc := 0 } ∧
      (∀ line, line < s.cfg.maxFeatRows → ∀ c, c < s.cfg.maxCols32 →
        rbRead t line c =
          if line = s.rowY.toNat % s.cycleRows.toNat ∧ c < s.imgCols32.toNat then stageRead s c
          else rbRead s line c) ∧
      ∀ x, if x < 32 * s.imgCols32.toNat then
          ∀ b, b < 32 → (sigRead t x).getLsbD b =
            if b = 0 then (stageRead s (x / 32)).getLsbD (31 - x % 32) else (sigRead s x).getLsbD (b - 1)
        else sigRead t x = sigRead s x

/-- A scan row reports the first match, in increasing position and then feature id, with the registers of 44_scan_engine.md R243, and
goes no further; with no match it advances, and is EXHAUSTED after the last row (R243, R244, R246). In states that no run reaches the
24-bit RES_Y and ROW_Y wrap (the model's inference, log 18). -/
def Obligations.RowEndReportsFirstMatch : Prop :=
  ∀ s t : State, s.phase = .scanning → s.pixCount = s.imgWidth → exec .rowEnd s = .next t →
    ((∃ c o f, MatchesHere (searchState s) c o f) →
      ∃ c o f, MatchesHere (searchState s) c o f ∧
        (∀ c' o' f', MatchesHere (searchState s) c' o' f' →
          32 * c + o < 32 * c' + o' ∨ (32 * c + o = 32 * c' + o' ∧ f ≤ f')) ∧
        t.phase = .found ∧ t.resX.toNat = 32 * c + o ∧
        t.resY = BitVec.ofNat 24 (s.rowY.toNat + 1 - (descRead s f).rows.toNat) ∧ t.resFeat.toNat = f ∧
        t.resDim = ((descRead s f).rows.setWidth 24 <<< 12) ||| (descRead s f).cols.setWidth 24 ∧ t.rowY = s.rowY) ∧
    ((¬∃ c o f, MatchesHere (searchState s) c o f) →
      t.rowY = s.rowY + 1 ∧ t.phase = (if s.rowY + 1 = s.imgHeight then .exhausted else .scanning) ∧
      t.resX = s.resX ∧ t.resY = s.resY ∧ t.resFeat = s.resFeat ∧ t.resDim = s.resDim)

/-- CAND_COUNT grows by the number of comparisons made, the successful one included, and saturates (10_state.md R54). -/
def Obligations.CandidateCountSaturates : Prop :=
  ∀ s t : State, s.phase = .scanning → s.pixCount = s.imgWidth → exec .rowEnd s = .next t →
    t.candCount.toNat = min (2 ^ 32 - 1)
      (s.candCount.toNat +
        ((candidates (searchState s)).takeWhile fun k =>
          !matchesAt (searchState s) k.f k.o k.c s.rowY.toNat).length +
        (if t.phase = .found then 1 else 0))

/-- Through a scan, RB holds the last CYCLE_ROWS rows of the image and SIG its last 32 pixels per column: a ROW_END that finds no
match keeps both for the next row (10_state.md R38, R42, 44_scan_engine.md R241, R242). -/
def Obligations.RowEndKeepsTheHistory : Prop :=
  ∀ (img : Nat → Nat → Bool) (s t : State), Inv s → s.phase = .scanning → s.pixCount = s.imgWidth → Scanned img s →
    RowStaged img s → exec .rowEnd s = .next t → t.phase ≠ .found → Scanned img t

/-- The scan makes no false report: the image shows the reported feature, pixel for pixel, where it is reported, with its bottom row
on the row just completed (44_scan_engine.md R249). -/
def Obligations.NoFalseReport : Prop :=
  ∀ (img : Nat → Nat → Bool) (s t : State), Inv s → s.phase = .scanning → s.pixCount = s.imgWidth → Scanned img s →
    RowStaged img s → exec .rowEnd s = .next t → t.phase = .found →
    t.resFeat.toNat < s.featCount.toNat ∧
    t.resY.toNat + (descRead s t.resFeat.toNat).rows.toNat = s.rowY.toNat + 1 ∧
    t.resDim =
      ((descRead s t.resFeat.toNat).rows.setWidth 24 <<< 12) ||| (descRead s t.resFeat.toNat).cols.setWidth 24 ∧
    Shows img s (descRead s t.resFeat.toNat) t.resX.toNat t.resY.toNat

/-- A verbatim occurrence of a feature is reported as `(x, y, f)` by the row that completes it, unless an earlier match of that row is,
when it lies within the exclusive column bound and is at least 32 rows tall or has zeros above it in its left column
(44_scan_engine.md R250, 43_feature_index.md R225). -/
def Obligations.VerbatimOccurrenceReported : Prop :=
  ∀ (img : Nat → Nat → Bool) (s : State) (x y f : Nat), Inv s → SignatureInv s → s.phase = .scanning →
    s.pixCount = s.imgWidth → Scanned img s → RowStaged img s → f < s.featCount.toNat →
    y + (descRead s f).rows.toNat = s.rowY.toNat + 1 → x / 32 + (descRead s f).cols32.toNat < s.imgCols32.toNat →
    Shows img s (descRead s f) x y →
    (32 ≤ (descRead s f).rows.toNat ∨
      ∀ i, i < min 32 (s.rowY.toNat + 1) - (descRead s f).rows.toNat → img (y - 1 - i) x = false) →
    ∃ t, exec .rowEnd s = .next t ∧ t.phase = .found ∧
      (t.resX.toNat = x ∧ t.resY.toNat = y ∧ t.resFeat.toNat = f ∨
        t.resX.toNat < x ∨ (t.resX.toNat = x ∧ t.resFeat.toNat < f))

/-- A feature taller than the image, or as wide as the image or wider, is never a candidate and never reported; one that is one word
narrower is a candidate in column 0 alone (44_scan_engine.md R248). -/
def Obligations.TooLargeNeverReported : Prop :=
  ∀ s : State, Inv s → s.phase = .scanning →
    (∀ k, k ∈ candidates (searchState s) →
      (descRead s k.f).rows.toNat ≤ s.imgHeight.toNat ∧ (descRead s k.f).cols32.toNat < s.imgCols32.toNat ∧
      ((descRead s k.f).cols32.toNat + 1 = s.imgCols32.toNat → k.c = 0)) ∧
    ∀ t, exec .rowEnd s = .next t → t.phase = .found →
      (descRead s t.resFeat.toNat).rows.toNat ≤ s.imgHeight.toNat ∧
      (descRead s t.resFeat.toNat).cols32.toNat < s.imgCols32.toNat

/-- A legal STREAM_END always reports truncation: ERROR with STREAM_TRUNCATED, and no other change (44_scan_engine.md R245). -/
def Obligations.StreamEndTruncates : Prop :=
  ∀ s : State, s.phase = .scanning →
    exec .streamEnd s = .next { s with phase := .error, errCode := 0x31#8, errInfo := 0x22000000#32 }

/-! ## The schedule -/

/-- The result does not depend on the schedule: two runs from one state, with any host accesses but CTRL.SRST and no hardware reset,
that have made every access and consumed every word, agree on everything but the schedule left over and the last answer, and on the
answer too if the host only writes (70_reset_and_hazards.md R341, 44_scan_engine.md R251; the schedule and the answer are the model's
own fields, logs 5 and 6). -/
def Obligations.ScheduleIndependence : Prop :=
  ∀ (s t₁ t₂ : State) (ms₁ ms₂ : List Move) (n₁ n₂ : Nat), NoHardReset ms₁ → NoHardReset ms₂ →
    NoSrst s.cfg s.host →
    core.run n₁ { s with schedule := ms₁ } = .next t₁ → t₁.host = [] → t₁.fifo = [] →
    core.run n₂ { s with schedule := ms₂ } = .next t₂ → t₂.host = [] → t₂.fifo = [] →
    { t₁ with schedule := [], response := none } = { t₂ with schedule := [], response := none } ∧
    (OnlyWrites s.host → t₁.response = t₂.response)

/-- Every stall ends: from every state of the invariant, some number of steps makes every pending access and empties the FIFO, and
without a CTRL.SRST or a hardware reset among them every pending word is consumed, so that CMD_COUNT has grown by their number
(70_reset_and_hazards.md R332, R340; that a schedule is finite, and who moves after it, is the model's choice, log 6). -/
def Obligations.EveryAccessCompletes : Prop :=
  ∀ s : State, Inv s → ∃ n t, core.run n s = .next t ∧ t.host = [] ∧ t.fifo = [] ∧
    (NoHardReset s.schedule → NoSrst s.cfg s.host → t.cmdCount = s.cmdCount + BitVec.ofNat 32 (pendingWords s))
end

