-- ==== Sys2Proof/Laws/State.lean ====
section
/-! SUPPORT. What each named update of State does to each field, one lemma per field, each true by rfl. -/

namespace Sys2Proof.Machine

/-! ## raise -/

@[simp] theorem raise_cfg (e : ErrorCode) (h : Word) (s : State) : (raise e h s).cfg = s.cfg := rfl
@[simp] theorem raise_irqEn (e : ErrorCode) (h : Word) (s : State) : (raise e h s).irqEn = s.irqEn := rfl
@[simp] theorem raise_phase (e : ErrorCode) (h : Word) (s : State) : (raise e h s).phase = .error := rfl
@[simp] theorem raise_parse (e : ErrorCode) (h : Word) (s : State) : (raise e h s).parse = s.parse := rfl
@[simp] theorem raise_fifo (e : ErrorCode) (h : Word) (s : State) : (raise e h s).fifo = s.fifo := rfl
@[simp] theorem raise_cmdCount (e : ErrorCode) (h : Word) (s : State) : (raise e h s).cmdCount = s.cmdCount := rfl
@[simp] theorem raise_errCode (e : ErrorCode) (h : Word) (s : State) : (raise e h s).errCode = errorNumber e := rfl
@[simp] theorem raise_errInfo (e : ErrorCode) (h : Word) (s : State) : (raise e h s).errInfo = h := rfl
@[simp] theorem raise_imgWidth (e : ErrorCode) (h : Word) (s : State) : (raise e h s).imgWidth = s.imgWidth := rfl
@[simp] theorem raise_imgHeight (e : ErrorCode) (h : Word) (s : State) : (raise e h s).imgHeight = s.imgHeight := rfl
@[simp] theorem raise_imgCols32 (e : ErrorCode) (h : Word) (s : State) : (raise e h s).imgCols32 = s.imgCols32 := rfl
@[simp] theorem raise_rowY (e : ErrorCode) (h : Word) (s : State) : (raise e h s).rowY = s.rowY := rfl
@[simp] theorem raise_cycleRows (e : ErrorCode) (h : Word) (s : State) : (raise e h s).cycleRows = s.cycleRows := rfl
@[simp] theorem raise_featCount (e : ErrorCode) (h : Word) (s : State) : (raise e h s).featCount = s.featCount := rfl
@[simp] theorem raise_fmemUsed (e : ErrorCode) (h : Word) (s : State) : (raise e h s).fmemUsed = s.fmemUsed := rfl
@[simp] theorem raise_candCount (e : ErrorCode) (h : Word) (s : State) : (raise e h s).candCount = s.candCount := rfl
@[simp] theorem raise_pixCount (e : ErrorCode) (h : Word) (s : State) : (raise e h s).pixCount = s.pixCount := rfl
@[simp] theorem raise_acc (e : ErrorCode) (h : Word) (s : State) : (raise e h s).acc = s.acc := rfl
@[simp] theorem raise_load (e : ErrorCode) (h : Word) (s : State) : (raise e h s).load = s.load := rfl
@[simp] theorem raise_resX (e : ErrorCode) (h : Word) (s : State) : (raise e h s).resX = s.resX := rfl
@[simp] theorem raise_resY (e : ErrorCode) (h : Word) (s : State) : (raise e h s).resY = s.resY := rfl
@[simp] theorem raise_resFeat (e : ErrorCode) (h : Word) (s : State) : (raise e h s).resFeat = s.resFeat := rfl
@[simp] theorem raise_resDim (e : ErrorCode) (h : Word) (s : State) : (raise e h s).resDim = s.resDim := rfl
@[simp] theorem raise_featSel (e : ErrorCode) (h : Word) (s : State) : (raise e h s).featSel = s.featSel := rfl
@[simp] theorem raise_stage (e : ErrorCode) (h : Word) (s : State) : (raise e h s).stage = s.stage := rfl
@[simp] theorem raise_sig (e : ErrorCode) (h : Word) (s : State) : (raise e h s).sig = s.sig := rfl
@[simp] theorem raise_desc (e : ErrorCode) (h : Word) (s : State) : (raise e h s).desc = s.desc := rfl
@[simp] theorem raise_fm (e : ErrorCode) (h : Word) (s : State) : (raise e h s).fm = s.fm := rfl
@[simp] theorem raise_rb (e : ErrorCode) (h : Word) (s : State) : (raise e h s).rb = s.rb := rfl
@[simp] theorem raise_host (e : ErrorCode) (h : Word) (s : State) : (raise e h s).host = s.host := rfl
@[simp] theorem raise_response (e : ErrorCode) (h : Word) (s : State) : (raise e h s).response = s.response := rfl
@[simp] theorem raise_schedule (e : ErrorCode) (h : Word) (s : State) : (raise e h s).schedule = s.schedule := rfl

/-! ## softReset -/

@[simp] theorem softReset_cfg (s : State) : (softReset s).cfg = s.cfg := rfl
@[simp] theorem softReset_irqEn (s : State) : (softReset s).irqEn = s.irqEn := rfl
@[simp] theorem softReset_phase (s : State) : (softReset s).phase = .config := rfl
@[simp] theorem softReset_parse (s : State) : (softReset s).parse = s.parse := rfl
@[simp] theorem softReset_fifo (s : State) : (softReset s).fifo = s.fifo := rfl
@[simp] theorem softReset_cmdCount (s : State) : (softReset s).cmdCount = s.cmdCount := rfl
@[simp] theorem softReset_errCode (s : State) : (softReset s).errCode = 0 := rfl
@[simp] theorem softReset_errInfo (s : State) : (softReset s).errInfo = 0 := rfl
@[simp] theorem softReset_imgWidth (s : State) : (softReset s).imgWidth = 0 := rfl
@[simp] theorem softReset_imgHeight (s : State) : (softReset s).imgHeight = 0 := rfl
@[simp] theorem softReset_imgCols32 (s : State) : (softReset s).imgCols32 = 0 := rfl
@[simp] theorem softReset_rowY (s : State) : (softReset s).rowY = 0 := rfl
@[simp] theorem softReset_cycleRows (s : State) : (softReset s).cycleRows = 0 := rfl
@[simp] theorem softReset_featCount (s : State) : (softReset s).featCount = 0 := rfl
@[simp] theorem softReset_fmemUsed (s : State) : (softReset s).fmemUsed = 0 := rfl
@[simp] theorem softReset_candCount (s : State) : (softReset s).candCount = 0 := rfl
@[simp] theorem softReset_pixCount (s : State) : (softReset s).pixCount = 0 := rfl
@[simp] theorem softReset_acc (s : State) : (softReset s).acc = 0 := rfl
@[simp] theorem softReset_load (s : State) : (softReset s).load = Load.zero := rfl
@[simp] theorem softReset_resX (s : State) : (softReset s).resX = 0 := rfl
@[simp] theorem softReset_resY (s : State) : (softReset s).resY = 0 := rfl
@[simp] theorem softReset_resFeat (s : State) : (softReset s).resFeat = 0 := rfl
@[simp] theorem softReset_resDim (s : State) : (softReset s).resDim = 0 := rfl
@[simp] theorem softReset_featSel (s : State) : (softReset s).featSel = s.featSel := rfl
@[simp] theorem softReset_stage (s : State) : (softReset s).stage = afterReset s.cfg s.stage := rfl
@[simp] theorem softReset_sig (s : State) : (softReset s).sig = afterReset s.cfg s.sig := rfl
@[simp] theorem softReset_desc (s : State) : (softReset s).desc = afterReset s.cfg s.desc := rfl
@[simp] theorem softReset_fm (s : State) : (softReset s).fm = afterReset s.cfg s.fm := rfl
@[simp] theorem softReset_rb (s : State) : (softReset s).rb = afterReset s.cfg s.rb := rfl
@[simp] theorem softReset_host (s : State) : (softReset s).host = s.host := rfl
@[simp] theorem softReset_response (s : State) : (softReset s).response = s.response := rfl
@[simp] theorem softReset_schedule (s : State) : (softReset s).schedule = s.schedule := rfl

/-! ## srst -/

@[simp] theorem srst_cfg (v : Word) (s : State) : (srst v s).cfg = s.cfg := rfl
@[simp] theorem srst_irqEn (v : Word) (s : State) : (srst v s).irqEn = v.getLsbD 0 := rfl
@[simp] theorem srst_phase (v : Word) (s : State) : (srst v s).phase = .config := rfl
@[simp] theorem srst_parse (v : Word) (s : State) : (srst v s).parse = .header := rfl
@[simp] theorem srst_fifo (v : Word) (s : State) : (srst v s).fifo = [] := rfl
@[simp] theorem srst_cmdCount (v : Word) (s : State) : (srst v s).cmdCount = s.cmdCount := rfl
@[simp] theorem srst_errCode (v : Word) (s : State) : (srst v s).errCode = 0 := rfl
@[simp] theorem srst_errInfo (v : Word) (s : State) : (srst v s).errInfo = 0 := rfl
@[simp] theorem srst_imgWidth (v : Word) (s : State) : (srst v s).imgWidth = 0 := rfl
@[simp] theorem srst_imgHeight (v : Word) (s : State) : (srst v s).imgHeight = 0 := rfl
@[simp] theorem srst_imgCols32 (v : Word) (s : State) : (srst v s).imgCols32 = 0 := rfl
@[simp] theorem srst_rowY (v : Word) (s : State) : (srst v s).rowY = 0 := rfl
@[simp] theorem srst_cycleRows (v : Word) (s : State) : (srst v s).cycleRows = 0 := rfl
@[simp] theorem srst_featCount (v : Word) (s : State) : (srst v s).featCount = 0 := rfl
@[simp] theorem srst_fmemUsed (v : Word) (s : State) : (srst v s).fmemUsed = 0 := rfl
@[simp] theorem srst_candCount (v : Word) (s : State) : (srst v s).candCount = 0 := rfl
@[simp] theorem srst_pixCount (v : Word) (s : State) : (srst v s).pixCount = 0 := rfl
@[simp] theorem srst_acc (v : Word) (s : State) : (srst v s).acc = 0 := rfl
@[simp] theorem srst_load (v : Word) (s : State) : (srst v s).load = Load.zero := rfl
@[simp] theorem srst_resX (v : Word) (s : State) : (srst v s).resX = 0 := rfl
@[simp] theorem srst_resY (v : Word) (s : State) : (srst v s).resY = 0 := rfl
@[simp] theorem srst_resFeat (v : Word) (s : State) : (srst v s).resFeat = 0 := rfl
@[simp] theorem srst_resDim (v : Word) (s : State) : (srst v s).resDim = 0 := rfl
@[simp] theorem srst_featSel (v : Word) (s : State) : (srst v s).featSel = s.featSel := rfl
@[simp] theorem srst_stage (v : Word) (s : State) : (srst v s).stage = afterReset s.cfg s.stage := rfl
@[simp] theorem srst_sig (v : Word) (s : State) : (srst v s).sig = afterReset s.cfg s.sig := rfl
@[simp] theorem srst_desc (v : Word) (s : State) : (srst v s).desc = afterReset s.cfg s.desc := rfl
@[simp] theorem srst_fm (v : Word) (s : State) : (srst v s).fm = afterReset s.cfg s.fm := rfl
@[simp] theorem srst_rb (v : Word) (s : State) : (srst v s).rb = afterReset s.cfg s.rb := rfl
@[simp] theorem srst_host (v : Word) (s : State) : (srst v s).host = s.host := rfl
@[simp] theorem srst_response (v : Word) (s : State) : (srst v s).response = s.response := rfl
@[simp] theorem srst_schedule (v : Word) (s : State) : (srst v s).schedule = s.schedule := rfl

/-! ## hardReset -/

@[simp] theorem hardReset_cfg (s : State) : (hardReset s).cfg = s.cfg := rfl
@[simp] theorem hardReset_irqEn (s : State) : (hardReset s).irqEn = false := rfl
@[simp] theorem hardReset_phase (s : State) : (hardReset s).phase = .config := rfl
@[simp] theorem hardReset_parse (s : State) : (hardReset s).parse = .header := rfl
@[simp] theorem hardReset_fifo (s : State) : (hardReset s).fifo = [] := rfl
@[simp] theorem hardReset_cmdCount (s : State) : (hardReset s).cmdCount = 0 := rfl
@[simp] theorem hardReset_errCode (s : State) : (hardReset s).errCode = 0 := rfl
@[simp] theorem hardReset_errInfo (s : State) : (hardReset s).errInfo = 0 := rfl
@[simp] theorem hardReset_imgWidth (s : State) : (hardReset s).imgWidth = 0 := rfl
@[simp] theorem hardReset_imgHeight (s : State) : (hardReset s).imgHeight = 0 := rfl
@[simp] theorem hardReset_imgCols32 (s : State) : (hardReset s).imgCols32 = 0 := rfl
@[simp] theorem hardReset_rowY (s : State) : (hardReset s).rowY = 0 := rfl
@[simp] theorem hardReset_cycleRows (s : State) : (hardReset s).cycleRows = 0 := rfl
@[simp] theorem hardReset_featCount (s : State) : (hardReset s).featCount = 0 := rfl
@[simp] theorem hardReset_fmemUsed (s : State) : (hardReset s).fmemUsed = 0 := rfl
@[simp] theorem hardReset_candCount (s : State) : (hardReset s).candCount = 0 := rfl
@[simp] theorem hardReset_pixCount (s : State) : (hardReset s).pixCount = 0 := rfl
@[simp] theorem hardReset_acc (s : State) : (hardReset s).acc = 0 := rfl
@[simp] theorem hardReset_load (s : State) : (hardReset s).load = Load.zero := rfl
@[simp] theorem hardReset_resX (s : State) : (hardReset s).resX = 0 := rfl
@[simp] theorem hardReset_resY (s : State) : (hardReset s).resY = 0 := rfl
@[simp] theorem hardReset_resFeat (s : State) : (hardReset s).resFeat = 0 := rfl
@[simp] theorem hardReset_resDim (s : State) : (hardReset s).resDim = 0 := rfl
@[simp] theorem hardReset_featSel (s : State) : (hardReset s).featSel = 0 := rfl
@[simp] theorem hardReset_stage (s : State) : (hardReset s).stage = afterReset s.cfg s.stage := rfl
@[simp] theorem hardReset_sig (s : State) : (hardReset s).sig = afterReset s.cfg s.sig := rfl
@[simp] theorem hardReset_desc (s : State) : (hardReset s).desc = afterReset s.cfg s.desc := rfl
@[simp] theorem hardReset_fm (s : State) : (hardReset s).fm = afterReset s.cfg s.fm := rfl
@[simp] theorem hardReset_rb (s : State) : (hardReset s).rb = afterReset s.cfg s.rb := rfl
@[simp] theorem hardReset_host (s : State) : (hardReset s).host = s.host := rfl
@[simp] theorem hardReset_response (s : State) : (hardReset s).response = s.response := rfl
@[simp] theorem hardReset_schedule (s : State) : (hardReset s).schedule = s.schedule := rfl

/-! ## clearRow -/

@[simp] theorem clearRow_cfg (s : State) : (clearRow s).cfg = s.cfg := rfl
@[simp] theorem clearRow_irqEn (s : State) : (clearRow s).irqEn = s.irqEn := rfl
@[simp] theorem clearRow_phase (s : State) : (clearRow s).phase = s.phase := rfl
@[simp] theorem clearRow_parse (s : State) : (clearRow s).parse = s.parse := rfl
@[simp] theorem clearRow_fifo (s : State) : (clearRow s).fifo = s.fifo := rfl
@[simp] theorem clearRow_cmdCount (s : State) : (clearRow s).cmdCount = s.cmdCount := rfl
@[simp] theorem clearRow_errCode (s : State) : (clearRow s).errCode = s.errCode := rfl
@[simp] theorem clearRow_errInfo (s : State) : (clearRow s).errInfo = s.errInfo := rfl
@[simp] theorem clearRow_imgWidth (s : State) : (clearRow s).imgWidth = s.imgWidth := rfl
@[simp] theorem clearRow_imgHeight (s : State) : (clearRow s).imgHeight = s.imgHeight := rfl
@[simp] theorem clearRow_imgCols32 (s : State) : (clearRow s).imgCols32 = s.imgCols32 := rfl
@[simp] theorem clearRow_rowY (s : State) : (clearRow s).rowY = s.rowY := rfl
@[simp] theorem clearRow_cycleRows (s : State) : (clearRow s).cycleRows = s.cycleRows := rfl
@[simp] theorem clearRow_featCount (s : State) : (clearRow s).featCount = s.featCount := rfl
@[simp] theorem clearRow_fmemUsed (s : State) : (clearRow s).fmemUsed = s.fmemUsed := rfl
@[simp] theorem clearRow_candCount (s : State) : (clearRow s).candCount = s.candCount := rfl
@[simp] theorem clearRow_pixCount (s : State) : (clearRow s).pixCount = 0 := rfl
@[simp] theorem clearRow_acc (s : State) : (clearRow s).acc = 0 := rfl
@[simp] theorem clearRow_load (s : State) : (clearRow s).load = s.load := rfl
@[simp] theorem clearRow_resX (s : State) : (clearRow s).resX = s.resX := rfl
@[simp] theorem clearRow_resY (s : State) : (clearRow s).resY = s.resY := rfl
@[simp] theorem clearRow_resFeat (s : State) : (clearRow s).resFeat = s.resFeat := rfl
@[simp] theorem clearRow_resDim (s : State) : (clearRow s).resDim = s.resDim := rfl
@[simp] theorem clearRow_featSel (s : State) : (clearRow s).featSel = s.featSel := rfl
@[simp] theorem clearRow_stage (s : State) : (clearRow s).stage = s.stage := rfl
@[simp] theorem clearRow_sig (s : State) : (clearRow s).sig = s.sig := rfl
@[simp] theorem clearRow_desc (s : State) : (clearRow s).desc = s.desc := rfl
@[simp] theorem clearRow_fm (s : State) : (clearRow s).fm = s.fm := rfl
@[simp] theorem clearRow_rb (s : State) : (clearRow s).rb = s.rb := rfl
@[simp] theorem clearRow_host (s : State) : (clearRow s).host = s.host := rfl
@[simp] theorem clearRow_response (s : State) : (clearRow s).response = s.response := rfl
@[simp] theorem clearRow_schedule (s : State) : (clearRow s).schedule = s.schedule := rfl

/-! ## setImageWidth -/

@[simp] theorem setImageWidth_cfg (val : BitVec 24) (s : State) : (setImageWidth val s).cfg = s.cfg := rfl
@[simp] theorem setImageWidth_irqEn (val : BitVec 24) (s : State) : (setImageWidth val s).irqEn = s.irqEn := rfl
@[simp] theorem setImageWidth_phase (val : BitVec 24) (s : State) : (setImageWidth val s).phase = s.phase := rfl
@[simp] theorem setImageWidth_parse (val : BitVec 24) (s : State) : (setImageWidth val s).parse = s.parse := rfl
@[simp] theorem setImageWidth_fifo (val : BitVec 24) (s : State) : (setImageWidth val s).fifo = s.fifo := rfl
@[simp] theorem setImageWidth_cmdCount (val : BitVec 24) (s : State) : (setImageWidth val s).cmdCount = s.cmdCount := rfl
@[simp] theorem setImageWidth_errCode (val : BitVec 24) (s : State) : (setImageWidth val s).errCode = s.errCode := rfl
@[simp] theorem setImageWidth_errInfo (val : BitVec 24) (s : State) : (setImageWidth val s).errInfo = s.errInfo := rfl
@[simp] theorem setImageWidth_imgWidth (val : BitVec 24) (s : State) : (setImageWidth val s).imgWidth = val := rfl
@[simp] theorem setImageWidth_imgHeight (val : BitVec 24) (s : State) : (setImageWidth val s).imgHeight = s.imgHeight := rfl
@[simp] theorem setImageWidth_imgCols32 (val : BitVec 24) (s : State) : (setImageWidth val s).imgCols32 = (val >>> 5).setWidth 19 := rfl
@[simp] theorem setImageWidth_rowY (val : BitVec 24) (s : State) : (setImageWidth val s).rowY = s.rowY := rfl
@[simp] theorem setImageWidth_cycleRows (val : BitVec 24) (s : State) : (setImageWidth val s).cycleRows = s.cycleRows := rfl
@[simp] theorem setImageWidth_featCount (val : BitVec 24) (s : State) : (setImageWidth val s).featCount = s.featCount := rfl
@[simp] theorem setImageWidth_fmemUsed (val : BitVec 24) (s : State) : (setImageWidth val s).fmemUsed = s.fmemUsed := rfl
@[simp] theorem setImageWidth_candCount (val : BitVec 24) (s : State) : (setImageWidth val s).candCount = s.candCount := rfl
@[simp] theorem setImageWidth_pixCount (val : BitVec 24) (s : State) : (setImageWidth val s).pixCount = s.pixCount := rfl
@[simp] theorem setImageWidth_acc (val : BitVec 24) (s : State) : (setImageWidth val s).acc = s.acc := rfl
@[simp] theorem setImageWidth_load (val : BitVec 24) (s : State) : (setImageWidth val s).load = s.load := rfl
@[simp] theorem setImageWidth_resX (val : BitVec 24) (s : State) : (setImageWidth val s).resX = s.resX := rfl
@[simp] theorem setImageWidth_resY (val : BitVec 24) (s : State) : (setImageWidth val s).resY = s.resY := rfl
@[simp] theorem setImageWidth_resFeat (val : BitVec 24) (s : State) : (setImageWidth val s).resFeat = s.resFeat := rfl
@[simp] theorem setImageWidth_resDim (val : BitVec 24) (s : State) : (setImageWidth val s).resDim = s.resDim := rfl
@[simp] theorem setImageWidth_featSel (val : BitVec 24) (s : State) : (setImageWidth val s).featSel = s.featSel := rfl
@[simp] theorem setImageWidth_stage (val : BitVec 24) (s : State) : (setImageWidth val s).stage = s.stage := rfl
@[simp] theorem setImageWidth_sig (val : BitVec 24) (s : State) : (setImageWidth val s).sig = s.sig := rfl
@[simp] theorem setImageWidth_desc (val : BitVec 24) (s : State) : (setImageWidth val s).desc = s.desc := rfl
@[simp] theorem setImageWidth_fm (val : BitVec 24) (s : State) : (setImageWidth val s).fm = s.fm := rfl
@[simp] theorem setImageWidth_rb (val : BitVec 24) (s : State) : (setImageWidth val s).rb = s.rb := rfl
@[simp] theorem setImageWidth_host (val : BitVec 24) (s : State) : (setImageWidth val s).host = s.host := rfl
@[simp] theorem setImageWidth_response (val : BitVec 24) (s : State) : (setImageWidth val s).response = s.response := rfl
@[simp] theorem setImageWidth_schedule (val : BitVec 24) (s : State) : (setImageWidth val s).schedule = s.schedule := rfl

/-! ## setImageHeight -/

@[simp] theorem setImageHeight_cfg (val : BitVec 24) (s : State) : (setImageHeight val s).cfg = s.cfg := rfl
@[simp] theorem setImageHeight_irqEn (val : BitVec 24) (s : State) : (setImageHeight val s).irqEn = s.irqEn := rfl
@[simp] theorem setImageHeight_phase (val : BitVec 24) (s : State) : (setImageHeight val s).phase = s.phase := rfl
@[simp] theorem setImageHeight_parse (val : BitVec 24) (s : State) : (setImageHeight val s).parse = s.parse := rfl
@[simp] theorem setImageHeight_fifo (val : BitVec 24) (s : State) : (setImageHeight val s).fifo = s.fifo := rfl
@[simp] theorem setImageHeight_cmdCount (val : BitVec 24) (s : State) : (setImageHeight val s).cmdCount = s.cmdCount := rfl
@[simp] theorem setImageHeight_errCode (val : BitVec 24) (s : State) : (setImageHeight val s).errCode = s.errCode := rfl
@[simp] theorem setImageHeight_errInfo (val : BitVec 24) (s : State) : (setImageHeight val s).errInfo = s.errInfo := rfl
@[simp] theorem setImageHeight_imgWidth (val : BitVec 24) (s : State) : (setImageHeight val s).imgWidth = s.imgWidth := rfl
@[simp] theorem setImageHeight_imgHeight (val : BitVec 24) (s : State) : (setImageHeight val s).imgHeight = val := rfl
@[simp] theorem setImageHeight_imgCols32 (val : BitVec 24) (s : State) : (setImageHeight val s).imgCols32 = s.imgCols32 := rfl
@[simp] theorem setImageHeight_rowY (val : BitVec 24) (s : State) : (setImageHeight val s).rowY = s.rowY := rfl
@[simp] theorem setImageHeight_cycleRows (val : BitVec 24) (s : State) : (setImageHeight val s).cycleRows = s.cycleRows := rfl
@[simp] theorem setImageHeight_featCount (val : BitVec 24) (s : State) : (setImageHeight val s).featCount = s.featCount := rfl
@[simp] theorem setImageHeight_fmemUsed (val : BitVec 24) (s : State) : (setImageHeight val s).fmemUsed = s.fmemUsed := rfl
@[simp] theorem setImageHeight_candCount (val : BitVec 24) (s : State) : (setImageHeight val s).candCount = s.candCount := rfl
@[simp] theorem setImageHeight_pixCount (val : BitVec 24) (s : State) : (setImageHeight val s).pixCount = s.pixCount := rfl
@[simp] theorem setImageHeight_acc (val : BitVec 24) (s : State) : (setImageHeight val s).acc = s.acc := rfl
@[simp] theorem setImageHeight_load (val : BitVec 24) (s : State) : (setImageHeight val s).load = s.load := rfl
@[simp] theorem setImageHeight_resX (val : BitVec 24) (s : State) : (setImageHeight val s).resX = s.resX := rfl
@[simp] theorem setImageHeight_resY (val : BitVec 24) (s : State) : (setImageHeight val s).resY = s.resY := rfl
@[simp] theorem setImageHeight_resFeat (val : BitVec 24) (s : State) : (setImageHeight val s).resFeat = s.resFeat := rfl
@[simp] theorem setImageHeight_resDim (val : BitVec 24) (s : State) : (setImageHeight val s).resDim = s.resDim := rfl
@[simp] theorem setImageHeight_featSel (val : BitVec 24) (s : State) : (setImageHeight val s).featSel = s.featSel := rfl
@[simp] theorem setImageHeight_stage (val : BitVec 24) (s : State) : (setImageHeight val s).stage = s.stage := rfl
@[simp] theorem setImageHeight_sig (val : BitVec 24) (s : State) : (setImageHeight val s).sig = s.sig := rfl
@[simp] theorem setImageHeight_desc (val : BitVec 24) (s : State) : (setImageHeight val s).desc = s.desc := rfl
@[simp] theorem setImageHeight_fm (val : BitVec 24) (s : State) : (setImageHeight val s).fm = s.fm := rfl
@[simp] theorem setImageHeight_rb (val : BitVec 24) (s : State) : (setImageHeight val s).rb = s.rb := rfl
@[simp] theorem setImageHeight_host (val : BitVec 24) (s : State) : (setImageHeight val s).host = s.host := rfl
@[simp] theorem setImageHeight_response (val : BitVec 24) (s : State) : (setImageHeight val s).response = s.response := rfl
@[simp] theorem setImageHeight_schedule (val : BitVec 24) (s : State) : (setImageHeight val s).schedule = s.schedule := rfl

/-! ## packStep -/

@[simp] theorem packStep_cfg (b : Bool) (s : State) : (packStep s b).cfg = s.cfg := rfl
@[simp] theorem packStep_irqEn (b : Bool) (s : State) : (packStep s b).irqEn = s.irqEn := rfl
@[simp] theorem packStep_phase (b : Bool) (s : State) : (packStep s b).phase = s.phase := rfl
@[simp] theorem packStep_parse (b : Bool) (s : State) : (packStep s b).parse = s.parse := rfl
@[simp] theorem packStep_fifo (b : Bool) (s : State) : (packStep s b).fifo = s.fifo := rfl
@[simp] theorem packStep_cmdCount (b : Bool) (s : State) : (packStep s b).cmdCount = s.cmdCount := rfl
@[simp] theorem packStep_errCode (b : Bool) (s : State) : (packStep s b).errCode = s.errCode := rfl
@[simp] theorem packStep_errInfo (b : Bool) (s : State) : (packStep s b).errInfo = s.errInfo := rfl
@[simp] theorem packStep_imgWidth (b : Bool) (s : State) : (packStep s b).imgWidth = s.imgWidth := rfl
@[simp] theorem packStep_imgHeight (b : Bool) (s : State) : (packStep s b).imgHeight = s.imgHeight := rfl
@[simp] theorem packStep_imgCols32 (b : Bool) (s : State) : (packStep s b).imgCols32 = s.imgCols32 := rfl
@[simp] theorem packStep_rowY (b : Bool) (s : State) : (packStep s b).rowY = s.rowY := rfl
@[simp] theorem packStep_cycleRows (b : Bool) (s : State) : (packStep s b).cycleRows = s.cycleRows := rfl
@[simp] theorem packStep_featCount (b : Bool) (s : State) : (packStep s b).featCount = s.featCount := rfl
@[simp] theorem packStep_fmemUsed (b : Bool) (s : State) : (packStep s b).fmemUsed = s.fmemUsed := rfl
@[simp] theorem packStep_candCount (b : Bool) (s : State) : (packStep s b).candCount = s.candCount := rfl
@[simp] theorem packStep_pixCount (b : Bool) (s : State) : (packStep s b).pixCount = s.pixCount + 1 := rfl
@[simp] theorem packStep_acc (b : Bool) (s : State) : (packStep s b).acc = shiftIn s.acc b := rfl
@[simp] theorem packStep_load (b : Bool) (s : State) : (packStep s b).load = s.load := rfl
@[simp] theorem packStep_resX (b : Bool) (s : State) : (packStep s b).resX = s.resX := rfl
@[simp] theorem packStep_resY (b : Bool) (s : State) : (packStep s b).resY = s.resY := rfl
@[simp] theorem packStep_resFeat (b : Bool) (s : State) : (packStep s b).resFeat = s.resFeat := rfl
@[simp] theorem packStep_resDim (b : Bool) (s : State) : (packStep s b).resDim = s.resDim := rfl
@[simp] theorem packStep_featSel (b : Bool) (s : State) : (packStep s b).featSel = s.featSel := rfl
@[simp] theorem packStep_stage (b : Bool) (s : State) : (packStep s b).stage = if s.pixCount.toNat % 32 = 31 ∧ s.pixCount.toNat / 32 < rowWords s then
      memWrite unlistedWord s.stage (s.pixCount.toNat / 32) (shiftIn s.acc b) else s.stage := rfl
@[simp] theorem packStep_sig (b : Bool) (s : State) : (packStep s b).sig = s.sig := rfl
@[simp] theorem packStep_desc (b : Bool) (s : State) : (packStep s b).desc = s.desc := rfl
@[simp] theorem packStep_fm (b : Bool) (s : State) : (packStep s b).fm = s.fm := rfl
@[simp] theorem packStep_rb (b : Bool) (s : State) : (packStep s b).rb = s.rb := rfl
@[simp] theorem packStep_host (b : Bool) (s : State) : (packStep s b).host = s.host := rfl
@[simp] theorem packStep_response (b : Bool) (s : State) : (packStep s b).response = s.response := rfl
@[simp] theorem packStep_schedule (b : Bool) (s : State) : (packStep s b).schedule = s.schedule := rfl

/-! ## beginLoad -/

@[simp] theorem beginLoad_cfg (rows cols : BitVec 12) (s : State) : (beginLoad rows cols s).cfg = s.cfg := rfl
@[simp] theorem beginLoad_irqEn (rows cols : BitVec 12) (s : State) : (beginLoad rows cols s).irqEn = s.irqEn := rfl
@[simp] theorem beginLoad_phase (rows cols : BitVec 12) (s : State) : (beginLoad rows cols s).phase = .loading := rfl
@[simp] theorem beginLoad_parse (rows cols : BitVec 12) (s : State) : (beginLoad rows cols s).parse = s.parse := rfl
@[simp] theorem beginLoad_fifo (rows cols : BitVec 12) (s : State) : (beginLoad rows cols s).fifo = s.fifo := rfl
@[simp] theorem beginLoad_cmdCount (rows cols : BitVec 12) (s : State) : (beginLoad rows cols s).cmdCount = s.cmdCount := rfl
@[simp] theorem beginLoad_errCode (rows cols : BitVec 12) (s : State) : (beginLoad rows cols s).errCode = s.errCode := rfl
@[simp] theorem beginLoad_errInfo (rows cols : BitVec 12) (s : State) : (beginLoad rows cols s).errInfo = s.errInfo := rfl
@[simp] theorem beginLoad_imgWidth (rows cols : BitVec 12) (s : State) : (beginLoad rows cols s).imgWidth = s.imgWidth := rfl
@[simp] theorem beginLoad_imgHeight (rows cols : BitVec 12) (s : State) : (beginLoad rows cols s).imgHeight = s.imgHeight := rfl
@[simp] theorem beginLoad_imgCols32 (rows cols : BitVec 12) (s : State) : (beginLoad rows cols s).imgCols32 = s.imgCols32 := rfl
@[simp] theorem beginLoad_rowY (rows cols : BitVec 12) (s : State) : (beginLoad rows cols s).rowY = s.rowY := rfl
@[simp] theorem beginLoad_cycleRows (rows cols : BitVec 12) (s : State) : (beginLoad rows cols s).cycleRows = s.cycleRows := rfl
@[simp] theorem beginLoad_featCount (rows cols : BitVec 12) (s : State) : (beginLoad rows cols s).featCount = s.featCount := rfl
@[simp] theorem beginLoad_fmemUsed (rows cols : BitVec 12) (s : State) : (beginLoad rows cols s).fmemUsed = s.fmemUsed := rfl
@[simp] theorem beginLoad_candCount (rows cols : BitVec 12) (s : State) : (beginLoad rows cols s).candCount = s.candCount := rfl
@[simp] theorem beginLoad_pixCount (rows cols : BitVec 12) (s : State) : (beginLoad rows cols s).pixCount = 0 := rfl
@[simp] theorem beginLoad_acc (rows cols : BitVec 12) (s : State) : (beginLoad rows cols s).acc = 0 := rfl
@[simp] theorem beginLoad_load (rows cols : BitVec 12) (s : State) : (beginLoad rows cols s).load = { rows := rows, cols := cols, cols32 := featCols32 cols, base := s.fmemUsed, r := 0 } := rfl
@[simp] theorem beginLoad_resX (rows cols : BitVec 12) (s : State) : (beginLoad rows cols s).resX = s.resX := rfl
@[simp] theorem beginLoad_resY (rows cols : BitVec 12) (s : State) : (beginLoad rows cols s).resY = s.resY := rfl
@[simp] theorem beginLoad_resFeat (rows cols : BitVec 12) (s : State) : (beginLoad rows cols s).resFeat = s.resFeat := rfl
@[simp] theorem beginLoad_resDim (rows cols : BitVec 12) (s : State) : (beginLoad rows cols s).resDim = s.resDim := rfl
@[simp] theorem beginLoad_featSel (rows cols : BitVec 12) (s : State) : (beginLoad rows cols s).featSel = s.featSel := rfl
@[simp] theorem beginLoad_stage (rows cols : BitVec 12) (s : State) : (beginLoad rows cols s).stage = s.stage := rfl
@[simp] theorem beginLoad_sig (rows cols : BitVec 12) (s : State) : (beginLoad rows cols s).sig = s.sig := rfl
@[simp] theorem beginLoad_desc (rows cols : BitVec 12) (s : State) : (beginLoad rows cols s).desc = s.desc := rfl
@[simp] theorem beginLoad_fm (rows cols : BitVec 12) (s : State) : (beginLoad rows cols s).fm = s.fm := rfl
@[simp] theorem beginLoad_rb (rows cols : BitVec 12) (s : State) : (beginLoad rows cols s).rb = s.rb := rfl
@[simp] theorem beginLoad_host (rows cols : BitVec 12) (s : State) : (beginLoad rows cols s).host = s.host := rfl
@[simp] theorem beginLoad_response (rows cols : BitVec 12) (s : State) : (beginLoad rows cols s).response = s.response := rfl
@[simp] theorem beginLoad_schedule (rows cols : BitVec 12) (s : State) : (beginLoad rows cols s).schedule = s.schedule := rfl

/-! ## commitRow -/

@[simp] theorem commitRow_cfg (s : State) : (commitRow s).cfg = s.cfg := rfl
@[simp] theorem commitRow_irqEn (s : State) : (commitRow s).irqEn = s.irqEn := rfl
@[simp] theorem commitRow_phase (s : State) : (commitRow s).phase = s.phase := rfl
@[simp] theorem commitRow_parse (s : State) : (commitRow s).parse = s.parse := rfl
@[simp] theorem commitRow_fifo (s : State) : (commitRow s).fifo = s.fifo := rfl
@[simp] theorem commitRow_cmdCount (s : State) : (commitRow s).cmdCount = s.cmdCount := rfl
@[simp] theorem commitRow_errCode (s : State) : (commitRow s).errCode = s.errCode := rfl
@[simp] theorem commitRow_errInfo (s : State) : (commitRow s).errInfo = s.errInfo := rfl
@[simp] theorem commitRow_imgWidth (s : State) : (commitRow s).imgWidth = s.imgWidth := rfl
@[simp] theorem commitRow_imgHeight (s : State) : (commitRow s).imgHeight = s.imgHeight := rfl
@[simp] theorem commitRow_imgCols32 (s : State) : (commitRow s).imgCols32 = s.imgCols32 := rfl
@[simp] theorem commitRow_rowY (s : State) : (commitRow s).rowY = s.rowY := rfl
@[simp] theorem commitRow_cycleRows (s : State) : (commitRow s).cycleRows = s.cycleRows := rfl
@[simp] theorem commitRow_featCount (s : State) : (commitRow s).featCount = s.featCount := rfl
@[simp] theorem commitRow_fmemUsed (s : State) : (commitRow s).fmemUsed = s.fmemUsed := rfl
@[simp] theorem commitRow_candCount (s : State) : (commitRow s).candCount = s.candCount := rfl
@[simp] theorem commitRow_pixCount (s : State) : (commitRow s).pixCount = s.pixCount := rfl
@[simp] theorem commitRow_acc (s : State) : (commitRow s).acc = s.acc := rfl
@[simp] theorem commitRow_load (s : State) : (commitRow s).load = { s.load with r := s.load.r + 1 } := rfl
@[simp] theorem commitRow_resX (s : State) : (commitRow s).resX = s.resX := rfl
@[simp] theorem commitRow_resY (s : State) : (commitRow s).resY = s.resY := rfl
@[simp] theorem commitRow_resFeat (s : State) : (commitRow s).resFeat = s.resFeat := rfl
@[simp] theorem commitRow_resDim (s : State) : (commitRow s).resDim = s.resDim := rfl
@[simp] theorem commitRow_featSel (s : State) : (commitRow s).featSel = s.featSel := rfl
@[simp] theorem commitRow_stage (s : State) : (commitRow s).stage = s.stage := rfl
@[simp] theorem commitRow_sig (s : State) : (commitRow s).sig = s.sig := rfl
@[simp] theorem commitRow_desc (s : State) : (commitRow s).desc = s.desc := rfl
@[simp] theorem commitRow_fm (s : State) : (commitRow s).fm = memWriteBlock unlistedWord s.fm (commitAddr s) (featureRowWords s) := rfl
@[simp] theorem commitRow_rb (s : State) : (commitRow s).rb = s.rb := rfl
@[simp] theorem commitRow_host (s : State) : (commitRow s).host = s.host := rfl
@[simp] theorem commitRow_response (s : State) : (commitRow s).response = s.response := rfl
@[simp] theorem commitRow_schedule (s : State) : (commitRow s).schedule = s.schedule := rfl

/-! ## commitFeature -/

@[simp] theorem commitFeature_cfg (s : State) : (commitFeature s).cfg = s.cfg := rfl
@[simp] theorem commitFeature_irqEn (s : State) : (commitFeature s).irqEn = s.irqEn := rfl
@[simp] theorem commitFeature_phase (s : State) : (commitFeature s).phase = .config := rfl
@[simp] theorem commitFeature_parse (s : State) : (commitFeature s).parse = s.parse := rfl
@[simp] theorem commitFeature_fifo (s : State) : (commitFeature s).fifo = s.fifo := rfl
@[simp] theorem commitFeature_cmdCount (s : State) : (commitFeature s).cmdCount = s.cmdCount := rfl
@[simp] theorem commitFeature_errCode (s : State) : (commitFeature s).errCode = s.errCode := rfl
@[simp] theorem commitFeature_errInfo (s : State) : (commitFeature s).errInfo = s.errInfo := rfl
@[simp] theorem commitFeature_imgWidth (s : State) : (commitFeature s).imgWidth = s.imgWidth := rfl
@[simp] theorem commitFeature_imgHeight (s : State) : (commitFeature s).imgHeight = s.imgHeight := rfl
@[simp] theorem commitFeature_imgCols32 (s : State) : (commitFeature s).imgCols32 = s.imgCols32 := rfl
@[simp] theorem commitFeature_rowY (s : State) : (commitFeature s).rowY = s.rowY := rfl
@[simp] theorem commitFeature_cycleRows (s : State) : (commitFeature s).cycleRows = s.cycleRows := rfl
@[simp] theorem commitFeature_featCount (s : State) : (commitFeature s).featCount = s.featCount + 1 := rfl
@[simp] theorem commitFeature_fmemUsed (s : State) : (commitFeature s).fmemUsed = s.fmemUsed + BitVec.ofNat 32 (s.load.rows.toNat * s.load.cols32.toNat) := rfl
@[simp] theorem commitFeature_candCount (s : State) : (commitFeature s).candCount = s.candCount := rfl
@[simp] theorem commitFeature_pixCount (s : State) : (commitFeature s).pixCount = s.pixCount := rfl
@[simp] theorem commitFeature_acc (s : State) : (commitFeature s).acc = s.acc := rfl
@[simp] theorem commitFeature_load (s : State) : (commitFeature s).load = s.load := rfl
@[simp] theorem commitFeature_resX (s : State) : (commitFeature s).resX = s.resX := rfl
@[simp] theorem commitFeature_resY (s : State) : (commitFeature s).resY = s.resY := rfl
@[simp] theorem commitFeature_resFeat (s : State) : (commitFeature s).resFeat = s.resFeat := rfl
@[simp] theorem commitFeature_resDim (s : State) : (commitFeature s).resDim = s.resDim := rfl
@[simp] theorem commitFeature_featSel (s : State) : (commitFeature s).featSel = s.featSel := rfl
@[simp] theorem commitFeature_stage (s : State) : (commitFeature s).stage = s.stage := rfl
@[simp] theorem commitFeature_sig (s : State) : (commitFeature s).sig = s.sig := rfl
@[simp] theorem commitFeature_desc (s : State) : (commitFeature s).desc = memWrite unlistedDesc s.desc s.featCount.toNat (newDesc s) := rfl
@[simp] theorem commitFeature_fm (s : State) : (commitFeature s).fm = s.fm := rfl
@[simp] theorem commitFeature_rb (s : State) : (commitFeature s).rb = s.rb := rfl
@[simp] theorem commitFeature_host (s : State) : (commitFeature s).host = s.host := rfl
@[simp] theorem commitFeature_response (s : State) : (commitFeature s).response = s.response := rfl
@[simp] theorem commitFeature_schedule (s : State) : (commitFeature s).schedule = s.schedule := rfl

/-! ## startScan -/

@[simp] theorem startScan_cfg (s : State) : (startScan s).cfg = s.cfg := rfl
@[simp] theorem startScan_irqEn (s : State) : (startScan s).irqEn = s.irqEn := rfl
@[simp] theorem startScan_phase (s : State) : (startScan s).phase = if s.imgHeight = 0 then .exhausted else .scanning := rfl
@[simp] theorem startScan_parse (s : State) : (startScan s).parse = s.parse := rfl
@[simp] theorem startScan_fifo (s : State) : (startScan s).fifo = s.fifo := rfl
@[simp] theorem startScan_cmdCount (s : State) : (startScan s).cmdCount = s.cmdCount := rfl
@[simp] theorem startScan_errCode (s : State) : (startScan s).errCode = s.errCode := rfl
@[simp] theorem startScan_errInfo (s : State) : (startScan s).errInfo = s.errInfo := rfl
@[simp] theorem startScan_imgWidth (s : State) : (startScan s).imgWidth = s.imgWidth := rfl
@[simp] theorem startScan_imgHeight (s : State) : (startScan s).imgHeight = s.imgHeight := rfl
@[simp] theorem startScan_imgCols32 (s : State) : (startScan s).imgCols32 = s.imgCols32 := rfl
@[simp] theorem startScan_rowY (s : State) : (startScan s).rowY = 0 := rfl
@[simp] theorem startScan_cycleRows (s : State) : (startScan s).cycleRows = tallest s := rfl
@[simp] theorem startScan_featCount (s : State) : (startScan s).featCount = s.featCount := rfl
@[simp] theorem startScan_fmemUsed (s : State) : (startScan s).fmemUsed = s.fmemUsed := rfl
@[simp] theorem startScan_candCount (s : State) : (startScan s).candCount = 0 := rfl
@[simp] theorem startScan_pixCount (s : State) : (startScan s).pixCount = 0 := rfl
@[simp] theorem startScan_acc (s : State) : (startScan s).acc = 0 := rfl
@[simp] theorem startScan_load (s : State) : (startScan s).load = s.load := rfl
@[simp] theorem startScan_resX (s : State) : (startScan s).resX = s.resX := rfl
@[simp] theorem startScan_resY (s : State) : (startScan s).resY = s.resY := rfl
@[simp] theorem startScan_resFeat (s : State) : (startScan s).resFeat = s.resFeat := rfl
@[simp] theorem startScan_resDim (s : State) : (startScan s).resDim = s.resDim := rfl
@[simp] theorem startScan_featSel (s : State) : (startScan s).featSel = s.featSel := rfl
@[simp] theorem startScan_stage (s : State) : (startScan s).stage = s.stage := rfl
@[simp] theorem startScan_sig (s : State) : (startScan s).sig = memWriteBlock unlistedWord s.sig 0 (List.replicate (32 * s.cfg.maxCols32) 0#32) := rfl
@[simp] theorem startScan_desc (s : State) : (startScan s).desc = s.desc := rfl
@[simp] theorem startScan_fm (s : State) : (startScan s).fm = s.fm := rfl
@[simp] theorem startScan_rb (s : State) : (startScan s).rb = s.rb := rfl
@[simp] theorem startScan_host (s : State) : (startScan s).host = s.host := rfl
@[simp] theorem startScan_response (s : State) : (startScan s).response = s.response := rfl
@[simp] theorem startScan_schedule (s : State) : (startScan s).schedule = s.schedule := rfl

/-! ## storeRow -/

@[simp] theorem storeRow_cfg (s : State) : (storeRow s).cfg = s.cfg := rfl
@[simp] theorem storeRow_irqEn (s : State) : (storeRow s).irqEn = s.irqEn := rfl
@[simp] theorem storeRow_phase (s : State) : (storeRow s).phase = s.phase := rfl
@[simp] theorem storeRow_parse (s : State) : (storeRow s).parse = s.parse := rfl
@[simp] theorem storeRow_fifo (s : State) : (storeRow s).fifo = s.fifo := rfl
@[simp] theorem storeRow_cmdCount (s : State) : (storeRow s).cmdCount = s.cmdCount := rfl
@[simp] theorem storeRow_errCode (s : State) : (storeRow s).errCode = s.errCode := rfl
@[simp] theorem storeRow_errInfo (s : State) : (storeRow s).errInfo = s.errInfo := rfl
@[simp] theorem storeRow_imgWidth (s : State) : (storeRow s).imgWidth = s.imgWidth := rfl
@[simp] theorem storeRow_imgHeight (s : State) : (storeRow s).imgHeight = s.imgHeight := rfl
@[simp] theorem storeRow_imgCols32 (s : State) : (storeRow s).imgCols32 = s.imgCols32 := rfl
@[simp] theorem storeRow_rowY (s : State) : (storeRow s).rowY = s.rowY := rfl
@[simp] theorem storeRow_cycleRows (s : State) : (storeRow s).cycleRows = s.cycleRows := rfl
@[simp] theorem storeRow_featCount (s : State) : (storeRow s).featCount = s.featCount := rfl
@[simp] theorem storeRow_fmemUsed (s : State) : (storeRow s).fmemUsed = s.fmemUsed := rfl
@[simp] theorem storeRow_candCount (s : State) : (storeRow s).candCount = s.candCount := rfl
@[simp] theorem storeRow_pixCount (s : State) : (storeRow s).pixCount = s.pixCount := rfl
@[simp] theorem storeRow_acc (s : State) : (storeRow s).acc = s.acc := rfl
@[simp] theorem storeRow_load (s : State) : (storeRow s).load = s.load := rfl
@[simp] theorem storeRow_resX (s : State) : (storeRow s).resX = s.resX := rfl
@[simp] theorem storeRow_resY (s : State) : (storeRow s).resY = s.resY := rfl
@[simp] theorem storeRow_resFeat (s : State) : (storeRow s).resFeat = s.resFeat := rfl
@[simp] theorem storeRow_resDim (s : State) : (storeRow s).resDim = s.resDim := rfl
@[simp] theorem storeRow_featSel (s : State) : (storeRow s).featSel = s.featSel := rfl
@[simp] theorem storeRow_stage (s : State) : (storeRow s).stage = s.stage := rfl
@[simp] theorem storeRow_sig (s : State) : (storeRow s).sig = s.sig := rfl
@[simp] theorem storeRow_desc (s : State) : (storeRow s).desc = s.desc := rfl
@[simp] theorem storeRow_fm (s : State) : (storeRow s).fm = s.fm := rfl
@[simp] theorem storeRow_rb (s : State) : (storeRow s).rb = memWriteBlock unlistedWord s.rb (rbAddr s.cfg (currentLine s) 0) (imageRowWords s) := rfl
@[simp] theorem storeRow_host (s : State) : (storeRow s).host = s.host := rfl
@[simp] theorem storeRow_response (s : State) : (storeRow s).response = s.response := rfl
@[simp] theorem storeRow_schedule (s : State) : (storeRow s).schedule = s.schedule := rfl

/-! ## updateSignatures -/

@[simp] theorem updateSignatures_cfg (s : State) : (updateSignatures s).cfg = s.cfg := rfl
@[simp] theorem updateSignatures_irqEn (s : State) : (updateSignatures s).irqEn = s.irqEn := rfl
@[simp] theorem updateSignatures_phase (s : State) : (updateSignatures s).phase = s.phase := rfl
@[simp] theorem updateSignatures_parse (s : State) : (updateSignatures s).parse = s.parse := rfl
@[simp] theorem updateSignatures_fifo (s : State) : (updateSignatures s).fifo = s.fifo := rfl
@[simp] theorem updateSignatures_cmdCount (s : State) : (updateSignatures s).cmdCount = s.cmdCount := rfl
@[simp] theorem updateSignatures_errCode (s : State) : (updateSignatures s).errCode = s.errCode := rfl
@[simp] theorem updateSignatures_errInfo (s : State) : (updateSignatures s).errInfo = s.errInfo := rfl
@[simp] theorem updateSignatures_imgWidth (s : State) : (updateSignatures s).imgWidth = s.imgWidth := rfl
@[simp] theorem updateSignatures_imgHeight (s : State) : (updateSignatures s).imgHeight = s.imgHeight := rfl
@[simp] theorem updateSignatures_imgCols32 (s : State) : (updateSignatures s).imgCols32 = s.imgCols32 := rfl
@[simp] theorem updateSignatures_rowY (s : State) : (updateSignatures s).rowY = s.rowY := rfl
@[simp] theorem updateSignatures_cycleRows (s : State) : (updateSignatures s).cycleRows = s.cycleRows := rfl
@[simp] theorem updateSignatures_featCount (s : State) : (updateSignatures s).featCount = s.featCount := rfl
@[simp] theorem updateSignatures_fmemUsed (s : State) : (updateSignatures s).fmemUsed = s.fmemUsed := rfl
@[simp] theorem updateSignatures_candCount (s : State) : (updateSignatures s).candCount = s.candCount := rfl
@[simp] theorem updateSignatures_pixCount (s : State) : (updateSignatures s).pixCount = s.pixCount := rfl
@[simp] theorem updateSignatures_acc (s : State) : (updateSignatures s).acc = s.acc := rfl
@[simp] theorem updateSignatures_load (s : State) : (updateSignatures s).load = s.load := rfl
@[simp] theorem updateSignatures_resX (s : State) : (updateSignatures s).resX = s.resX := rfl
@[simp] theorem updateSignatures_resY (s : State) : (updateSignatures s).resY = s.resY := rfl
@[simp] theorem updateSignatures_resFeat (s : State) : (updateSignatures s).resFeat = s.resFeat := rfl
@[simp] theorem updateSignatures_resDim (s : State) : (updateSignatures s).resDim = s.resDim := rfl
@[simp] theorem updateSignatures_featSel (s : State) : (updateSignatures s).featSel = s.featSel := rfl
@[simp] theorem updateSignatures_stage (s : State) : (updateSignatures s).stage = s.stage := rfl
@[simp] theorem updateSignatures_sig (s : State) : (updateSignatures s).sig = memWriteBlock unlistedWord s.sig 0 (newSignatures s) := rfl
@[simp] theorem updateSignatures_desc (s : State) : (updateSignatures s).desc = s.desc := rfl
@[simp] theorem updateSignatures_fm (s : State) : (updateSignatures s).fm = s.fm := rfl
@[simp] theorem updateSignatures_rb (s : State) : (updateSignatures s).rb = s.rb := rfl
@[simp] theorem updateSignatures_host (s : State) : (updateSignatures s).host = s.host := rfl
@[simp] theorem updateSignatures_response (s : State) : (updateSignatures s).response = s.response := rfl
@[simp] theorem updateSignatures_schedule (s : State) : (updateSignatures s).schedule = s.schedule := rfl

/-! ## enterFound -/

@[simp] theorem enterFound_cfg (k : Candidate) (s : State) : (enterFound k s).cfg = s.cfg := rfl
@[simp] theorem enterFound_irqEn (k : Candidate) (s : State) : (enterFound k s).irqEn = s.irqEn := rfl
@[simp] theorem enterFound_phase (k : Candidate) (s : State) : (enterFound k s).phase = .found := rfl
@[simp] theorem enterFound_parse (k : Candidate) (s : State) : (enterFound k s).parse = s.parse := rfl
@[simp] theorem enterFound_fifo (k : Candidate) (s : State) : (enterFound k s).fifo = s.fifo := rfl
@[simp] theorem enterFound_cmdCount (k : Candidate) (s : State) : (enterFound k s).cmdCount = s.cmdCount := rfl
@[simp] theorem enterFound_errCode (k : Candidate) (s : State) : (enterFound k s).errCode = s.errCode := rfl
@[simp] theorem enterFound_errInfo (k : Candidate) (s : State) : (enterFound k s).errInfo = s.errInfo := rfl
@[simp] theorem enterFound_imgWidth (k : Candidate) (s : State) : (enterFound k s).imgWidth = s.imgWidth := rfl
@[simp] theorem enterFound_imgHeight (k : Candidate) (s : State) : (enterFound k s).imgHeight = s.imgHeight := rfl
@[simp] theorem enterFound_imgCols32 (k : Candidate) (s : State) : (enterFound k s).imgCols32 = s.imgCols32 := rfl
@[simp] theorem enterFound_rowY (k : Candidate) (s : State) : (enterFound k s).rowY = s.rowY := rfl
@[simp] theorem enterFound_cycleRows (k : Candidate) (s : State) : (enterFound k s).cycleRows = s.cycleRows := rfl
@[simp] theorem enterFound_featCount (k : Candidate) (s : State) : (enterFound k s).featCount = s.featCount := rfl
@[simp] theorem enterFound_fmemUsed (k : Candidate) (s : State) : (enterFound k s).fmemUsed = s.fmemUsed := rfl
@[simp] theorem enterFound_candCount (k : Candidate) (s : State) : (enterFound k s).candCount = s.candCount := rfl
@[simp] theorem enterFound_pixCount (k : Candidate) (s : State) : (enterFound k s).pixCount = s.pixCount := rfl
@[simp] theorem enterFound_acc (k : Candidate) (s : State) : (enterFound k s).acc = s.acc := rfl
@[simp] theorem enterFound_load (k : Candidate) (s : State) : (enterFound k s).load = s.load := rfl
@[simp] theorem enterFound_resX (k : Candidate) (s : State) : (enterFound k s).resX = BitVec.ofNat 24 (position k.c k.o) := rfl
@[simp] theorem enterFound_resY (k : Candidate) (s : State) : (enterFound k s).resY = BitVec.ofNat 24 (s.rowY.toNat + 1 - (descRead s k.f).rows.toNat) := rfl
@[simp] theorem enterFound_resFeat (k : Candidate) (s : State) : (enterFound k s).resFeat = BitVec.ofNat 16 k.f := rfl
@[simp] theorem enterFound_resDim (k : Candidate) (s : State) : (enterFound k s).resDim = resultDim (descRead s k.f) := rfl
@[simp] theorem enterFound_featSel (k : Candidate) (s : State) : (enterFound k s).featSel = s.featSel := rfl
@[simp] theorem enterFound_stage (k : Candidate) (s : State) : (enterFound k s).stage = s.stage := rfl
@[simp] theorem enterFound_sig (k : Candidate) (s : State) : (enterFound k s).sig = s.sig := rfl
@[simp] theorem enterFound_desc (k : Candidate) (s : State) : (enterFound k s).desc = s.desc := rfl
@[simp] theorem enterFound_fm (k : Candidate) (s : State) : (enterFound k s).fm = s.fm := rfl
@[simp] theorem enterFound_rb (k : Candidate) (s : State) : (enterFound k s).rb = s.rb := rfl
@[simp] theorem enterFound_host (k : Candidate) (s : State) : (enterFound k s).host = s.host := rfl
@[simp] theorem enterFound_response (k : Candidate) (s : State) : (enterFound k s).response = s.response := rfl
@[simp] theorem enterFound_schedule (k : Candidate) (s : State) : (enterFound k s).schedule = s.schedule := rfl

/-! ## advanceRow -/

@[simp] theorem advanceRow_cfg (s : State) : (advanceRow s).cfg = s.cfg := rfl
@[simp] theorem advanceRow_irqEn (s : State) : (advanceRow s).irqEn = s.irqEn := rfl
@[simp] theorem advanceRow_phase (s : State) : (advanceRow s).phase = if s.rowY + 1 = s.imgHeight then .exhausted else s.phase := rfl
@[simp] theorem advanceRow_parse (s : State) : (advanceRow s).parse = s.parse := rfl
@[simp] theorem advanceRow_fifo (s : State) : (advanceRow s).fifo = s.fifo := rfl
@[simp] theorem advanceRow_cmdCount (s : State) : (advanceRow s).cmdCount = s.cmdCount := rfl
@[simp] theorem advanceRow_errCode (s : State) : (advanceRow s).errCode = s.errCode := rfl
@[simp] theorem advanceRow_errInfo (s : State) : (advanceRow s).errInfo = s.errInfo := rfl
@[simp] theorem advanceRow_imgWidth (s : State) : (advanceRow s).imgWidth = s.imgWidth := rfl
@[simp] theorem advanceRow_imgHeight (s : State) : (advanceRow s).imgHeight = s.imgHeight := rfl
@[simp] theorem advanceRow_imgCols32 (s : State) : (advanceRow s).imgCols32 = s.imgCols32 := rfl
@[simp] theorem advanceRow_rowY (s : State) : (advanceRow s).rowY = s.rowY + 1 := rfl
@[simp] theorem advanceRow_cycleRows (s : State) : (advanceRow s).cycleRows = s.cycleRows := rfl
@[simp] theorem advanceRow_featCount (s : State) : (advanceRow s).featCount = s.featCount := rfl
@[simp] theorem advanceRow_fmemUsed (s : State) : (advanceRow s).fmemUsed = s.fmemUsed := rfl
@[simp] theorem advanceRow_candCount (s : State) : (advanceRow s).candCount = s.candCount := rfl
@[simp] theorem advanceRow_pixCount (s : State) : (advanceRow s).pixCount = s.pixCount := rfl
@[simp] theorem advanceRow_acc (s : State) : (advanceRow s).acc = s.acc := rfl
@[simp] theorem advanceRow_load (s : State) : (advanceRow s).load = s.load := rfl
@[simp] theorem advanceRow_resX (s : State) : (advanceRow s).resX = s.resX := rfl
@[simp] theorem advanceRow_resY (s : State) : (advanceRow s).resY = s.resY := rfl
@[simp] theorem advanceRow_resFeat (s : State) : (advanceRow s).resFeat = s.resFeat := rfl
@[simp] theorem advanceRow_resDim (s : State) : (advanceRow s).resDim = s.resDim := rfl
@[simp] theorem advanceRow_featSel (s : State) : (advanceRow s).featSel = s.featSel := rfl
@[simp] theorem advanceRow_stage (s : State) : (advanceRow s).stage = s.stage := rfl
@[simp] theorem advanceRow_sig (s : State) : (advanceRow s).sig = s.sig := rfl
@[simp] theorem advanceRow_desc (s : State) : (advanceRow s).desc = s.desc := rfl
@[simp] theorem advanceRow_fm (s : State) : (advanceRow s).fm = s.fm := rfl
@[simp] theorem advanceRow_rb (s : State) : (advanceRow s).rb = s.rb := rfl
@[simp] theorem advanceRow_host (s : State) : (advanceRow s).host = s.host := rfl
@[simp] theorem advanceRow_response (s : State) : (advanceRow s).response = s.response := rfl
@[simp] theorem advanceRow_schedule (s : State) : (advanceRow s).schedule = s.schedule := rfl

/-! ## takeWord -/

@[simp] theorem takeWord_cfg (s : State) : (takeWord s).cfg = s.cfg := rfl
@[simp] theorem takeWord_irqEn (s : State) : (takeWord s).irqEn = s.irqEn := rfl
@[simp] theorem takeWord_phase (s : State) : (takeWord s).phase = s.phase := rfl
@[simp] theorem takeWord_parse (s : State) : (takeWord s).parse = s.parse := rfl
@[simp] theorem takeWord_fifo (s : State) : (takeWord s).fifo = s.fifo.drop 1 := rfl
@[simp] theorem takeWord_cmdCount (s : State) : (takeWord s).cmdCount = s.cmdCount + 1 := rfl
@[simp] theorem takeWord_errCode (s : State) : (takeWord s).errCode = s.errCode := rfl
@[simp] theorem takeWord_errInfo (s : State) : (takeWord s).errInfo = s.errInfo := rfl
@[simp] theorem takeWord_imgWidth (s : State) : (takeWord s).imgWidth = s.imgWidth := rfl
@[simp] theorem takeWord_imgHeight (s : State) : (takeWord s).imgHeight = s.imgHeight := rfl
@[simp] theorem takeWord_imgCols32 (s : State) : (takeWord s).imgCols32 = s.imgCols32 := rfl
@[simp] theorem takeWord_rowY (s : State) : (takeWord s).rowY = s.rowY := rfl
@[simp] theorem takeWord_cycleRows (s : State) : (takeWord s).cycleRows = s.cycleRows := rfl
@[simp] theorem takeWord_featCount (s : State) : (takeWord s).featCount = s.featCount := rfl
@[simp] theorem takeWord_fmemUsed (s : State) : (takeWord s).fmemUsed = s.fmemUsed := rfl
@[simp] theorem takeWord_candCount (s : State) : (takeWord s).candCount = s.candCount := rfl
@[simp] theorem takeWord_pixCount (s : State) : (takeWord s).pixCount = s.pixCount := rfl
@[simp] theorem takeWord_acc (s : State) : (takeWord s).acc = s.acc := rfl
@[simp] theorem takeWord_load (s : State) : (takeWord s).load = s.load := rfl
@[simp] theorem takeWord_resX (s : State) : (takeWord s).resX = s.resX := rfl
@[simp] theorem takeWord_resY (s : State) : (takeWord s).resY = s.resY := rfl
@[simp] theorem takeWord_resFeat (s : State) : (takeWord s).resFeat = s.resFeat := rfl
@[simp] theorem takeWord_resDim (s : State) : (takeWord s).resDim = s.resDim := rfl
@[simp] theorem takeWord_featSel (s : State) : (takeWord s).featSel = s.featSel := rfl
@[simp] theorem takeWord_stage (s : State) : (takeWord s).stage = s.stage := rfl
@[simp] theorem takeWord_sig (s : State) : (takeWord s).sig = s.sig := rfl
@[simp] theorem takeWord_desc (s : State) : (takeWord s).desc = s.desc := rfl
@[simp] theorem takeWord_fm (s : State) : (takeWord s).fm = s.fm := rfl
@[simp] theorem takeWord_rb (s : State) : (takeWord s).rb = s.rb := rfl
@[simp] theorem takeWord_host (s : State) : (takeWord s).host = s.host := rfl
@[simp] theorem takeWord_response (s : State) : (takeWord s).response = s.response := rfl
@[simp] theorem takeWord_schedule (s : State) : (takeWord s).schedule = s.schedule := rfl

/-! ## pushCmd -/

@[simp] theorem pushCmd_cfg (v : Word) (s : State) : (pushCmd v s).cfg = s.cfg := rfl
@[simp] theorem pushCmd_irqEn (v : Word) (s : State) : (pushCmd v s).irqEn = s.irqEn := rfl
@[simp] theorem pushCmd_phase (v : Word) (s : State) : (pushCmd v s).phase = s.phase := rfl
@[simp] theorem pushCmd_parse (v : Word) (s : State) : (pushCmd v s).parse = s.parse := rfl
@[simp] theorem pushCmd_fifo (v : Word) (s : State) : (pushCmd v s).fifo = s.fifo ++ [v] := rfl
@[simp] theorem pushCmd_cmdCount (v : Word) (s : State) : (pushCmd v s).cmdCount = s.cmdCount := rfl
@[simp] theorem pushCmd_errCode (v : Word) (s : State) : (pushCmd v s).errCode = s.errCode := rfl
@[simp] theorem pushCmd_errInfo (v : Word) (s : State) : (pushCmd v s).errInfo = s.errInfo := rfl
@[simp] theorem pushCmd_imgWidth (v : Word) (s : State) : (pushCmd v s).imgWidth = s.imgWidth := rfl
@[simp] theorem pushCmd_imgHeight (v : Word) (s : State) : (pushCmd v s).imgHeight = s.imgHeight := rfl
@[simp] theorem pushCmd_imgCols32 (v : Word) (s : State) : (pushCmd v s).imgCols32 = s.imgCols32 := rfl
@[simp] theorem pushCmd_rowY (v : Word) (s : State) : (pushCmd v s).rowY = s.rowY := rfl
@[simp] theorem pushCmd_cycleRows (v : Word) (s : State) : (pushCmd v s).cycleRows = s.cycleRows := rfl
@[simp] theorem pushCmd_featCount (v : Word) (s : State) : (pushCmd v s).featCount = s.featCount := rfl
@[simp] theorem pushCmd_fmemUsed (v : Word) (s : State) : (pushCmd v s).fmemUsed = s.fmemUsed := rfl
@[simp] theorem pushCmd_candCount (v : Word) (s : State) : (pushCmd v s).candCount = s.candCount := rfl
@[simp] theorem pushCmd_pixCount (v : Word) (s : State) : (pushCmd v s).pixCount = s.pixCount := rfl
@[simp] theorem pushCmd_acc (v : Word) (s : State) : (pushCmd v s).acc = s.acc := rfl
@[simp] theorem pushCmd_load (v : Word) (s : State) : (pushCmd v s).load = s.load := rfl
@[simp] theorem pushCmd_resX (v : Word) (s : State) : (pushCmd v s).resX = s.resX := rfl
@[simp] theorem pushCmd_resY (v : Word) (s : State) : (pushCmd v s).resY = s.resY := rfl
@[simp] theorem pushCmd_resFeat (v : Word) (s : State) : (pushCmd v s).resFeat = s.resFeat := rfl
@[simp] theorem pushCmd_resDim (v : Word) (s : State) : (pushCmd v s).resDim = s.resDim := rfl
@[simp] theorem pushCmd_featSel (v : Word) (s : State) : (pushCmd v s).featSel = s.featSel := rfl
@[simp] theorem pushCmd_stage (v : Word) (s : State) : (pushCmd v s).stage = s.stage := rfl
@[simp] theorem pushCmd_sig (v : Word) (s : State) : (pushCmd v s).sig = s.sig := rfl
@[simp] theorem pushCmd_desc (v : Word) (s : State) : (pushCmd v s).desc = s.desc := rfl
@[simp] theorem pushCmd_fm (v : Word) (s : State) : (pushCmd v s).fm = s.fm := rfl
@[simp] theorem pushCmd_rb (v : Word) (s : State) : (pushCmd v s).rb = s.rb := rfl
@[simp] theorem pushCmd_host (v : Word) (s : State) : (pushCmd v s).host = s.host := rfl
@[simp] theorem pushCmd_response (v : Word) (s : State) : (pushCmd v s).response = s.response := rfl
@[simp] theorem pushCmd_schedule (v : Word) (s : State) : (pushCmd v s).schedule = s.schedule := rfl

/-! ## writeFeatSel -/

@[simp] theorem writeFeatSel_cfg (v : Word) (s : State) : (writeFeatSel v s).cfg = s.cfg := rfl
@[simp] theorem writeFeatSel_irqEn (v : Word) (s : State) : (writeFeatSel v s).irqEn = s.irqEn := rfl
@[simp] theorem writeFeatSel_phase (v : Word) (s : State) : (writeFeatSel v s).phase = s.phase := rfl
@[simp] theorem writeFeatSel_parse (v : Word) (s : State) : (writeFeatSel v s).parse = s.parse := rfl
@[simp] theorem writeFeatSel_fifo (v : Word) (s : State) : (writeFeatSel v s).fifo = s.fifo := rfl
@[simp] theorem writeFeatSel_cmdCount (v : Word) (s : State) : (writeFeatSel v s).cmdCount = s.cmdCount := rfl
@[simp] theorem writeFeatSel_errCode (v : Word) (s : State) : (writeFeatSel v s).errCode = s.errCode := rfl
@[simp] theorem writeFeatSel_errInfo (v : Word) (s : State) : (writeFeatSel v s).errInfo = s.errInfo := rfl
@[simp] theorem writeFeatSel_imgWidth (v : Word) (s : State) : (writeFeatSel v s).imgWidth = s.imgWidth := rfl
@[simp] theorem writeFeatSel_imgHeight (v : Word) (s : State) : (writeFeatSel v s).imgHeight = s.imgHeight := rfl
@[simp] theorem writeFeatSel_imgCols32 (v : Word) (s : State) : (writeFeatSel v s).imgCols32 = s.imgCols32 := rfl
@[simp] theorem writeFeatSel_rowY (v : Word) (s : State) : (writeFeatSel v s).rowY = s.rowY := rfl
@[simp] theorem writeFeatSel_cycleRows (v : Word) (s : State) : (writeFeatSel v s).cycleRows = s.cycleRows := rfl
@[simp] theorem writeFeatSel_featCount (v : Word) (s : State) : (writeFeatSel v s).featCount = s.featCount := rfl
@[simp] theorem writeFeatSel_fmemUsed (v : Word) (s : State) : (writeFeatSel v s).fmemUsed = s.fmemUsed := rfl
@[simp] theorem writeFeatSel_candCount (v : Word) (s : State) : (writeFeatSel v s).candCount = s.candCount := rfl
@[simp] theorem writeFeatSel_pixCount (v : Word) (s : State) : (writeFeatSel v s).pixCount = s.pixCount := rfl
@[simp] theorem writeFeatSel_acc (v : Word) (s : State) : (writeFeatSel v s).acc = s.acc := rfl
@[simp] theorem writeFeatSel_load (v : Word) (s : State) : (writeFeatSel v s).load = s.load := rfl
@[simp] theorem writeFeatSel_resX (v : Word) (s : State) : (writeFeatSel v s).resX = s.resX := rfl
@[simp] theorem writeFeatSel_resY (v : Word) (s : State) : (writeFeatSel v s).resY = s.resY := rfl
@[simp] theorem writeFeatSel_resFeat (v : Word) (s : State) : (writeFeatSel v s).resFeat = s.resFeat := rfl
@[simp] theorem writeFeatSel_resDim (v : Word) (s : State) : (writeFeatSel v s).resDim = s.resDim := rfl
@[simp] theorem writeFeatSel_featSel (v : Word) (s : State) : (writeFeatSel v s).featSel = v.setWidth 16 := rfl
@[simp] theorem writeFeatSel_stage (v : Word) (s : State) : (writeFeatSel v s).stage = s.stage := rfl
@[simp] theorem writeFeatSel_sig (v : Word) (s : State) : (writeFeatSel v s).sig = s.sig := rfl
@[simp] theorem writeFeatSel_desc (v : Word) (s : State) : (writeFeatSel v s).desc = s.desc := rfl
@[simp] theorem writeFeatSel_fm (v : Word) (s : State) : (writeFeatSel v s).fm = s.fm := rfl
@[simp] theorem writeFeatSel_rb (v : Word) (s : State) : (writeFeatSel v s).rb = s.rb := rfl
@[simp] theorem writeFeatSel_host (v : Word) (s : State) : (writeFeatSel v s).host = s.host := rfl
@[simp] theorem writeFeatSel_response (v : Word) (s : State) : (writeFeatSel v s).response = s.response := rfl
@[simp] theorem writeFeatSel_schedule (v : Word) (s : State) : (writeFeatSel v s).schedule = s.schedule := rfl

end Sys2Proof.Machine
end

