-- ==== Sys2Proof/Laws/Commands.lean ====
section
/-! SUPPORT. What each shared operation and each command can answer, said once: if it answers a next state, one of the listed cases
holds. Later proofs cite these and do not unfold the meanings. -/

namespace Sys2Proof.Machine

/-- The three ways a guarded command runs (30_encoding.md R116 steps 1, 4, 5). -/
theorem guarded_cases {legal : Phase → Bool} {h : Word} {body : State → Result} {s t : State}
    (hx : guarded legal h body s = .next t) :
    (isTerminal s.phase = true ∧ t = s) ∨
    (isTerminal s.phase = false ∧ legal s.phase = true ∧ body s = .next t) ∨
    (isTerminal s.phase = false ∧ legal s.phase = false ∧ t = raise .illegalPhase h s) := by
  unfold guarded at hx
  split at hx
  · next ht => cases hx; exact .inl ⟨ht, rfl⟩
  · next ht =>
    have ht : isTerminal s.phase = false := by simpa using ht
    split at hx
    · next hl => exact .inr (.inl ⟨ht, hl, hx⟩)
    · next hl => cases hx; exact .inr (.inr ⟨ht, by simpa using hl, rfl⟩)

theorem execNop_cases {s t : State} (hx : execNop s = .next t) : t = s := by
  rcases guarded_cases hx with ⟨-, h⟩ | ⟨-, -, h⟩ | ⟨ht, hl, -⟩
  · exact h
  · cases h; rfl
  · simp [anyWorkingPhase, ht] at hl

theorem execSetWidth_cases {val : BitVec 24} {s t : State} (hx : execSetWidth val s = .next t) :
    t = s ∨ (s.phase = .config ∧ val.toNat ≤ s.cfg.maxWidth ∧ t = setImageWidth val s) ∨
    ∃ e, isTerminal s.phase = false ∧ t = raise e (headerOf (.setWidth val)) s := by
  rcases guarded_cases hx with ⟨-, h⟩ | ⟨ht, hl, h⟩ | ⟨ht, -, h⟩
  · exact .inl h
  · split at h
    · cases h; exact .inr (.inr ⟨_, ht, rfl⟩)
    · next hw => cases h; exact .inr (.inl ⟨by simpa [configOnly] using hl, by omega, rfl⟩)
  · exact .inr (.inr ⟨_, ht, h⟩)

theorem execSetHeight_cases {val : BitVec 24} {s t : State} (hx : execSetHeight val s = .next t) :
    t = s ∨ (s.phase = .config ∧ t = setImageHeight val s) ∨
    ∃ e, isTerminal s.phase = false ∧ t = raise e (headerOf (.setHeight val)) s := by
  rcases guarded_cases hx with ⟨-, h⟩ | ⟨ht, hl, h⟩ | ⟨ht, -, h⟩
  · exact .inl h
  · cases h; exact .inr (.inl ⟨by simpa [configOnly] using hl, rfl⟩)
  · exact .inr (.inr ⟨_, ht, h⟩)

theorem execFeatBegin_cases {rows cols : BitVec 12} {s t : State} (hx : execFeatBegin rows cols s = .next t) :
    t = s ∨
    (s.phase = .config ∧ (1 ≤ rows.toNat ∧ rows.toNat ≤ s.cfg.maxFeatRows) ∧
      (1 ≤ (featCols32 cols).toNat ∧ (featCols32 cols).toNat ≤ s.cfg.maxFeatCols32) ∧
      s.featCount.toNat ≠ s.cfg.maxFeatures ∧
      s.fmemUsed.toNat + rows.toNat * (featCols32 cols).toNat ≤ s.cfg.featMemWords ∧ t = beginLoad rows cols s) ∨
    ∃ e, isTerminal s.phase = false ∧ t = raise e (headerOf (.featBegin rows cols)) s := by
  rcases guarded_cases hx with ⟨-, h⟩ | ⟨ht, hl, h⟩ | ⟨ht, -, h⟩
  · exact .inl h
  · by_cases h1 : rows.toNat = 0 ∨ (featCols32 cols).toNat = 0
    · rw [if_pos h1] at h; cases h; exact .inr (.inr ⟨_, ht, rfl⟩)
    rw [if_neg h1] at h
    by_cases h2 : s.cfg.maxFeatRows < rows.toNat ∨ s.cfg.maxFeatCols32 < (featCols32 cols).toNat
    · rw [if_pos h2] at h; cases h; exact .inr (.inr ⟨_, ht, rfl⟩)
    rw [if_neg h2] at h
    by_cases h3 : s.featCount.toNat = s.cfg.maxFeatures
    · rw [if_pos h3] at h; cases h; exact .inr (.inr ⟨_, ht, rfl⟩)
    rw [if_neg h3] at h
    by_cases h4 : s.cfg.featMemWords < s.fmemUsed.toNat + rows.toNat * (featCols32 cols).toNat
    · rw [if_pos h4] at h; cases h; exact .inr (.inr ⟨_, ht, rfl⟩)
    rw [if_neg h4] at h
    cases h
    exact .inr (.inl ⟨by simpa [configOnly] using hl, by omega, by omega, h3, by omega, rfl⟩)
  · exact .inr (.inr ⟨_, ht, h⟩)

theorem execFeatEnd_cases {s t : State} (hx : execFeatEnd s = .next t) :
    t = s ∨
    (s.phase = .loading ∧ s.pixCount = 0 ∧ s.load.r = s.load.rows ∧ s.featCount.toNat < s.cfg.maxFeatures ∧
      t = commitFeature s) ∨
    ∃ e, isTerminal s.phase = false ∧ t = raise e (headerOf .featEnd) s := by
  rcases guarded_cases hx with ⟨-, h⟩ | ⟨ht, hl, h⟩ | ⟨ht, -, h⟩
  · exact .inl h
  · by_cases h1 : s.pixCount ≠ 0
    · rw [if_pos h1] at h; cases h; exact .inr (.inr ⟨_, ht, rfl⟩)
    rw [if_neg h1] at h
    by_cases h2 : s.load.r ≠ s.load.rows
    · rw [if_pos h2] at h; cases h; exact .inr (.inr ⟨_, ht, rfl⟩)
    rw [if_neg h2] at h
    split at h
    · cases h
    split at h
    · cases h
    next h4 =>
    cases h
    exact .inr (.inl ⟨by simpa [loadingOnly] using hl, by simpa using h1, by simpa using h2, by omega, rfl⟩)
  · exact .inr (.inr ⟨_, ht, h⟩)

/-- The phases of a row command. -/
theorem rowPhases_cases {p : Phase} (h : rowPhases p = true) : p = .loading ∨ p = .scanning := by
  cases p <;> simp [rowPhases] at h ⊢

theorem execPixels_cases {n : BitVec 6} {p : Word} {s t : State} (hx : execPixels n p s = .next t) :
    t = s ∨
    ((s.phase = .loading ∨ s.phase = .scanning) ∧ (1 ≤ n.toNat ∧ n.toNat ≤ 32) ∧
      s.pixCount.toNat + n.toNat ≤ rowLen s ∧ stageWordMissing n.toNat s = false ∧
      t = packPixels (payloadPixels n.toNat p) s) ∨
    ∃ e, isTerminal s.phase = false ∧ t = raise e (headerOf (.pixels n p)) s := by
  unfold execPixels at hx
  split at hx
  · cases hx; exact .inl rfl
  next ht =>
  have ht : isTerminal s.phase = false := by simpa using ht
  split at hx
  · cases hx; exact .inr (.inr ⟨_, ht, rfl⟩)
  next hb =>
  have hn : 1 ≤ n.toNat ∧ n.toNat ≤ 32 := by
    simp only [badCount, Bool.or_eq_true, beq_iff_eq, decide_eq_true_eq, not_or] at hb
    have h0 : n.toNat ≠ 0 := fun h => hb.1 (by apply BitVec.eq_of_toNat_eq; simpa using h)
    omega
  rcases guarded_cases hx with ⟨-, h⟩ | ⟨-, hl, h⟩ | ⟨-, -, h⟩
  · exact .inl h
  · unfold pixelsBody at h
    split at h
    · cases h; exact .inr (.inr ⟨_, ht, rfl⟩)
    split at h
    · cases h
    next h1 h2 =>
    cases h
    exact .inr (.inl ⟨rowPhases_cases hl, hn, by omega, by simpa using h2, rfl⟩)
  · exact .inr (.inr ⟨_, ht, h⟩)

/-- The two ways a feature row is committed or refused (42_feature.md R191). -/
theorem featureRowCommit_cases {h : Word} {s t : State} (hx : featureRowCommit h s = .next t) :
    (s.load.r = s.load.rows ∧ t = raise .loadRowCount h s) ∨
    (s.load.r ≠ s.load.rows ∧ s.load.cols32.toNat ≤ s.cfg.stageWords ∧
      commitAddr s + s.load.cols32.toNat ≤ s.cfg.featMemWords ∧ t = clearRow (commitRow s)) := by
  unfold featureRowCommit at hx
  split at hx
  · next h1 => cases hx; exact .inl ⟨h1, rfl⟩
  next h1 =>
  split at hx
  · cases hx
  split at hx
  · cases hx
  cases hx
  exact .inr ⟨h1, by omega, by omega, rfl⟩

/-- A scan row that answers a next state is scan_row, then the row's end (41_row_codec.md R172). -/
theorem scanRowEnd_cases {s t : State} (hx : scanRowEnd s = .next t) :
    scanRowFault s = none ∧ t = clearRow (scanRow s) := by
  unfold scanRowEnd at hx
  split at hx
  · cases hx
  · next h => cases hx; exact ⟨h, rfl⟩

theorem execRowEnd_cases {s t : State} (hx : execRowEnd s = .next t) :
    t = s ∨
    (s.phase = .loading ∧ s.pixCount.toNat = s.load.cols.toNat ∧ s.load.r ≠ s.load.rows ∧
      s.load.cols32.toNat ≤ s.cfg.stageWords ∧ commitAddr s + s.load.cols32.toNat ≤ s.cfg.featMemWords ∧
      t = clearRow (commitRow s)) ∨
    (s.phase = .scanning ∧ s.pixCount.toNat = s.imgWidth.toNat ∧ scanRowFault s = none ∧ t = clearRow (scanRow s)) ∨
    ∃ e, isTerminal s.phase = false ∧ t = raise e (headerOf .rowEnd) s := by
  rcases guarded_cases hx with ⟨-, h⟩ | ⟨ht, hl, h⟩ | ⟨ht, -, h⟩
  · exact .inl h
  · unfold rowEndBody at h
    split at h
    · cases h; exact .inr (.inr (.inr ⟨_, ht, rfl⟩))
    next hp =>
    have hp : s.pixCount.toNat = rowLen s := by simpa using hp
    split at h
    · next hph =>
      rcases featureRowCommit_cases h with ⟨-, h⟩ | ⟨h1, h2, h3, h⟩
      · exact .inr (.inr (.inr ⟨_, ht, h⟩))
      · exact .inr (.inl ⟨hph, by simpa [rowLen, hph] using hp, h1, h2, h3, h⟩)
    · next hph =>
      have hs : s.phase = .scanning := (rowPhases_cases hl).resolve_left hph
      obtain ⟨h1, h2⟩ := scanRowEnd_cases h
      exact .inr (.inr (.inl ⟨hs, by simpa [rowLen, hph] using hp, h1, h2⟩))
  · exact .inr (.inr (.inr ⟨_, ht, h⟩))

theorem execStreamEnd_cases {s t : State} (hx : execStreamEnd s = .next t) :
    t = s ∨ ∃ e, isTerminal s.phase = false ∧ t = raise e (headerOf .streamEnd) s := by
  rcases guarded_cases hx with ⟨-, h⟩ | ⟨ht, -, h⟩ | ⟨ht, -, h⟩
  · exact .inl h
  · cases h; exact .inr ⟨_, ht, rfl⟩
  · exact .inr ⟨_, ht, h⟩

theorem execScanStart_cases {s t : State} (hx : execScanStart s = .next t) :
    t = s ∨
    (s.phase = .config ∧ s.featCount ≠ 0 ∧ s.featCount.toNat ≤ s.cfg.maxFeatures ∧
      s.imgCols32.toNat ≤ s.cfg.maxCols32 ∧ t = startScan s) ∨
    ∃ e, isTerminal s.phase = false ∧ t = raise e (headerOf .scanStart) s := by
  rcases guarded_cases hx with ⟨-, h⟩ | ⟨ht, hl, h⟩ | ⟨ht, -, h⟩
  · exact .inl h
  · by_cases h1 : s.featCount = 0
    · rw [if_pos h1] at h; cases h; exact .inr (.inr ⟨_, ht, rfl⟩)
    rw [if_neg h1] at h
    split at h
    · cases h
    split at h
    · cases h
    cases h
    exact .inr (.inl ⟨by simpa [configOnly] using hl, h1, by omega, by omega, rfl⟩)
  · exact .inr (.inr ⟨_, ht, h⟩)

/-- The two ends of a scan row's search (44_scan_engine.md R243, R244). -/
theorem searchRow_cases (s : State) :
    (∃ k n, search s (candidates s) s.candCount = (n, some k) ∧ searchRow s = enterFound k { s with candCount := n }) ∨
    (∃ n, search s (candidates s) s.candCount = (n, none) ∧ searchRow s = advanceRow { s with candCount := n }) := by
  unfold searchRow
  rcases h : search s (candidates s) s.candCount with ⟨n, k⟩
  cases k with
  | none => exact .inr ⟨n, rfl, rfl⟩
  | some k => exact .inl ⟨k, n, rfl, rfl⟩

/-- What a host move can be (20_memory.md R88, 40_control.md R150, R151). -/
theorem hostMove_cases (s : State) :
    hostMove s = s ∨ ∃ a rest, s.host = a :: rest ∧ stalls s a = false ∧ hostMove s = access a { s with host := rest } := by
  unfold hostMove
  split
  · exact .inl rfl
  · next a rest h =>
    cases hs : stalls s a with
    | true => simp
    | false => exact .inr ⟨a, rest, h, hs, by simp⟩

/-- What the register part of a write can be (40_control.md R151). -/
theorem regWrite_cases (off : Nat) (v : Word) (s : State) :
    (off = 0x20 ∧ v.getLsbD 1 = true ∧ regWrite off v s = srst v s) ∨
    (off = 0x20 ∧ v.getLsbD 1 = false ∧ regWrite off v s = { s with irqEn := v.getLsbD 0 }) ∨
    (off = 0x28 ∧ regWrite off v s = pushCmd v s) ∨ (off = 0x80 ∧ regWrite off v s = writeFeatSel v s) ∨
    (off ≠ 0x20 ∧ off ≠ 0x28 ∧ off ≠ 0x80 ∧ regWrite off v s = s) := by
  unfold regWrite
  by_cases h1 : off = 0x20
  · cases hv : v.getLsbD 1 with
    | true => exact .inl ⟨h1, rfl, by rw [if_pos h1, writeCtrl, if_pos hv]⟩
    | false => exact .inr (.inl ⟨h1, rfl, by rw [if_pos h1, writeCtrl, hv]; rfl⟩)
  · by_cases h2 : off = 0x28
    · simp [h2]
    · by_cases h3 : off = 0x80
      · simp [h3]
      · simp [h1, h2, h3]

/-- What a core move can be (30_encoding.md R115, R116). -/
theorem coreMove_cases {s t : State} (hx : coreMove s = .next t) :
    (s.fifo = [] ∧ t = s) ∨
    ∃ w ws, s.fifo = w :: ws ∧
      ((s.parse = .header ∧ takesPayload w = true ∧ t = { takeWord s with parse := .payload w }) ∨
       ∃ h p, ((s.parse = .header ∧ takesPayload w = false ∧ h = w) ∨ s.parse = .payload h) ∧
        ((∃ i, decodeCommand h p = .ok i ∧ exec i { takeWord s with parse := .header } = .next t) ∨
         (∃ e, decodeCommand h p = .error e ∧ t = rejectWord e h { takeWord s with parse := .header }))) := by
  unfold coreMove at hx
  split at hx
  · next h => cases hx; exact .inl ⟨h, rfl⟩
  next w ws hf =>
  refine .inr ⟨w, ws, hf, ?_⟩
  have hrun : ∀ h p u, execute h p u = .next t →
      (∃ i, decodeCommand h p = .ok i ∧ exec i u = .next t) ∨ (∃ e, decodeCommand h p = .error e ∧ t = rejectWord e h u) := by
    intro h p u hu
    unfold execute at hu
    split at hu
    · next i hi => exact .inl ⟨i, hi, hu⟩
    · next e he => cases hu; exact .inr ⟨e, he, rfl⟩
  unfold parseWord at hx
  split at hx
  · next h hp =>
    rw [takeWord_parse] at hp
    exact .inr ⟨h, w, .inr hp, hrun h w _ hx⟩
  · next hp =>
    rw [takeWord_parse] at hp
    split at hx
    · next ht => cases hx; exact .inl ⟨hp, ht, rfl⟩
    · next ht =>
      have hs : ({ takeWord s with parse := .header } : State) = takeWord s := by
        rw [← hp, ← takeWord_parse]
      rw [hs]
      exact .inr ⟨w, 0#32, .inl ⟨hp, by simpa using ht, rfl⟩, hrun w 0#32 _ hx⟩

/-- What a step can be (70_reset_and_hazards.md R340). -/
theorem advance_cases {s t : State} (hx : advance s = .next t) :
    (∃ rest, s.schedule = .core :: rest ∧ coreMove { s with schedule := rest } = .next t) ∨
    (∃ rest, s.schedule = .host :: rest ∧ t = hostMove { s with schedule := rest }) ∨
    (∃ rest, s.schedule = .hardReset :: rest ∧ t = hardReset { s with schedule := rest }) ∨
    (s.schedule = [] ∧ s.fifo = [] ∧ t = hostMove s) ∨ (s.schedule = [] ∧ s.fifo ≠ [] ∧ coreMove s = .next t) := by
  unfold advance at hx
  split at hx
  · next rest h => exact .inl ⟨rest, h, hx⟩
  · next rest h => cases hx; exact .inr (.inl ⟨rest, h, rfl⟩)
  · next rest h => cases hx; exact .inr (.inr (.inl ⟨rest, h, rfl⟩))
  · next h =>
    split at hx
    · next hf => cases hx; exact .inr (.inr (.inr (.inl ⟨h, by simpa using hf, rfl⟩)))
    · next hf => exact .inr (.inr (.inr (.inr ⟨h, by simpa using hf, hx⟩)))

end Sys2Proof.Machine
end

