-- ==== Sys2Proof/Laws/Encoding.lean ====
section
/-! SUPPORT. The fields of a header built by each format (30_encoding.md R111), and the opcode of every command. -/

namespace Sys2Proof

theorem opcOf_headerH0 (opc : BitVec 8) : opcOf (headerH0 opc) = opc := by
  apply BitVec.eq_of_getLsbD_eq
  intro i hi
  simp [opcOf, headerH0, show 24 + i < 32 by omega, hi]

theorem immOf_headerH0 (opc : BitVec 8) : immOf (headerH0 opc) = 0#24 := by
  apply BitVec.eq_of_getLsbD_eq
  intro i hi
  simp [immOf, headerH0]
  omega

theorem opcOf_headerHW (opc : BitVec 8) (val : BitVec 24) : opcOf (headerHW opc val) = opc := by
  apply BitVec.eq_of_getLsbD_eq
  intro i hi
  simp [opcOf, headerHW, show 24 + i < 32 by omega, hi]

theorem immOf_headerHW (opc : BitVec 8) (val : BitVec 24) : immOf (headerHW opc val) = val := by
  apply BitVec.eq_of_getLsbD_eq
  intro i hi
  simp [immOf, headerHW, show i < 32 by omega, hi]

theorem opcOf_headerHF (opc : BitVec 8) (rows cols : BitVec 12) : opcOf (headerHF opc rows cols) = opc := by
  apply BitVec.eq_of_getLsbD_eq
  intro i hi
  simp [opcOf, headerHF, show 24 + i < 32 by omega, hi, BitVec.getLsbD_of_ge rows (24 + i - 12) (by omega),
    BitVec.getLsbD_of_ge cols (24 + i) (by omega)]

theorem rowsOf_headerHF (opc : BitVec 8) (rows cols : BitVec 12) : rowsOf (headerHF opc rows cols) = rows := by
  apply BitVec.eq_of_getLsbD_eq
  intro i hi
  simp [rowsOf, headerHF, show 12 + i < 32 by omega, show 12 + i < 24 by omega, hi]

theorem colsOf_headerHF (opc : BitVec 8) (rows cols : BitVec 12) : colsOf (headerHF opc rows cols) = cols := by
  apply BitVec.eq_of_getLsbD_eq
  intro i hi
  simp [colsOf, headerHF, show i < 32 by omega, show i < 24 by omega, hi]

theorem opcOf_headerHP (opc : BitVec 8) (n : BitVec 6) : opcOf (headerHP opc n) = opc := by
  apply BitVec.eq_of_getLsbD_eq
  intro i hi
  simp [opcOf, headerHP, show 24 + i < 32 by omega, hi, BitVec.getLsbD_of_ge n (24 + i) (by omega)]

theorem reservedOf_headerHP (opc : BitVec 8) (n : BitVec 6) : reservedOf (headerHP opc n) = 0#18 := by
  apply BitVec.eq_of_getLsbD_eq
  intro i hi
  simp [reservedOf, headerHP]
  omega

theorem countOf_headerHP (opc : BitVec 8) (n : BitVec 6) : countOf (headerHP opc n) = n := by
  apply BitVec.eq_of_getLsbD_eq
  intro i hi
  simp [countOf, headerHP, show i < 32 by omega, show i < 24 by omega, hi]

/-- The opcode of each command (30_encoding.md R113). -/
theorem opcOf_headerOf (i : Instr) :
    opcOf (headerOf i) =
      match i with
      | .nop => 0x00#8
      | .softReset => 0x01#8
      | .setWidth _ => 0x02#8
      | .setHeight _ => 0x03#8
      | .featBegin _ _ => 0x10#8
      | .featEnd => 0x11#8
      | .pixels _ _ => 0x20#8
      | .rowEnd => 0x21#8
      | .streamEnd => 0x22#8
      | .scanStart => 0x30#8 := by
  cases i <;> simp [headerOf, opcOf_headerH0, opcOf_headerHW, opcOf_headerHF, opcOf_headerHP]

end Sys2Proof
end

