-- ==== Sys2Proof/Laws/Memory.lean ====
section
/-! SUPPORT. The laws of the internal memories: what a read answers after a write, and that every operation keeps the canonical
form and the bounds of its space. The read laws hold for every list, canonical or not. -/

namespace Sys2Proof.Machine

variable {α : Type}

theorem memRead_memErase (d : α) (m : Mem α) (a b : Nat) :
    memRead d (memErase m a) b = if b = a then d else memRead d m b := by
  induction m with
  | nil => simp [memErase, memRead]
  | cons e m ih =>
    obtain ⟨k, v⟩ := e
    simp only [memErase, List.filter_cons] at ih ⊢
    by_cases hk : k = a
    · subst hk
      by_cases hb : b = k
      · subst hb; simpa using ih
      · simp [ih, hb, memRead, Ne.symm hb]
    · by_cases hb : b = a
      · subst hb; simp [hk, memRead, ih]
      · simp [hk, memRead, ih, hb]

theorem memRead_memInsert (d : α) (m : Mem α) (a b : Nat) (v : α) (h : ∀ e ∈ m, e.1 ≠ a) :
    memRead d (memInsert a v m) b = if b = a then v else memRead d m b := by
  induction m with
  | nil => simp only [memInsert, memRead, eq_comm]
  | cons e m ih =>
    obtain ⟨k, w⟩ := e
    have hk : k ≠ a := h (k, w) (by simp)
    have ih := ih fun e he => h e (List.mem_cons_of_mem _ he)
    by_cases hlt : a < k
    · simp only [memInsert, hlt, if_true, memRead, eq_comm]
    · by_cases hb : b = a
      · subst hb; simp [memInsert, hlt, memRead, hk, ih]
      · simp [memInsert, hlt, memRead, ih, hb]

theorem not_mem_memErase (m : Mem α) (a : Nat) : ∀ e ∈ memErase m a, e.1 ≠ a := by
  intro e he
  simpa [memErase] using (List.mem_filter.1 he).2

/-- A read after a write: the value written at its address, the old content elsewhere. -/
theorem memRead_memWrite [DecidableEq α] (d : α) (m : Mem α) (a b : Nat) (v : α) :
    memRead d (memWrite d m a v) b = if b = a then v else memRead d m b := by
  unfold memWrite
  split
  · next h => rw [memRead_memErase, h]
  · rw [memRead_memInsert d _ a b v (not_mem_memErase m a), memRead_memErase]
    split <;> rfl

/-- A read after a block write: the value of the block inside it, the old content outside. -/
theorem memRead_memWriteBlock [DecidableEq α] (d : α) (m : Mem α) (a b : Nat) (vs : List α) :
    memRead d (memWriteBlock d m a vs) b =
      if a ≤ b ∧ b < a + vs.length then vs.getD (b - a) d else memRead d m b := by
  induction vs generalizing m a with
  | nil => simp [memWriteBlock]
  | cons v vs ih =>
    rw [memWriteBlock, ih, memRead_memWrite]
    by_cases hb : b = a
    · subst hb; simp
    · by_cases hin : a + 1 ≤ b ∧ b < a + 1 + vs.length
      · have hout : a ≤ b ∧ b < a + (v :: vs).length := by simp only [List.length_cons]; omega
        rw [if_pos hin, if_pos hout, show b - a = (b - (a + 1)) + 1 by omega, List.getD_cons_succ]
      · have hout : ¬(a ≤ b ∧ b < a + (v :: vs).length) := by simp only [List.length_cons]; omega
        rw [if_neg hin, if_neg hout, if_neg hb]

theorem memWf_memErase {d : α} {m : Mem α} (h : memWf d m) (a : Nat) : memWf d (memErase m a) :=
  ⟨h.1.filter _, fun e he => h.2 e (List.mem_of_mem_filter he)⟩

theorem mem_memInsert {a : Nat} {v : α} {m : Mem α} {e : Nat × α} (he : e ∈ memInsert a v m) :
    e = (a, v) ∨ e ∈ m := by
  induction m with
  | nil => simpa [memInsert] using he
  | cons x m ih =>
    obtain ⟨k, w⟩ := x
    unfold memInsert at he
    split at he
    · simpa using he
    · rcases List.mem_cons.1 he with rfl | he
      · simp
      · rcases ih he with h | h <;> simp [h]

theorem memWf_memInsert {d : α} {m : Mem α} {a : Nat} {v : α} (h : memWf d m) (hv : v ≠ d) (ha : ∀ e ∈ m, e.1 ≠ a) :
    memWf d (memInsert a v m) := by
  refine ⟨?_, ?_⟩
  · have hp := h.1
    clear h
    induction m with
    | nil => simp [memInsert]
    | cons x m ih =>
      obtain ⟨k, w⟩ := x
      obtain ⟨hk, hp⟩ := List.pairwise_cons.1 hp
      unfold memInsert
      split
      · next hlt =>
        refine List.pairwise_cons.2 ⟨fun e he => ?_, List.pairwise_cons.2 ⟨hk, hp⟩⟩
        rcases List.mem_cons.1 he with rfl | he
        · exact hlt
        · exact Nat.lt_trans hlt (hk e he)
      · next hge =>
        refine List.pairwise_cons.2 ⟨fun e he => ?_, ih (fun e he => ha e (List.mem_cons_of_mem _ he)) hp⟩
        have hka : k ≠ a := ha (k, w) (by simp)
        rcases mem_memInsert he with rfl | he
        · show k < a
          omega
        · exact hk e he
  · intro e he
    rcases mem_memInsert he with rfl | he
    · exact hv
    · exact h.2 e he

/-- A write keeps the canonical form. -/
theorem memWf_memWrite [DecidableEq α] {d : α} {m : Mem α} (h : memWf d m) (a : Nat) (v : α) :
    memWf d (memWrite d m a v) := by
  unfold memWrite
  split
  · exact memWf_memErase h a
  · next hv => exact memWf_memInsert (memWf_memErase h a) hv (not_mem_memErase m a)

/-- A block write keeps the canonical form. -/
theorem memWf_memWriteBlock [DecidableEq α] {d : α} {m : Mem α} (h : memWf d m) (a : Nat) (vs : List α) :
    memWf d (memWriteBlock d m a vs) := by
  induction vs generalizing m a with
  | nil => exact h
  | cons v vs ih => exact ih (memWf_memWrite h a v) (a + 1)

/-- A reset keeps the canonical form. -/
theorem memWf_afterReset {d : α} {m : Mem α} (cfg : Config) (h : memWf d m) : memWf d (afterReset cfg m) := by
  unfold afterReset
  split
  · simp [memWf]
  · exact h

theorem memWithin_memWrite [DecidableEq α] {d : α} {m : Mem α} {n a : Nat} (h : memWithin m n) (ha : a < n) (v : α) :
    memWithin (memWrite d m a v) n := by
  intro e he
  unfold memWrite at he
  split at he
  · exact h e (List.mem_of_mem_filter he)
  · rcases mem_memInsert he with rfl | he
    · exact ha
    · exact h e (List.mem_of_mem_filter he)

theorem memWithin_memWriteBlock [DecidableEq α] {d : α} {m : Mem α} {n a : Nat} {vs : List α} (h : memWithin m n)
    (ha : a + vs.length ≤ n) : memWithin (memWriteBlock d m a vs) n := by
  induction vs generalizing m a with
  | nil => exact h
  | cons v vs ih =>
    simp only [List.length_cons] at ha
    exact ih (memWithin_memWrite h (by omega) v) (by omega)

theorem memWithin_afterReset {m : Mem α} {n : Nat} (cfg : Config) (h : memWithin m n) :
    memWithin (afterReset cfg m) n := by
  unfold afterReset
  split
  · simp [memWithin]
  · exact h

/-- An address at or above every listed one reads as unlisted. -/
theorem memRead_of_memWithin {d : α} {m : Mem α} {n a : Nat} (h : memWithin m n) (ha : n ≤ a) : memRead d m a = d := by
  induction m with
  | nil => rfl
  | cons e m ih =>
    obtain ⟨k, v⟩ := e
    have hk : k < n := h (k, v) (by simp)
    rw [memRead, if_neg (by omega)]
    exact ih fun e he => h e (List.mem_cons_of_mem _ he)

end Sys2Proof.Machine
end

