-- ==== Sys2Proof/Laws/Pack.lean ====
section
/-! SUPPORT. The laws of the row packer's shift: the bits of a shifted-in value, the pixels of a packed word, and what a list of
pixels entering the packer can change. -/

namespace Sys2Proof.Machine

theorem getLsbD_shiftIn (v : Word) (b : Bool) (i : Nat) (hi : i < 32) :
    (shiftIn v b).getLsbD i = if i = 0 then b else v.getLsbD (i - 1) := by
  by_cases h0 : i = 0
  · subst h0; simp [shiftIn]
  · have h1 : ¬ i < 1 := by omega
    simp [shiftIn, hi, h0, h1, BitVec.getLsbD_eq_getElem (show i - 1 < 32 by omega)]

/-- The bits after shifting in a list of values, the last one in bit 0. -/
theorem getLsbD_foldl_shiftIn {β : Type} (l : List β) (f : β → Bool) (v : Word) (i : Nat) (hi : i < 32) :
    (l.foldl (fun w x => shiftIn w (f x)) v).getLsbD i =
      if i < l.length then (l.map f).getD (l.length - 1 - i) false else v.getLsbD (i - l.length) := by
  induction l generalizing v with
  | nil => simp
  | cons x l ih =>
    rw [List.foldl_cons, ih]
    by_cases h : i < l.length
    · rw [if_pos h, if_pos (by simp; omega), List.map_cons,
        show (x :: l).length - 1 - i = (l.length - 1 - i) + 1 by simp only [List.length_cons]; omega, List.getD_cons_succ]
    · rw [if_neg h, getLsbD_shiftIn v (f x) _ (by omega)]
      by_cases h2 : i = l.length
      · subst h2; simp
      · rw [if_neg (show ¬ i - l.length = 0 by omega), if_neg (by simp; omega)]
        congr 1

/-- Pixel `j` of a packed word is the `j`-th pixel packed (00_scope.md R11). -/
theorem pixelOf_packWord (px : Nat → Bool) (j : Nat) (hj : j < 32) : pixelOf (packWord px) j = px j := by
  unfold pixelOf packWord
  rw [getLsbD_foldl_shiftIn _ _ _ _ (by omega)]
  simp only [List.length_range]
  rw [if_pos (by omega), show 32 - 1 - (31 - j) = j by omega]
  simp [List.getD, hj]

/-- Two words with the same 32 pixels are equal. -/
theorem eq_of_pixelOf_eq {v w : Word} (h : ∀ j, j < 32 → pixelOf v j = pixelOf w j) : v = w := by
  apply BitVec.eq_of_getLsbD_eq
  intro i hi
  have := h (31 - i) (by omega)
  rwa [pixelOf, pixelOf, show 31 - (31 - i) = i by omega] at this

/-- The packer writes ACC, PIX_COUNT and STAGE alone (41_row_codec.md R171, R173). -/
theorem packPixels_frame (px : List Bool) (s : State) :
    packPixels px s =
      { s with acc := (packPixels px s).acc, pixCount := (packPixels px s).pixCount, stage := (packPixels px s).stage } := by
  induction px generalizing s with
  | nil => rfl
  | cons b px ih =>
    have h := ih (packStep s b)
    rw [packPixels, List.foldl_cons, ← packPixels]
    rw [h]
    rfl

theorem packPixels_acc (px : List Bool) (s : State) : (packPixels px s).acc = px.foldl shiftIn s.acc := by
  induction px generalizing s with
  | nil => rfl
  | cons b px ih => simpa [packPixels] using ih (packStep s b)

theorem packPixels_pixCount (px : List Bool) (s : State) :
    (packPixels px s).pixCount = s.pixCount + BitVec.ofNat 24 px.length := by
  induction px generalizing s with
  | nil => simp [packPixels]
  | cons b px ih =>
    have h := ih (packStep s b)
    simp only [packPixels, List.foldl_cons] at h ⊢
    rw [h, packStep_pixCount, BitVec.add_assoc]
    congr 1
    apply BitVec.eq_of_toNat_eq
    simp [Nat.add_comm]

theorem packPixels_append (px qx : List Bool) (s : State) :
    packPixels (px ++ qx) s = packPixels qx (packPixels px s) := by
  simp [packPixels]

/-- The words a row keeps are settled before its pixels enter. -/
theorem rowWords_packPixels (px : List Bool) (s : State) : rowWords (packPixels px s) = rowWords s := by
  rw [packPixels_frame]; rfl

theorem rowLen_packPixels (px : List Bool) (s : State) : rowLen (packPixels px s) = rowLen s := by
  rw [packPixels_frame]; rfl

/-! ## STAGE while pixels enter -/

/-- STAGE after one pack_step (41_row_codec.md R170). -/
theorem stageRead_packStep (s : State) (b : Bool) (k : Nat) :
    stageRead (packStep s b) k =
      if s.pixCount.toNat = 32 * k + 31 ∧ k < rowWords s then shiftIn s.acc b else stageRead s k := by
  show memRead unlistedWord (if s.pixCount.toNat % 32 = 31 ∧ s.pixCount.toNat / 32 < rowWords s then
    memWrite unlistedWord s.stage (s.pixCount.toNat / 32) (shiftIn s.acc b) else s.stage) k = _
  split
  · next h =>
    rw [memRead_memWrite]
    by_cases hk : k = s.pixCount.toNat / 32
    · rw [if_pos hk, if_pos (by omega)]
    · rw [if_neg hk, if_neg (by omega)]; rfl
  · next h => rw [if_neg (by omega)]; rfl

theorem toNat_pixCount_packStep (s : State) (b : Bool) (h : s.pixCount.toNat + 1 < 2 ^ 24) :
    (packStep s b).pixCount.toNat = s.pixCount.toNat + 1 := by
  show (s.pixCount + 1#24).toNat = _
  rw [BitVec.toNat_add]
  simp
  omega

/-- STAGE after a list of pixels: word `k` is stored when its last pixel is among them and the row keeps it, and holds the 32 pixels
up to that one, those before the list out of ACC (41_row_codec.md R170, R171). -/
theorem stageRead_packPixels (px : List Bool) (s : State) (k : Nat) (hn : s.pixCount.toNat + px.length < 2 ^ 24) :
    if s.pixCount.toNat ≤ 32 * k + 31 ∧ 32 * k + 31 < s.pixCount.toNat + px.length ∧ k < rowWords s then
      ∀ b, b < 32 → (stageRead (packPixels px s) k).getLsbD b =
        if b < 32 * k + 32 - s.pixCount.toNat then px.getD (32 * k + 31 - b - s.pixCount.toNat) false
        else s.acc.getLsbD (b - (32 * k + 32 - s.pixCount.toNat))
    else stageRead (packPixels px s) k = stageRead s k := by
  induction px generalizing s with
  | nil => rw [if_neg (by simp; omega)]; rfl
  | cons q px ih =>
    simp only [List.length_cons] at hn
    have hc := toNat_pixCount_packStep s q (by omega)
    have ih := ih (packStep s q) (by omega)
    rw [hc, show rowWords (packStep s q) = rowWords s from rfl, stageRead_packStep] at ih
    have hp : packPixels (q :: px) s = packPixels px (packStep s q) := rfl
    rw [hp, List.length_cons]
    by_cases hin : s.pixCount.toNat + 1 ≤ 32 * k + 31 ∧ 32 * k + 31 < s.pixCount.toNat + 1 + px.length ∧ k < rowWords s
    · rw [if_pos hin] at ih
      rw [if_pos (by omega)]
      intro b hb
      rw [ih b hb]
      by_cases h1 : b < 32 * k + 32 - (s.pixCount.toNat + 1)
      · rw [if_pos h1, if_pos (by omega),
          show 32 * k + 31 - b - s.pixCount.toNat = (32 * k + 31 - b - (s.pixCount.toNat + 1)) + 1 by omega,
          List.getD_cons_succ]
      · rw [if_neg h1, show (packStep s q).acc = shiftIn s.acc q from rfl, getLsbD_shiftIn _ _ _ (by omega)]
        by_cases h2 : b < 32 * k + 32 - s.pixCount.toNat
        · rw [if_pos h2, if_pos (by omega), show 32 * k + 31 - b - s.pixCount.toNat = 0 by omega]
          rfl
        · rw [if_neg h2, if_neg (by omega)]
          congr 1
          omega
    · rw [if_neg hin] at ih
      rw [ih]
      by_cases h1 : s.pixCount.toNat = 32 * k + 31 ∧ k < rowWords s
      · rw [if_pos h1, if_pos (by omega)]
        intro b hb
        rw [getLsbD_shiftIn _ _ _ hb]
        by_cases h2 : b = 0
        · rw [if_pos h2, if_pos (by omega), show 32 * k + 31 - b - s.pixCount.toNat = 0 by omega]
          rfl
        · rw [if_neg h2, if_neg (by omega)]
          congr 1
          omega
      · rw [if_neg h1, if_neg (by omega)]

end Sys2Proof.Machine
end

