-- ==== Sys2Proof/Laws/PerInstr.lean ====
section
/-! SUPPORT. Statements made once per command. Family Length: the header alone gives the number of words (30_encoding.md R110). -/


namespace Sys2Proof.Laws

/-- A command has as many words as its header says. -/
def Length.Statement (i : Instr) : Prop := (encode i).length = commandWords (headerOf i)

theorem Length.nop : Length.Statement .nop := rfl
theorem Length.softReset : Length.Statement .softReset := rfl
theorem Length.setWidth (val : BitVec 24) : Length.Statement (.setWidth val) := by
  simp [Length.Statement, encode, commandWords, takesPayload, opcOf_headerOf]
theorem Length.setHeight (val : BitVec 24) : Length.Statement (.setHeight val) := by
  simp [Length.Statement, encode, commandWords, takesPayload, opcOf_headerOf]
theorem Length.featBegin (rows cols : BitVec 12) : Length.Statement (.featBegin rows cols) := by
  simp [Length.Statement, encode, commandWords, takesPayload, opcOf_headerOf]
theorem Length.featEnd : Length.Statement .featEnd := rfl
theorem Length.pixels (n : BitVec 6) (payload : Word) : Length.Statement (.pixels n payload) := by
  simp [Length.Statement, encode, commandWords, takesPayload, opcOf_headerOf]
theorem Length.rowEnd : Length.Statement .rowEnd := rfl
theorem Length.streamEnd : Length.Statement .streamEnd := rfl
theorem Length.scanStart : Length.Statement .scanStart := rfl

end Sys2Proof.Laws
end

