-- ==== Sys2Proof/Laws/Scan.lean ====
section
/-! SUPPORT. The laws of the scan: the comparator's pixels, what storing a row and updating the signatures make of RB and SIG, the
search of a list of candidates, the tallest feature, and the feature row commit. -/

namespace Sys2Proof.Machine

/-! ## The comparator -/

/-- Pixel `j` of a funnel shift is pixel `o + j` of the two words side by side (42_feature.md R194). -/
theorem pixelOf_funnel (o : Nat) (v w : Word) (j : Nat) (ho : o < 32) (hj : j < 32) :
    pixelOf (funnel o v w) j = if o + j < 32 then pixelOf v (o + j) else pixelOf w (o + j - 32) := by
  unfold funnel pixelOf
  by_cases h0 : o = 0
  · subst h0; simp [hj]
  · rw [if_neg h0, BitVec.getLsbD_or, BitVec.getLsbD_shiftLeft, BitVec.getLsbD_ushiftRight]
    by_cases hs : o + j < 32
    · have h1 : v.getLsbD (31 - j - o) = v.getLsbD (31 - (o + j)) := by congr 1; omega
      have h2 : w.getLsbD (32 - o + (31 - j)) = false := BitVec.getLsbD_of_ge _ _ (by omega)
      simp [hs, h1, h2, show 31 - j < 32 by omega, show ¬ 31 - j < o by omega]
    · have h1 : w.getLsbD (32 - o + (31 - j)) = w.getLsbD (31 - (o + j - 32)) := by congr 1; omega
      simp [hs, h1, show 31 - j < o by omega]

/-! ## Storing a row and updating the signatures (44_scan_engine.md R241, R242) -/

theorem length_imageRowWords (s : State) : (imageRowWords s).length = s.imgCols32.toNat := by simp [imageRowWords]

theorem getD_imageRowWords (s : State) (c : Nat) (d : Word) (hc : c < s.imgCols32.toNat) :
    (imageRowWords s).getD c d = stageRead s c := by
  simp [imageRowWords, List.getD, hc]

/-- Within a line of `n` words, the place of a word determines its line and its number. -/
theorem line_eq_of_add_eq {n l l' c c' : Nat} (hc : c < n) (hc' : c' < n) (h : l * n + c = l' * n + c') : l = l' := by
  have h1 : (c + n * l) / n = l := by rw [Nat.add_mul_div_left _ _ (by omega), Nat.div_eq_of_lt hc, Nat.zero_add]
  have h2 : (c' + n * l') / n = l' := by rw [Nat.add_mul_div_left _ _ (by omega), Nat.div_eq_of_lt hc', Nat.zero_add]
  rw [← h1, ← h2, Nat.add_comm c, Nat.add_comm c', Nat.mul_comm n, Nat.mul_comm n, h]

/-- Word `c` of line `line` lies among the first `w` words of line `line'` exactly when the lines agree and `c < w`. -/
theorem rbAddr_mem_line (cfg : Config) (line line' c w : Nat) (hw : w ≤ cfg.maxCols32) (hc : c < cfg.maxCols32) :
    (rbAddr cfg line' 0 ≤ rbAddr cfg line c ∧ rbAddr cfg line c < rbAddr cfg line' 0 + w) ↔ line = line' ∧ c < w := by
  unfold rbAddr
  constructor
  · rintro ⟨h1, h2⟩
    have hl : line = line' :=
      line_eq_of_add_eq (n := cfg.maxCols32) (c := c) (c' := line * cfg.maxCols32 + c - line' * cfg.maxCols32) hc
        (by omega) (by omega)
    subst hl
    exact ⟨rfl, by omega⟩
  · rintro ⟨rfl, h⟩
    omega

/-- What RB holds after the row is stored. -/
theorem rbRead_storeRow (s : State) (line c : Nat) (hw : s.imgCols32.toNat ≤ s.cfg.maxCols32) (hc : c < s.cfg.maxCols32) :
    rbRead (storeRow s) line c =
      if line = currentLine s ∧ c < s.imgCols32.toNat then stageRead s c else rbRead s line c := by
  have hm := rbAddr_mem_line s.cfg line (currentLine s) c s.imgCols32.toNat hw hc
  show memRead unlistedWord (memWriteBlock unlistedWord s.rb (rbAddr s.cfg (currentLine s) 0) (imageRowWords s))
    (rbAddr s.cfg line c) = _
  rw [memRead_memWriteBlock, length_imageRowWords]
  by_cases h : line = currentLine s ∧ c < s.imgCols32.toNat
  · rw [if_pos (hm.2 h), if_pos h, h.1, show rbAddr s.cfg (currentLine s) c - rbAddr s.cfg (currentLine s) 0 = c by
      simp [rbAddr], getD_imageRowWords s c _ h.2]
  · rw [if_neg (fun h' => h (hm.1 h')), if_neg h]
    rfl

/-- What SIG holds after its update. -/
theorem sigRead_updateSignatures (s : State) (x : Nat) :
    sigRead (updateSignatures s) x =
      if x < 32 * s.imgCols32.toNat then shiftIn (sigRead s x) (pixelOf (stageRead s (x / 32)) (x % 32))
      else sigRead s x := by
  show memRead unlistedWord (memWriteBlock unlistedWord s.sig 0 (newSignatures s)) x = _
  rw [memRead_memWriteBlock]
  by_cases h : x < 32 * s.imgCols32.toNat
  · simp [newSignatures, h, List.getD]
  · simp only [newSignatures, List.length_map, List.length_range, Nat.zero_add]
    rw [if_neg (by omega), if_neg h]
    rfl

/-- What SIG holds after SCAN_START: every register is 0 (10_state.md R38, log 19). -/
theorem sigRead_startScan (s : State) (x : Nat) :
    sigRead (startScan s) x = if x < 32 * s.cfg.maxCols32 then 0#32 else sigRead s x := by
  show memRead unlistedWord (memWriteBlock unlistedWord s.sig 0 (List.replicate (32 * s.cfg.maxCols32) 0#32)) x = _
  rw [memRead_memWriteBlock]
  by_cases h : x < 32 * s.cfg.maxCols32
  · simp [h, List.getD]
  · simp only [List.length_replicate, Nat.zero_add]
    rw [if_neg (by omega), if_neg h]
    rfl

/-! ## The search (44_scan_engine.md R243) -/

/-- The match a search reports is the first candidate that matches. -/
theorem search_found (s : State) (ks : List Candidate) (n : BitVec 32) :
    (search s ks n).2 = ks.find? fun k => matchesAt s k.f k.o k.c s.rowY.toNat := by
  induction ks generalizing n with
  | nil => rfl
  | cons k ks ih =>
    unfold search
    cases h : matchesAt s k.f k.o k.c s.rowY.toNat <;> simp [h, ih]

/-- A match counts one comparison, saturating (10_state.md R54). -/
theorem toNat_countCandidate (n : BitVec 32) : (countCandidate n).toNat = min (2 ^ 32 - 1) (n.toNat + 1) := by
  unfold countCandidate
  have hlt := n.isLt
  split
  · next h => subst h; rfl
  · next h =>
    have hne : n.toNat ≠ 4294967295 := fun h' => h (by apply BitVec.eq_of_toNat_eq; simpa using h')
    rw [BitVec.toNat_add]
    simp
    omega

theorem mem_lookup (s : State) (key : Word) (f : Nat) :
    f ∈ lookup s key ↔ f < s.featCount.toNat ∧ (descRead s f).sig = key := by
  simp [lookup]

/-- The candidates at one position are features of its signature that fit (43_feature_index.md R221). -/
theorem mem_candidatesAt (s : State) (c o : Nat) (k : Candidate) :
    k ∈ candidatesAt s c o ↔
      k.c = c ∧ k.o = o ∧ k.f < s.featCount.toNat ∧ (descRead s k.f).sig = sigRead s (position c o) ∧
        fits s c k.f = true := by
  obtain ⟨kc, ko, kf⟩ := k
  simp only [candidatesAt, List.mem_map, List.mem_filter, mem_lookup, Candidate.mk.injEq]
  constructor
  · rintro ⟨f, ⟨⟨h1, h2⟩, h3⟩, rfl, rfl, rfl⟩
    exact ⟨rfl, rfl, h1, h2, h3⟩
  · rintro ⟨rfl, rfl, h1, h2, h3⟩
    exact ⟨kf, ⟨⟨h1, h2⟩, h3⟩, rfl, rfl, rfl⟩

/-! ## The tallest feature (44_scan_engine.md R240) -/

/-- Over the first `n` features, the fold of `tallest` is at least each one's height, and some feature's unless there is none. -/
theorem foldl_tallest (s : State) (n : Nat) :
    (∀ f, f < n → (descRead s f).rows.toNat ≤ ((List.range n).foldl
      (fun m f => if m.toNat < (descRead s f).rows.toNat then (descRead s f).rows else m) 0#12).toNat) ∧
    (n ≠ 0 → ∃ f, f < n ∧ (List.range n).foldl
      (fun m f => if m.toNat < (descRead s f).rows.toNat then (descRead s f).rows else m) 0#12 = (descRead s f).rows) := by
  induction n with
  | zero => simp
  | succ n ih =>
    obtain ⟨h1, h2⟩ := ih
    rw [List.range_succ, List.foldl_append, List.foldl_cons, List.foldl_nil]
    split
    · next h =>
      refine ⟨fun f hf => ?_, fun _ => ⟨n, by omega, rfl⟩⟩
      by_cases hfn : f = n
      · subst hfn; exact Nat.le_refl _
      · have := h1 f (by omega); omega
    · next h =>
      refine ⟨fun f hf => ?_, fun _ => ?_⟩
      · by_cases hfn : f = n
        · subst hfn; omega
        · exact h1 f (by omega)
      · by_cases hn : n = 0
        · subst hn
          refine ⟨0, by omega, ?_⟩
          apply BitVec.eq_of_toNat_eq
          simp at h ⊢
          simp [h]
        · obtain ⟨f, hf, he⟩ := h2 hn
          exact ⟨f, by omega, he⟩

theorem rows_le_tallest (s : State) (f : Nat) (hf : f < s.featCount.toNat) :
    (descRead s f).rows.toNat ≤ (tallest s).toNat := (foldl_tallest s _).1 f hf

theorem tallest_eq_rows (s : State) (h : s.featCount.toNat ≠ 0) :
    ∃ f, f < s.featCount.toNat ∧ tallest s = (descRead s f).rows := (foldl_tallest s _).2 h

/-! ## The feature row commit (42_feature.md R191) -/

/-- What FM holds after a feature row is committed. -/
theorem fmRead_commitRow (s : State) (a : Nat) :
    fmRead (commitRow s) a =
      if commitAddr s ≤ a ∧ a < commitAddr s + s.load.cols32.toNat then stageRead s (a - commitAddr s) else fmRead s a := by
  show memRead unlistedWord (memWriteBlock unlistedWord s.fm (commitAddr s) (featureRowWords s)) a = _
  rw [memRead_memWriteBlock]
  simp only [featureRowWords, List.length_map, List.length_range]
  split
  · next h => simp [List.getD, show a - commitAddr s < s.load.cols32.toNat by omega]
  · rfl

end Sys2Proof.Machine
end

