-- ==== Sys2Proof/Tests/Slice0.lean ====
section
/-! SUPPORT. Tests: words written out from 30_encoding.md, single steps with results from 95_test_vectors.md, and a witness for
every obligation that has hypotheses. -/

namespace Sys2Proof.Tests

open Sys2Proof.Machine Sys2Proof.Safety

/-! ## Well-formedness: an ill-formed term for each check (30_encoding.md R119) -/

theorem test_wellFormed_refuses_zero_pixels : (Instr.pixels 0#6 0#32).wellFormed = false := by decide
theorem test_wellFormed_refuses_33_pixels : (Instr.pixels 33#6 0#32).wellFormed = false := by decide
theorem test_wellFormed_admits_1_and_32_pixels :
    (Instr.pixels 1#6 0#32).wellFormed = true ∧ (Instr.pixels 32#6 0#32).wellFormed = true := by decide

/-! ## Decoding: words written bit by bit from R111 and R113 -/

theorem test_decode_nop : decodeTableWord 32 0b00000000_000000000000000000000000 = some .nop := by decide
theorem test_decode_softReset : decodeTableWord 32 0b00000001_000000000000000000000000 = some .softReset := by decide
theorem test_decode_setWidth : decodeTableWord 32 0b00000010_000000000000010000000001 = some (.setWidth 1025#24) := by decide
theorem test_decode_setHeight : decodeTableWord 32 0b00000011_111111111111111111111111 = some (.setHeight 0xFFFFFF#24) := by
  decide
theorem test_decode_featBegin :
    decodeTableWord 32 0b00010000_000001000001_000000100000 = some (.featBegin 65#12 32#12) := by decide
theorem test_decode_featEnd : decodeTableWord 32 0b00010001_000000000000000000000000 = some .featEnd := by decide
theorem test_decode_pixels :
    decodeTableWord 64 0b10101011110011011110000000000000_00100000_000000000000000000_010100 =
      some (.pixels 20#6 0xABCDE000#32) := by decide
theorem test_decode_rowEnd : decodeTableWord 32 0b00100001_000000000000000000000000 = some .rowEnd := by decide
theorem test_decode_streamEnd : decodeTableWord 32 0b00100010_000000000000000000000000 = some .streamEnd := by decide
theorem test_decode_scanStart : decodeTableWord 32 0b00110000_000000000000000000000000 = some .scanStart := by decide
theorem test_decode_refuses : decodeTableWord 32 0x00000001 = none ∧ decodeTableWord 32 0x04000000 = none ∧
    decodeTableWord 64 0x0000000020000041 = none ∧ decodeTableWord 32 0xFFFFFFFF = none := by decide

/-! ## Assembler (R120, R121) -/

theorem test_assemble_featBegin : lineWords (.featBegin 2 32) = some [0x10002020#32] := by decide
theorem test_assemble_refuses_wide_operand : lineWords (.setWidth 0x1000000) = none := by decide
theorem test_assemble_row :
    assembleLine (.row (List.replicate 33 true)) =
      some [0x20000020#32, 0xFFFFFFFF#32, 0x20000001#32, 0x80000000#32, 0x21000000#32] := by decide +kernel

/-! ## Small states -/

/-- The state a result holds, if it holds one. -/
def after : Result → Option State
  | .next t => some t
  | .fault _ => none
  | .refused _ => none

/-- LOADING of a one-row feature of 40 pixels. -/
def loading40 : State :=
  { State.reset with phase := .loading, load := { rows := 1, cols := 40, cols32 := 1, base := 0, r := 0 } }

/-- LOADING of a feature of `rows` rows of 32 pixels, `r` of them committed. -/
def loading32 (rows r : BitVec 12) : State :=
  { State.reset with phase := .loading, load := { rows := rows, cols := 32, cols32 := 1, base := 0, r := r } }

/-- The descriptor of a one-row feature of 32 ones. -/
def ones32 : Desc where
  rows := 1
  cols := 32
  cols32 := 1
  base := 0
  sig := 1

/-- CONFIG with one committed feature of 32 ones. -/
def oneFeature : State :=
  { State.reset with featCount := 1, fmemUsed := 1, desc := [(0, ones32)], fm := [(0, 0xFFFFFFFF#32)] }

/-- SCANNING a 64-wide image of `h` rows for that feature, row 0 complete in STAGE. -/
def scanning (h : BitVec 24) (w0 w1 : Word) : State :=
  { oneFeature with
    phase := .scanning, imgWidth := 64, imgHeight := h, imgCols32 := 2, cycleRows := 1, pixCount := 64
    stage := memWrite unlistedWord (memWrite unlistedWord [] 0 w0) 1 w1 }

/-- The state with words in the FIFO. -/
def withWords (s : State) (ws : List Word) : State := { s with fifo := ws }

/-- The state with host accesses to make. -/
def withHost (s : State) (hs : List HostAccess) : State := { s with host := hs }

/-- The image whose rows are 32 ones and 32 zeros. -/
def halfOnes (_ x : Nat) : Bool := decide (x < 32)

/-! ## One step each, results from 95_test_vectors.md -/

/-- VC1: NOP, read back as STATUS 0x10 and CMD_COUNT 1. -/
theorem test_nop : (after (step (withWords State.reset [0x00000000#32]))).map (fun t => (regRead t 0x24, regRead t 0x34)) =
    some (0x10#32, 1#32) := by decide

/-- VC2: NOP with IMM = 1. -/
theorem test_nop_operand : (after (step (withWords State.reset [0x00000001#32]))).map
    (fun t => (regRead t 0x24, regRead t 0x2C, regRead t 0x30)) = some (0x1F#32, 0x41#32, 0x00000001#32) := by decide

/-- VC9: SOFT_RESET in ERROR. -/
theorem test_softReset : (after (exec .softReset (raise .streamTooWide 0x02000401#32 State.reset))).map
    (fun t => (t.phase, t.errCode, t.errInfo)) = some (.config, 0#8, 0#32) := by decide

/-- VC3: the widest image. -/
theorem test_setWidth_max : (after (exec (.setWidth 1024#24) State.reset)).map (fun t => (t.imgWidth, t.imgCols32)) =
    some (1024#24, 32#19) := by decide

/-- VC4: one pixel wider. -/
theorem test_setWidth_tooWide : (after (exec (.setWidth 1025#24) State.reset)).map
    (fun t => (t.phase, t.errCode, t.errInfo, t.imgWidth)) = some (.error, 0x20#8, 0x02000401#32, 0#24) := by decide

/-- VC7. -/
theorem test_setHeight : (after (exec (.setHeight 0xFFFFFF#24) State.reset)).map (fun t => t.imgHeight) =
    some 16777215#24 := by decide

/-- VF1 and VF3c: both maxima are legal. -/
theorem test_featBegin : (after (exec (.featBegin 64#12 128#12) State.reset)).map
    (fun t => (regRead t 0x24, t.load.cols32, t.load.r)) = some (0x11#32, 4#7, 0#12) := by decide

/-- VF2c, VF3a, VF3b: 31 pixels are too narrow, 65 rows and 5 words too large. -/
theorem test_featBegin_errors :
    (after (exec (.featBegin 2#12 31#12) State.reset)).map (fun t => (t.errCode, t.errInfo)) = some (0x10#8, 0x1000201F#32) ∧
    (after (exec (.featBegin 65#12 32#12) State.reset)).map (fun t => t.errCode) = some 0x11#8 ∧
    (after (exec (.featBegin 1#12 160#12) State.reset)).map (fun t => t.errCode) = some 0x11#8 := by decide

/-- VR1a: 32 pixels store a word; the trailing 8 of a 40-pixel row store none. -/
theorem test_pixels : (after (execAll [.pixels 32#6 0x80000001#32, .pixels 8#6 0xFF000000#32] loading40)).map
    (fun t => (t.pixCount, stageRead t 0, stageRead t 1)) = some (40#24, 0x80000001#32, 0#32) := by decide +kernel

/-- VR2: a word split over two commands. -/
theorem test_pixels_split : (after (execAll [.pixels 20#6 0xABCDE000#32, .pixels 12#6 0xF0F00000#32] (loading32 1 0))).map
    (fun t => stageRead t 0) = some 0xABCDEF0F#32 := by decide +kernel

/-- VR1b: the row goes to FM. -/
theorem test_rowEnd_loading : (after (exec .rowEnd { loading40 with pixCount := 40, stage := [(0, 0x80000001#32)] })).map
    (fun t => (fmRead t 0, t.load.r, t.pixCount)) = some (0x80000001#32, 1#12, 0#24) := by decide

/-- VS6a: pixels 31..62 set, found by the funnel at x = 31. -/
theorem test_rowEnd_scanning : (after (exec .rowEnd (scanning 1 0x00000001#32 0xFFFFFFFE#32))).map
    (fun t => (t.phase, t.resX, t.resY, t.resDim, t.candCount)) = some (.found, 31#24, 0#24, 0x1020#24, 1#32) := by
  decide +kernel

/-- VR1b: the signature and FEAT_DIM of the committed feature. -/
theorem test_featEnd : (after (exec .featEnd { loading40 with
      load := { rows := 1, cols := 40, cols32 := 1, base := 0, r := 1 }, fm := [(0, 0x80000001#32)] })).map
    (fun t => (t.phase, regRead t 0x84, regRead t 0x88, t.fmemUsed)) =
      some (.config, 0x81001028#32, 1#32, 1#32) := by decide

/-- VF8a: left column 1, 0, 1, top to bottom. -/
theorem test_featEnd_signature : (after (exec .featEnd { loading32 3 3 with fm := [(0, 0x80000000#32), (2, 0xFFFFFFFF#32)] })).map
    (fun t => (descRead t 0).sig) = some 5#32 := by decide

/-- VS1: no features. -/
theorem test_scanStart_noFeatures : (after (exec .scanStart State.reset)).map (fun t => (t.errCode, t.errInfo)) =
    some (0x01#8, 0x30000000#32) := by decide

/-- VS2: height 0; and 10_state.md R38: a SIG register beyond the image's width is cleared too. -/
theorem test_scanStart_height0 : (after (exec .scanStart { oneFeature with imgWidth := 64, imgCols32 := 2, sig := [(100, 5#32)] })).map
    (fun t => (t.phase, t.cycleRows, t.rowY, sigRead t 100)) = some (.exhausted, 1#12, 0#24, 0#32) := by decide +kernel

/-- VS4: truncation. -/
theorem test_streamEnd : (after (exec .streamEnd (scanning 2 0 0))).map (fun t => (t.phase, t.errCode, t.errInfo)) =
    some (.error, 0x31#8, 0x22000000#32) := by decide

/-- VR8: the payload is consumed before the phase check. -/
theorem test_pixels_in_config : (after (core.run 2 (withWords State.reset [0x20000001#32, 0#32]))).map
    (fun t => (t.errCode, t.errInfo, t.cmdCount)) = some (0x42#8, 0x20000001#32, 2#32) := by decide

/-- V-H2 and V-H5: a read, and a 16-bit read. -/
theorem test_bus_reads :
    (after (step (withHost State.reset [.read 0x24 4]))).map (fun t => t.response) = some (some (.data 0x10#32)) ∧
    (after (step (withHost State.reset [.read 0x24 2]))).map (fun t => t.response) = some (some .busError) := by decide

/-- VC15: CTRL = 3 in EXHAUSTED. -/
theorem test_srst : (after (step (withHost { oneFeature with phase := .exhausted, irqEn := true } [.write 0x20 4 3#32]))).map
    (fun t => (regRead t 0x24, regRead t 0x20, t.featCount)) = some (0x10#32, 1#32, 0#16) := by decide

/-- 20_memory.md R88: the CMD write waits while four words are queued. -/
theorem test_stall : (after (step { withHost (withWords State.reset [0, 0, 0, 0]) [.write 0x28 4 1#32] with
      schedule := [.host] })).map (fun t => (t.fifo.length, t.host.length)) = some (4, 1) := by decide

/-- The word of an opcode-table row runs at the very next step. -/
theorem test_withFetchWord : (after (step (State.reset.withFetchWord 32 0x03000014))).map (fun t => t.imgHeight) =
    some 20#24 := by decide

/-! ## Witnesses: for each obligation with hypotheses, concrete states and operands that meet all of them, clause by clause -/

/-- The result is a next state of which `P` holds. -/
def nextSat (r : Result) (P : State → Bool) : Bool :=
  match after r with
  | some t => P t
  | none => false

theorem exists_next {r : Result} {P : State → Prop} [DecidablePred P] (h : nextSat r (fun t => decide (P t)) = true) :
    ∃ t, r = .next t ∧ P t := by
  cases r with
  | next t => exact ⟨t, rfl, by simpa [nextSat, after] using h⟩
  | fault e => simp [nextSat, after] at h
  | refused e => simp [nextSat, after] at h

/-- The state whose next steps the moves name. -/
def withSchedule (s : State) (ms : List Move) : State := { s with schedule := ms }

/-- LOADING a second feature of two rows beside a committed one, one row done, 32 pixels of the other in. -/
def secondFeature : State :=
  { oneFeature with
    phase := .loading, load := { rows := 2, cols := 32, cols32 := 1, base := 1, r := 1 }
    pixCount := 32, stage := [(0, 0xFFFF0000#32)], fm := [(0, 0xFFFFFFFF#32), (1, 0x80000001#32)] }

/-- SCANNING row 31 of a 64-wide all-zero image for a 32-row all-zero feature. -/
def tallScan : State :=
  { State.reset with
    phase := .scanning, featCount := 1, fmemUsed := 32
    desc := [(0, { rows := 32, cols := 32, cols32 := 1, base := 0, sig := 0 })]
    imgWidth := 64, imgHeight := 32, imgCols32 := 2, cycleRows := 32, rowY := 31, pixCount := 64 }

/-- The all-zero image. -/
def zeros (_ _ : Nat) : Bool := false

theorem inv_reset : Inv State.reset :=
  ⟨by decide, by decide, by decide, by decide, by decide, by decide, by decide, by decide, by decide, by decide, by decide⟩

theorem inv_oneFeature : Inv oneFeature :=
  ⟨by decide, by decide, by decide, by decide, by decide, by decide, by decide, by decide, by decide, by decide, by decide⟩

theorem inv_secondFeature : Inv secondFeature :=
  ⟨by decide, by decide, by decide, by decide, by decide, by decide, by decide, by decide, by decide, by decide, by decide⟩

theorem inv_loading_complete : Inv (loading32 3 3) :=
  ⟨by decide, by decide, by decide, by decide, by decide, by decide, by decide, by decide, by decide, by decide, by decide⟩

/-- A scan row with a match. -/
theorem inv_scan_match : Inv (scanning 1 0xFFFFFFFF#32 0) :=
  ⟨by decide, by decide, by decide, by decide, by decide, by decide, by decide, by decide, by decide, by decide, by decide⟩

/-- A scan row without one, another row to come. -/
theorem inv_scan_miss : Inv (scanning 2 0 0) :=
  ⟨by decide, by decide, by decide, by decide, by decide, by decide, by decide, by decide, by decide, by decide, by decide⟩

theorem inv_tallScan : Inv tallScan :=
  ⟨by decide, by decide, by decide, by decide, by decide, by decide, by decide, by decide, by decide, by decide, by decide⟩

theorem witness_EncodeOfDecode :
    decode [0x20000020#32, 0xFFFFFFFF#32, 1#32] = .ok (.pixels 32#6 0xFFFFFFFF#32, [1#32]) ∧
    decode [0x11000000#32] = .ok (.featEnd, []) := ⟨rfl, rfl⟩

theorem witness_RowExpansionDeliversItsPixels : AsmLine.pixels 1 0x80000000 ∈ rowPixels (List.replicate 33 true) := by decide +kernel

theorem witness_StepRunsOneWordCommand :
    CoreTurn (withWords State.reset [0x03000014#32]) [] ∧ (withWords State.reset [0x03000014#32]).parse = .header ∧
    decode [0x03000014#32] = .ok (.setHeight 20#24, []) ∧
    CoreTurn (withSchedule (withWords State.reset [0x03000014#32]) [.core, .host]) [.host] :=
  ⟨by decide, rfl, rfl, by decide⟩

theorem witness_StepRunsPixelsOnItsPayload :
    CoreTurn { withWords loading40 [5#32] with parse := .payload 0x20000020#32 } [] ∧
    decode [0x20000020#32, 5#32] = .ok (.pixels 32#6 5#32, []) := ⟨by decide, rfl⟩

theorem witness_StepTakesPixelsHeader :
    CoreTurn (withWords State.reset [0x20000020#32]) [] ∧ (withWords State.reset [0x20000020#32]).parse = .header ∧
    opcOf 0x20000020#32 = 0x20#8 := by decide

/-- Both errors, a PIXELS header with its payload, and a terminal and a working phase. -/
theorem witness_StepRejectsIllegalHeader :
    CoreTurn (withWords State.reset [0x04000000#32]) [] ∧ (withWords State.reset [0x04000000#32]).parse = .header ∧
    opcOf 0x04000000#32 ≠ 0x20#8 ∧ decodeCommand 0x04000000#32 0x04000000#32 = .error .opcode ∧
    decodeCommand 0x00000001#32 0x00000001#32 = .error .operand ∧ isTerminal State.reset.phase = false ∧
    CoreTurn { withWords State.reset [5#32] with parse := .payload 0x20000041#32 } [] ∧
    decodeCommand 0x20000041#32 5#32 = .error .operand ∧
    CoreTurn { withWords State.reset [0x04000000#32] with phase := .found } [] ∧ isTerminal .found = true :=
  ⟨by decide, rfl, by decide, rfl, rfl, rfl, by decide, rfl, by decide, rfl⟩

/-- A word consumed, no word to consume, a host move, a hardware reset, and a SOFT_RESET. -/
theorem witness_CmdCountCountsConsumedWords :
    (CoreTurn (withWords State.reset [0x00000000#32, 1#32]) [] ∧
      ∃ t, step (withWords State.reset [0x00000000#32, 1#32]) = .next t ∧ t.cmdCount = 1) ∧
    (HostTurn (withHost State.reset [.read 0x24 4]) [] ∧
      ∃ t, step (withHost State.reset [.read 0x24 4]) = .next t ∧ t.host = []) ∧
    (∃ t, step (withSchedule oneFeature [.core]) = .next t ∧ t.schedule = []) ∧
    (∃ t, step (withSchedule oneFeature [.hardReset]) = .next t ∧ t.featCount = 0) ∧
    (∃ t, exec .softReset oneFeature = .next t ∧ t.featCount = 0) :=
  ⟨⟨by decide, exists_next (by decide)⟩, ⟨by decide, exists_next (by decide)⟩, exists_next (by decide), exists_next (by decide),
    exists_next (by decide)⟩

/-- Room for one word, and no room. -/
theorem witness_CmdWriteQueuesOrStalls :
    HostTurn (withSchedule (withHost (withWords State.reset [0, 0, 0]) [.write 0x28 4 1#32]) [.host]) [] ∧
    (withWords State.reset [0, 0, 0]).fifo.length < State.reset.cfg.cmdFifoDepth ∧
    HostTurn (withSchedule (withHost (withWords State.reset [0, 0, 0, 0]) [.write 0x28 4 1#32]) [.host]) [] ∧
    State.reset.cfg.cmdFifoDepth ≤ (withWords State.reset [0, 0, 0, 0]).fifo.length := by decide

/-- A legal read, a narrow one, an unaligned one at the window's last offset, and one just outside the window. -/
theorem witness_HostReadChangesNothing :
    HostTurn (withHost State.reset [.read 0x24 4]) [] ∧ HostTurn (withHost State.reset [.read 0x24 2]) [] ∧
    HostTurn (withHost State.reset [.read 0xFF 4]) [] ∧ HostTurn (withHost State.reset [.read 0x100 4]) [] := by decide

/-- A narrow write, and an unaligned read at the window's last offset. -/
theorem witness_BusErrorsChangeNothing :
    (HostTurn (withHost State.reset [.write 0x20 2 1#32]) [] ∧ 0x20 ≤ 0xFF ∧ ((2 : Nat) ≠ 4 ∨ 0x20 % 4 ≠ 0)) ∧
    (HostTurn (withHost State.reset [.read 0xFF 4]) [] ∧ 0xFF ≤ 0xFF ∧ ((4 : Nat) ≠ 4 ∨ 0xFF % 4 ≠ 0)) := by decide

/-- A write just outside the window, and an RO offset at the window's top. -/
theorem witness_IgnoredWritesChangeNothing :
    (HostTurn (withHost State.reset [.write 0x100 4 1#32]) [] ∧
      ¬(State.reset.cfg.baseAddr ≤ 0x100 ∧ 0x100 ≤ State.reset.cfg.baseAddr + 0xFF)) ∧
    (HostTurn (withHost State.reset [.write 0xFC 4 1#32]) [] ∧ 0xFC % 4 = 0) := by decide

theorem witness_CtrlAndFeatSelWrites :
    (HostTurn (withHost State.reset [.write 0x20 4 0xFFFFFFFD#32]) [] ∧ (0xFFFFFFFD#32).getLsbD 1 = false) ∧
    HostTurn (withHost State.reset [.write 0x80 4 0x12345#32]) [] := by decide

/-- A write to ID, a write to VERSION, and a step that is a hardware reset. -/
theorem witness_ConstantRegisters :
    State.reset.cfg.Legal ∧ HostTurn (withHost State.reset [.write 0x00 4 1#32]) [] ∧
    HostTurn (withHost State.reset [.write 0x04 4 1#32]) [] ∧
    ∃ t, step (withSchedule oneFeature [.hardReset]) = .next t ∧ t.featCount = 0 :=
  ⟨by decide, by decide, by decide, exists_next (by decide)⟩

theorem witness_RegisterWindowReads :
    (0x28 : Nat) ∉ [0x00, 0x04, 0x08, 0x0C, 0x10, 0x14, 0x20, 0x24, 0x2C, 0x30, 0x34, 0x40, 0x44, 0x48, 0x4C, 0x50, 0x54,
      0x58, 0x5C, 0x60, 0x64, 0x70, 0x74, 0x78, 0x7C, 0x80, 0x84, 0x88, 0x8C] := by decide

theorem witness_DescriptorWindow :
    oneFeature.featSel.toNat < oneFeature.featCount.toNat ∧
    oneFeature.featCount.toNat ≤ ({ oneFeature with featSel := 1 } : State).featSel.toNat := by decide

theorem witness_CommandsLeaveInterface : ∃ t, exec .rowEnd (scanning 1 0xFFFFFFFF#32 0) = .next t ∧ t.phase = .found :=
  exists_next (by decide +kernel)

/-- A command for each memory: NOP, and ROW_END in each of its phases. -/
theorem witness_SpacesWrittenOnlyByTheirCommands :
    (∃ t, exec .nop secondFeature = .next t ∧ t.phase = .loading) ∧
    (∃ t, exec .rowEnd secondFeature = .next t ∧ fmRead t 2 = 0xFFFF0000#32) ∧
    (∃ t, exec .rowEnd (scanning 2 0 0) = .next t ∧ t.rowY = 1) :=
  ⟨exists_next (by decide), exists_next (by decide), exists_next (by decide +kernel)⟩

theorem witness_TerminalPhaseDiscards :
    (raise .streamTooWide 0 State.reset).phase = .error ∧
    (after (exec .scanStart { oneFeature with imgHeight := 0 })).map (fun t => t.phase) = some .exhausted ∧
    (after (exec .rowEnd (scanning 1 0xFFFFFFFF#32 0))).map (fun t => t.phase) = some .found := by decide +kernel

theorem witness_IllegalPhaseRaises :
    (State.reset.phase = .config ∧ (Instr.pixels 32#6 0).wellFormed = true ∧ legalIn (.pixels 32#6 0) .config = false) ∧
    (loading40.phase = .loading ∧ Instr.scanStart.wellFormed = true ∧ legalIn .scanStart .loading = false) ∧
    ((scanning 1 0 0).phase = .scanning ∧ Instr.featEnd.wellFormed = true ∧ legalIn .featEnd .scanning = false) := by decide

/-- Each transition of 10_state.md R31. -/
theorem witness_PhaseTransitions :
    (∃ t, exec (.featBegin 1#12 32#12) State.reset = .next t ∧ t.phase = .loading) ∧
    (∃ t, exec .featEnd (loading32 3 3) = .next t ∧ t.phase = .config) ∧
    (∃ t, exec .scanStart { oneFeature with imgHeight := 1 } = .next t ∧ t.phase = .scanning) ∧
    (∃ t, exec .scanStart oneFeature = .next t ∧ t.phase = .exhausted) ∧
    (∃ t, exec .rowEnd (scanning 1 0xFFFFFFFF#32 0) = .next t ∧ t.phase = .found) ∧
    (∃ t, exec .rowEnd (scanning 1 0 0) = .next t ∧ t.phase = .exhausted) ∧
    (∃ t, exec .featEnd State.reset = .next t ∧ t.phase = .error) ∧
    (∃ t, exec .softReset (scanning 1 0 0) = .next t ∧ t.phase = .config) ∧
    (HostTurn (withHost (scanning 1 0 0) [.write 0x20 4 2#32]) [] ∧
      ∃ t, step (withHost (scanning 1 0 0) [.write 0x20 4 2#32]) = .next t ∧ t.phase = .config) :=
  ⟨exists_next (by decide), exists_next (by decide), exists_next (by decide +kernel), exists_next (by decide +kernel),
    exists_next (by decide +kernel), exists_next (by decide +kernel), exists_next (by decide), exists_next (by decide),
    by decide, exists_next (by decide)⟩

theorem witness_ErrorsArePrecise :
    ∃ t, exec (.setWidth 1025#24) State.reset = .next t ∧ t.phase = .error ∧ State.reset.phase ≠ .error :=
  exists_next (by decide)

theorem witness_InvariantAtReset : Config.reference.Legal := by decide

theorem witness_StepKeepsInvariant : Inv State.reset ∧ Inv secondFeature ∧ Inv (scanning 2 0 0) :=
  ⟨inv_reset, inv_secondFeature, inv_scan_miss⟩

theorem witness_StepKeepsSignatures :
    Inv oneFeature ∧ SignatureInv oneFeature ∧
    ∃ t, step (withWords oneFeature [0x10001020#32]) = .next t ∧ t.phase = .loading :=
  ⟨inv_oneFeature, by decide, exists_next (by decide)⟩

theorem witness_CommittedFeaturesStay :
    Inv secondFeature ∧ (∃ t, exec .rowEnd secondFeature = .next t ∧ t.featCount = 1) ∧ Instr.rowEnd ≠ .softReset ∧
    0 < secondFeature.featCount.toNat ∧ 0 < (descRead secondFeature 0).rows.toNat ∧
    0 < (descRead secondFeature 0).cols32.toNat :=
  ⟨inv_secondFeature, exists_next (by decide), by decide, by decide, by decide, by decide⟩

theorem witness_HardResetState : (withSchedule secondFeature [.hardReset]).schedule = .hardReset :: [] := rfl

theorem witness_SrstState :
    HostTurn (withHost secondFeature [.write 0x20 4 3#32]) [] ∧ (3#32).getLsbD 1 = true := by decide

theorem witness_AfterResetReads : Config.reference.Legal ∧ 0x28 ≤ 0x84 := by decide

theorem witness_SetWidthSetsOrRaises :
    State.reset.phase = .config ∧ (1024#24).toNat ≤ State.reset.cfg.maxWidth ∧ State.reset.cfg.maxWidth < (1025#24).toNat := by
  decide

theorem witness_SetHeightSets : State.reset.phase = .config := rfl

/-- 32 pixels into an empty row of 40, and the last 8 of it. -/
theorem witness_PixelsEnterTheRow :
    (loading40.phase = .loading ∨ loading40.phase = .scanning) ∧ 1 ≤ (32#6).toNat ∧ (32#6).toNat ≤ 32 ∧
    loading40.pixCount.toNat + (32#6).toNat ≤ rowLen loading40 ∧ rowWords loading40 ≤ loading40.cfg.stageWords ∧
    ({ loading40 with pixCount := 32 } : State).pixCount.toNat + (8#6).toNat = rowLen loading40 := by decide

/-- N = 0, N = 33, and one pixel too many in each phase. -/
theorem witness_PixelsErrors :
    (State.reset.phase = .config ∧ (0#6).toNat = 0 ∧ 32 < (33#6).toNat) ∧
    (1 ≤ (9#6).toNat ∧ (9#6).toNat ≤ 32 ∧ loading40.phase = .loading ∧
      loading40.load.cols.toNat < ({ loading40 with pixCount := 32 } : State).pixCount.toNat + (9#6).toNat) ∧
    (1 ≤ (1#6).toNat ∧ (scanning 1 0 0).phase = .scanning ∧
      (scanning 1 0 0).imgWidth.toNat < (scanning 1 0 0).pixCount.toNat + (1#6).toNat) := by decide

theorem witness_PayloadTailIgnored :
    ∀ b, b < 32 → 32 ≤ b + (8#6).toNat → (0xAB000000#32).getLsbD b = (0xABFFFFFF#32).getLsbD b := by decide

theorem witness_RowCodecPacksTheRow :
    loading40.phase = .loading ∧ loading40.pixCount = 0 ∧ rowWords loading40 = rowLen loading40 / 32 ∧
    rowWords loading40 ≤ loading40.cfg.stageWords ∧
    (∀ c, c ∈ [(20#6, 0xABCDE000#32), (20#6, 0xF0F00000#32)] → 1 ≤ c.1.toNat ∧ c.1.toNat ≤ 32) ∧
    ([(20#6, 0xABCDE000#32), (20#6, 0xF0F00000#32)].flatMap fun c => payloadPixels c.1.toNat c.2).length = rowLen loading40 :=
  ⟨rfl, rfl, rfl, by decide, by simp, by simp [payloadPixels]; rfl⟩

theorem witness_RowEndErrors :
    (loading40.phase = .loading ∧ loading40.pixCount.toNat ≠ loading40.load.cols.toNat) ∧
    (({ scanning 1 0 0 with pixCount := 63 } : State).phase = .scanning ∧
      ({ scanning 1 0 0 with pixCount := 63 } : State).pixCount.toNat ≠ (scanning 1 0 0).imgWidth.toNat) ∧
    (({ loading32 3 3 with pixCount := 32 } : State).pixCount.toNat = (loading32 3 3).load.cols.toNat ∧
      (loading32 3 3).load.r = (loading32 3 3).load.rows) := by decide

/-- The largest feature the reference configuration takes. -/
theorem witness_FeatBeginStartsLoading :
    State.reset.phase = .config ∧ 1 ≤ (64#12).toNat ∧ (64#12).toNat ≤ State.reset.cfg.maxFeatRows ∧
    1 ≤ (159#12).toNat / 32 ∧ (159#12).toNat / 32 ≤ State.reset.cfg.maxFeatCols32 ∧
    State.reset.featCount.toNat ≠ State.reset.cfg.maxFeatures ∧
    State.reset.fmemUsed.toNat + (64#12).toNat * ((159#12).toNat / 32) ≤ State.reset.cfg.featMemWords := by decide

/-- Each of the four errors, at its boundary. -/
theorem witness_FeatBeginErrorsInOrder :
    State.reset.phase = .config ∧ (0#12).toNat = 0 ∧ (31#12).toNat / 32 = 0 ∧
    State.reset.cfg.maxFeatRows < (65#12).toNat ∧ State.reset.cfg.maxFeatCols32 < (160#12).toNat / 32 ∧
    ({ State.reset with featCount := 16 } : State).featCount.toNat = State.reset.cfg.maxFeatures ∧
    State.reset.cfg.featMemWords < ({ State.reset with fmemUsed := 1023 } : State).fmemUsed.toNat + (2#12).toNat * ((32#12).toNat / 32) := by
  decide

theorem witness_RowEndCommitsFeatureRow :
    secondFeature.phase = .loading ∧ secondFeature.pixCount.toNat = secondFeature.load.cols.toNat ∧
    secondFeature.load.r ≠ secondFeature.load.rows ∧ secondFeature.load.cols32.toNat ≤ secondFeature.cfg.stageWords ∧
    secondFeature.load.base.toNat + secondFeature.load.r.toNat * secondFeature.load.cols32.toNat +
      secondFeature.load.cols32.toNat ≤ secondFeature.cfg.featMemWords := by decide

theorem witness_FeatEndCommits :
    Inv (loading32 3 3) ∧ (loading32 3 3).phase = .loading ∧ (loading32 3 3).pixCount = 0 ∧
    (loading32 3 3).load.r = (loading32 3 3).load.rows := ⟨inv_loading_complete, rfl, rfl, rfl⟩

theorem witness_FeatEndErrors :
    (secondFeature.phase = .loading ∧ secondFeature.pixCount ≠ 0) ∧
    ((loading32 3 2).phase = .loading ∧ (loading32 3 2).pixCount = 0 ∧ (loading32 3 2).load.r ≠ (loading32 3 2).load.rows) := by
  decide

theorem witness_FeatureSignatureBits : (31 : Nat) < 32 ∧ 31 < (descRead tallScan 0).rows.toNat := by decide

/-- The last offset, with a match there. -/
theorem witness_MatchesPixelwise :
    31 < 32 ∧ matchesAt (searchState (scanning 1 0x00000001#32 0xFFFFFFFE#32)) 0 31 0 0 = true := by decide +kernel

theorem witness_ScanStartBegins :
    (oneFeature.phase = .config ∧ oneFeature.featCount ≠ 0 ∧ oneFeature.featCount.toNat ≤ oneFeature.cfg.maxFeatures ∧
      oneFeature.imgCols32.toNat ≤ oneFeature.cfg.maxCols32) ∧
    (State.reset.phase = .config ∧ State.reset.featCount = 0) := by decide

theorem witness_CandidatesInOrder : 0 < (candidates (searchState (scanning 1 0xFFFFFFFF#32 0))).length := by decide +kernel

theorem witness_RowEndScansTheRow :
    Inv (scanning 2 0 0) ∧ (scanning 2 0 0).phase = .scanning ∧ (scanning 2 0 0).pixCount = (scanning 2 0 0).imgWidth :=
  ⟨inv_scan_miss, rfl, rfl⟩

/-- A row with a match and a row without. -/
theorem witness_RowEndReportsFirstMatch :
    ((scanning 1 0x00000001#32 0xFFFFFFFE#32).pixCount = (scanning 1 0x00000001#32 0xFFFFFFFE#32).imgWidth ∧
      (∃ t, exec .rowEnd (scanning 1 0x00000001#32 0xFFFFFFFE#32) = .next t ∧ t.phase = .found) ∧
      MatchesHere (searchState (scanning 1 0x00000001#32 0xFFFFFFFE#32)) 0 31 0) ∧
    ((∃ t, exec .rowEnd (scanning 2 0 0) = .next t ∧ t.phase = .scanning) ∧
      (candidates (searchState (scanning 2 0 0))).all (fun k => !matchesAt (searchState (scanning 2 0 0)) k.f k.o k.c 0) = true) :=
  ⟨⟨rfl, exists_next (by decide +kernel), by decide +kernel⟩, exists_next (by decide +kernel), by decide +kernel⟩

/-- The counter at its last value before saturation, and saturated. -/
theorem witness_CandidateCountSaturates :
    (∃ t, exec .rowEnd { scanning 1 0xFFFFFFFF#32 0 with candCount := 0xFFFFFFFE#32 } = .next t ∧ t.candCount = 0xFFFFFFFF#32) ∧
    (∃ t, exec .rowEnd { scanning 1 0xFFFFFFFF#32 0 with candCount := 0xFFFFFFFF#32 } = .next t ∧ t.candCount = 0xFFFFFFFF#32) :=
  ⟨exists_next (by decide +kernel), exists_next (by decide +kernel)⟩

theorem witness_RowEndKeepsTheHistory :
    Inv (scanning 2 0 0) ∧ (scanning 2 0 0).phase = .scanning ∧ (scanning 2 0 0).pixCount = (scanning 2 0 0).imgWidth ∧
    Scanned zeros (scanning 2 0 0) ∧ RowStaged zeros (scanning 2 0 0) ∧
    ∃ t, exec .rowEnd (scanning 2 0 0) = .next t ∧ t.phase ≠ .found :=
  ⟨inv_scan_miss, rfl, rfl, by decide +kernel, by decide +kernel, exists_next (by decide +kernel)⟩

theorem witness_NoFalseReport :
    Inv (scanning 1 0xFFFFFFFF#32 0) ∧ (scanning 1 0xFFFFFFFF#32 0).phase = .scanning ∧
    (scanning 1 0xFFFFFFFF#32 0).pixCount = (scanning 1 0xFFFFFFFF#32 0).imgWidth ∧
    Scanned halfOnes (scanning 1 0xFFFFFFFF#32 0) ∧ RowStaged halfOnes (scanning 1 0xFFFFFFFF#32 0) ∧
    ∃ t, exec .rowEnd (scanning 1 0xFFFFFFFF#32 0) = .next t ∧ t.phase = .found :=
  ⟨inv_scan_match, rfl, rfl, by decide +kernel, by decide +kernel, exists_next (by decide +kernel)⟩

/-- A short feature at the top of the image, and a feature of 32 rows. -/
theorem witness_VerbatimOccurrenceReported :
    (SignatureInv (scanning 1 0xFFFFFFFF#32 0) ∧ Scanned halfOnes (scanning 1 0xFFFFFFFF#32 0) ∧
      RowStaged halfOnes (scanning 1 0xFFFFFFFF#32 0) ∧ 0 < (scanning 1 0xFFFFFFFF#32 0).featCount.toNat ∧
      0 + (descRead (scanning 1 0xFFFFFFFF#32 0) 0).rows.toNat = (scanning 1 0xFFFFFFFF#32 0).rowY.toNat + 1 ∧
      0 / 32 + (descRead (scanning 1 0xFFFFFFFF#32 0) 0).cols32.toNat < (scanning 1 0xFFFFFFFF#32 0).imgCols32.toNat ∧
      Shows halfOnes (scanning 1 0xFFFFFFFF#32 0) (descRead (scanning 1 0xFFFFFFFF#32 0) 0) 0 0 ∧
      ∀ i, i < min 32 ((scanning 1 0xFFFFFFFF#32 0).rowY.toNat + 1) - (descRead (scanning 1 0xFFFFFFFF#32 0) 0).rows.toNat →
        halfOnes (0 - 1 - i) 0 = false) ∧
    (Inv tallScan ∧ SignatureInv tallScan ∧ tallScan.pixCount = tallScan.imgWidth ∧ Scanned zeros tallScan ∧
      RowStaged zeros tallScan ∧ 0 < tallScan.featCount.toNat ∧
      0 + (descRead tallScan 0).rows.toNat = tallScan.rowY.toNat + 1 ∧
      31 / 32 + (descRead tallScan 0).cols32.toNat < tallScan.imgCols32.toNat ∧
      Shows zeros tallScan (descRead tallScan 0) 31 0 ∧ 32 ≤ (descRead tallScan 0).rows.toNat) :=
  ⟨⟨by decide, by decide +kernel, by decide +kernel, by decide, by decide, by decide, by decide +kernel, by decide⟩,
    inv_tallScan, by decide +kernel, rfl, by decide +kernel, by decide +kernel, by decide, by decide, by decide,
    by decide +kernel, by decide⟩

/-- A feature of one word in an image of two: a candidate, and found. -/
theorem witness_TooLargeNeverReported :
    Inv (scanning 1 0xFFFFFFFF#32 0) ∧ (scanning 1 0xFFFFFFFF#32 0).phase = .scanning ∧
    ∃ t, exec .rowEnd (scanning 1 0xFFFFFFFF#32 0) = .next t ∧ t.phase = .found :=
  ⟨inv_scan_match, rfl, exists_next (by decide +kernel)⟩

theorem witness_StreamEndTruncates : (scanning 2 0 0).phase = .scanning := rfl

/-- A CMD write, a FEAT_SEL write, a CTRL write without SRST and another CMD write. -/
def fourWrites : List HostAccess :=
  [.write 0x28 4 0x03000014#32, .write 0x80 4 1#32, .write 0x20 4 1#32, .write 0x28 4 0#32]

/-- Two schedules of one list of writes, and one with a read. -/
theorem witness_ScheduleIndependence :
    NoHardReset [.host, .host, .core, .host] ∧ NoHardReset [] ∧ NoSrst State.reset.cfg fourWrites ∧ OnlyWrites fourWrites ∧
    NoSrst State.reset.cfg [.read 0x24 4] ∧
    (∃ t, core.run 6 (withSchedule (withHost State.reset fourWrites) [.host, .host, .core, .host]) = .next t ∧
      t.host = [] ∧ t.fifo = []) ∧
    (∃ t, core.run 6 (withHost State.reset fourWrites) = .next t ∧ t.host = [] ∧ t.fifo = []) :=
  ⟨by decide, by decide, by decide, by decide, by decide, exists_next (by decide), exists_next (by decide)⟩

/-- A CMD write that waits at a full FIFO. -/
def stalledWrite : State := withSchedule (withHost (withWords State.reset [0, 0, 0, 0]) [.write 0x28 4 1#32]) [.host]

theorem witness_EveryAccessCompletes :
    Inv stalledWrite ∧ NoHardReset stalledWrite.schedule ∧ NoSrst stalledWrite.cfg stalledWrite.host ∧
    pendingWords stalledWrite = 5 ∧ stalls stalledWrite (.write 0x28 4 1#32) = true :=
  ⟨⟨by decide, by decide, by decide, by decide, by decide, by decide, by decide, by decide, by decide, by decide, by decide⟩,
    by decide, by decide, by decide, by decide⟩

end Sys2Proof.Tests
end

section
/-! PROOFS. What a command, a host move and a step can do, each said once as a relation between the state before and the state
after. Every later proof is a case analysis over these. -/

namespace Sys2Proof.Machine

open Sys2Proof.Safety

/-! ## Commands -/

/-- The state changes a command can make, one constructor per outcome, each with the guards under which it happens
(30_encoding.md R113, R116). -/
inductive CommandEffect (s : State) : Instr → State → Prop where
  /-- Discarded, or NOP. -/
  | unchanged {i : Instr} : CommandEffect s i s
  | raised {i : Instr} (e : ErrorCode) (ht : isTerminal s.phase = false) : CommandEffect s i (raise e (headerOf i) s)
  | softReset : CommandEffect s .softReset (softReset s)
  | setWidth (val : BitVec 24) (hp : s.phase = .config) (hw : val.toNat ≤ s.cfg.maxWidth) :
      CommandEffect s (.setWidth val) (setImageWidth val s)
  | setHeight (val : BitVec 24) (hp : s.phase = .config) : CommandEffect s (.setHeight val) (setImageHeight val s)
  | featBegin (rows cols : BitVec 12) (hp : s.phase = .config)
      (hr : 1 ≤ rows.toNat ∧ rows.toNat ≤ s.cfg.maxFeatRows)
      (hc : 1 ≤ (featCols32 cols).toNat ∧ (featCols32 cols).toNat ≤ s.cfg.maxFeatCols32)
      (hn : s.featCount.toNat ≠ s.cfg.maxFeatures)
      (hm : s.fmemUsed.toNat + rows.toNat * (featCols32 cols).toNat ≤ s.cfg.featMemWords) :
      CommandEffect s (.featBegin rows cols) (beginLoad rows cols s)
  | featEnd (hp : s.phase = .loading) (hpix : s.pixCount = 0) (hr : s.load.r = s.load.rows)
      (hn : s.featCount.toNat < s.cfg.maxFeatures) : CommandEffect s .featEnd (commitFeature s)
  | pixels (n : BitVec 6) (p : Word) (hp : s.phase = .loading ∨ s.phase = .scanning)
      (hfit : s.pixCount.toNat + n.toNat ≤ rowLen s) (hn : 1 ≤ n.toNat ∧ n.toNat ≤ 32) :
      CommandEffect s (.pixels n p) (packPixels (payloadPixels n.toNat p) s)
  | rowCommitted (hp : s.phase = .loading) (hr : s.load.r ≠ s.load.rows)
      (hm : commitAddr s + s.load.cols32.toNat ≤ s.cfg.featMemWords) (hpix : s.pixCount.toNat = s.load.cols.toNat) :
      CommandEffect s .rowEnd (clearRow (commitRow s))
  /-- A scan row with a match (44_scan_engine.md R243). -/
  | rowFound (k : Candidate) (n : BitVec 32) (hp : s.phase = .scanning) (hf : scanRowFault s = none)
      (hk : search (searchState s) (candidates (searchState s)) s.candCount = (n, some k))
      (hpix : s.pixCount.toNat = s.imgWidth.toNat) :
      CommandEffect s .rowEnd (clearRow (enterFound k { searchState s with candCount := n }))
  /-- A scan row without a match (44_scan_engine.md R244). -/
  | rowMissed (n : BitVec 32) (hp : s.phase = .scanning) (hf : scanRowFault s = none)
      (hk : search (searchState s) (candidates (searchState s)) s.candCount = (n, none))
      (hpix : s.pixCount.toNat = s.imgWidth.toNat) :
      CommandEffect s .rowEnd (clearRow (advanceRow { searchState s with candCount := n }))
  | scanStart (hp : s.phase = .config) (hn : s.featCount ≠ 0) (hw : s.imgCols32.toNat ≤ s.cfg.maxCols32) :
      CommandEffect s .scanStart (startScan s)

/-- A ROW_END that answers a next state has one of the row outcomes. -/
theorem commandEffect_rowEnd {s t : State} (hx : execRowEnd s = .next t) : CommandEffect s .rowEnd t := by
  rcases execRowEnd_cases hx with rfl | ⟨hp, hpix, hr, -, hm, rfl⟩ | ⟨hp, hpix, hf, rfl⟩ | ⟨e, ht, rfl⟩
  · exact .unchanged
  · exact .rowCommitted hp hr hm hpix
  · change CommandEffect s .rowEnd (clearRow (searchRow (searchState s)))
    rcases searchRow_cases (searchState s) with ⟨k, n, hk, h⟩ | ⟨n, hk, h⟩ <;> rw [h]
    · exact .rowFound k n hp hf hk hpix
    · exact .rowMissed n hp hf hk hpix
  · exact .raised e ht

/-- Whatever a command answers is one of its effects. -/
theorem commandEffect_of_exec {i : Instr} {s t : State} (hx : exec i s = .next t) : CommandEffect s i t := by
  cases i with
  | nop => rw [execNop_cases hx]; exact .unchanged
  | softReset => cases hx; exact .softReset
  | setWidth val =>
    rcases execSetWidth_cases hx with rfl | ⟨hp, hw, rfl⟩ | ⟨e, ht, rfl⟩
    exacts [.unchanged, .setWidth val hp hw, .raised e ht]
  | setHeight val =>
    rcases execSetHeight_cases hx with rfl | ⟨hp, rfl⟩ | ⟨e, ht, rfl⟩
    exacts [.unchanged, .setHeight val hp, .raised e ht]
  | featBegin rows cols =>
    rcases execFeatBegin_cases hx with rfl | ⟨hp, hr, hc, hn, hm, rfl⟩ | ⟨e, ht, rfl⟩
    exacts [.unchanged, .featBegin rows cols hp hr hc hn hm, .raised e ht]
  | featEnd =>
    rcases execFeatEnd_cases hx with rfl | ⟨hp, hpix, hr, hn, rfl⟩ | ⟨e, ht, rfl⟩
    exacts [.unchanged, .featEnd hp hpix hr hn, .raised e ht]
  | pixels n p =>
    rcases execPixels_cases hx with rfl | ⟨hp, hn, hfit, -, rfl⟩ | ⟨e, ht, rfl⟩
    exacts [.unchanged, .pixels n p hp hfit hn, .raised e ht]
  | rowEnd => exact commandEffect_rowEnd hx
  | streamEnd =>
    rcases execStreamEnd_cases hx with rfl | ⟨e, ht, rfl⟩
    exacts [.unchanged, .raised e ht]
  | scanStart =>
    rcases execScanStart_cases hx with rfl | ⟨hp, hn, -, hw, rfl⟩ | ⟨e, ht, rfl⟩
    exacts [.unchanged, .scanStart hp hn hw, .raised e ht]

/-- The phase after SCAN_START (44_scan_engine.md R240). -/
theorem startScan_phase_cases (s : State) :
    (s.imgHeight = 0 ∧ (startScan s).phase = .exhausted) ∨ (s.imgHeight ≠ 0 ∧ (startScan s).phase = .scanning) := by
  by_cases h : s.imgHeight = 0
  · exact .inl ⟨h, if_pos h⟩
  · exact .inr ⟨h, if_neg h⟩

/-- The phase after a scan row without a match (44_scan_engine.md R244). -/
theorem rowMissed_phase_cases {s : State} (n : BitVec 32) (hp : s.phase = .scanning) :
    (s.rowY + 1 = s.imgHeight ∧ (clearRow (advanceRow { searchState s with candCount := n })).phase = .exhausted) ∨
    (s.rowY + 1 ≠ s.imgHeight ∧ (clearRow (advanceRow { searchState s with candCount := n })).phase = .scanning) := by
  by_cases h : s.rowY + 1 = s.imgHeight
  · exact .inl ⟨h, if_pos h⟩
  · exact .inr ⟨h, (if_neg h).trans hp⟩

/-- No effect touches the interface (70_reset_and_hazards.md R321, 20_memory.md R97). -/
theorem CommandEffect.sameInterface {i : Instr} {s t : State} (he : CommandEffect s i t) : SameInterface s t := by
  cases he with
  | pixels => rw [packPixels_frame]; exact ⟨rfl, rfl, rfl, rfl, rfl, rfl, rfl, rfl, rfl⟩
  | _ => exact ⟨rfl, rfl, rfl, rfl, rfl, rfl, rfl, rfl, rfl⟩

/-! ## Host moves -/

/-- The state changes a host move can make (20_memory.md R88, 40_control.md R150 to R153). -/
inductive HostEffect (s : State) : State → Prop where
  /-- No access to make, or a CMD write that waits. -/
  | waits : HostEffect s s
  /-- A read, a bus error, an access outside the window, or a write to an RO or reserved offset. -/
  | answered (rest : List HostAccess) (r : BusResponse) : HostEffect s { s with host := rest, response := some r }
  | srst (v : Word) (rest : List HostAccess) (hh : s.host = .write (s.cfg.baseAddr + 0x20) 4 v :: rest)
      (hv : v.getLsbD 1 = true) : HostEffect s { srst v s with host := rest, response := some .done }
  | ctrl (b : Bool) (rest : List HostAccess) : HostEffect s { s with irqEn := b, host := rest, response := some .done }
  | push (v : Word) (rest : List HostAccess) (hroom : s.fifo.length < s.cfg.cmdFifoDepth) :
      HostEffect s { pushCmd v s with host := rest, response := some .done }
  | featSel (v : Word) (rest : List HostAccess) :
      HostEffect s { writeFeatSel v s with host := rest, response := some .done }

/-- What a bus write that does not wait does. -/
theorem hostEffect_write {s : State} {addr size : Nat} {v : Word} {rest : List HostAccess}
    (hh : s.host = .write addr size v :: rest) (hs : stalls s (.write addr size v) = false) :
    HostEffect s (access (.write addr size v) { s with host := rest }) := by
  unfold access busWrite
  by_cases hw : inWindow s.cfg addr = true
  case neg => simp only [hw]; exact .answered rest _
  by_cases hl : legalAccess (windowOffset s.cfg addr) size = true
  case neg => simp only [hw, hl]; exact .answered rest _
  simp only [hw, hl, if_true]
  rcases regWrite_cases (windowOffset s.cfg addr) v { s with host := rest } with
    ⟨h20, hv, h⟩ | ⟨-, -, h⟩ | ⟨h28, h⟩ | ⟨-, h⟩ | ⟨-, -, -, h⟩ <;> rw [h]
  · have hsize : size = 4 := by simp only [legalAccess, Bool.and_eq_true, beq_iff_eq] at hl; exact hl.1
    have haddr : addr = s.cfg.baseAddr + 0x20 := by
      unfold windowOffset at h20
      omega
    subst hsize haddr
    exact .srst v rest hh hv
  · exact .ctrl _ rest
  · refine .push v rest ?_
    have hcmd : isCmdWrite s.cfg (.write addr size v) = true := by
      simp [isCmdWrite, hw, h28 ▸ hl, h28]
    simpa [stalls, hcmd] using hs
  · exact .featSel v rest
  · exact .answered rest _

theorem hostMove_effect (s : State) : HostEffect s (hostMove s) := by
  rcases hostMove_cases s with h | ⟨a, rest, hh, hs, h⟩ <;> rw [h]
  · exact .waits
  cases a with
  | read addr size => exact .answered rest _
  | write addr size v => exact hostEffect_write hh hs

theorem HostEffect.cfg_eq {s t : State} (he : HostEffect s t) : t.cfg = s.cfg := by
  cases he <;> rfl

/-- No host move counts a word, CTRL.SRST included (10_state.md R34). -/
theorem HostEffect.cmdCount_eq {s t : State} (he : HostEffect s t) : t.cmdCount = s.cmdCount := by
  cases he <;> rfl

/-- Of the host's moves only CTRL.SRST changes the phase (60_exceptions.md R287, 70_reset_and_hazards.md R322). -/
theorem HostEffect.phase_cases {s t : State} (he : HostEffect s t) :
    t.phase = s.phase ∨
    (t.phase = .config ∧ ∃ v hs, s.host = .write (s.cfg.baseAddr + 0x20) 4 v :: hs ∧ v.getLsbD 1 = true) := by
  cases he with
  | srst v rest hh hv => exact .inr ⟨rfl, v, rest, hh, hv⟩
  | _ => exact .inl rfl

/-! ## Steps -/

/-- An illegal header is discarded in a terminal phase and raises its error elsewhere (30_encoding.md R116). -/
theorem rejectWord_cases (e : Illegal) (h : Word) (s : State) :
    rejectWord e h s = s ∨ (isTerminal s.phase = false ∧ rejectWord e h s = raise (illegalCode e) h s) := by
  cases ht : isTerminal s.phase with
  | true => exact .inl (if_pos ht)
  | false => exact .inr ⟨rfl, if_neg (by simp [ht])⟩

/-- A core move that finds a word takes it off the FIFO and counts it, whatever the word is and whatever it does
(10_state.md R34, R35). -/
theorem coreMove_takes_word {s t : State} {w : Word} {ws : List Word} (hx : coreMove s = .next t) (hf : s.fifo = w :: ws) :
    t.cfg = s.cfg ∧ t.fifo = ws ∧ t.cmdCount = s.cmdCount + 1 := by
  have htake : (takeWord s).fifo = ws := by rw [takeWord_fifo, hf]; rfl
  rcases coreMove_cases hx with ⟨he, -⟩ | ⟨w', ws', -, ⟨-, -, rfl⟩ | ⟨h, p, -, ⟨i, -, hi⟩ | ⟨e, -, rfl⟩⟩⟩
  · cases hf.symm.trans he
  · exact ⟨rfl, htake, rfl⟩
  · obtain ⟨hcfg, -, -, hfifo, hcount, -⟩ := (commandEffect_of_exec hi).sameInterface
    exact ⟨hcfg, hfifo.trans htake, hcount⟩
  · rcases rejectWord_cases e h { takeWord s with parse := .header } with hr | ⟨-, hr⟩ <;> rw [hr] <;>
      exact ⟨rfl, htake, rfl⟩

/-- With an empty FIFO a core move changes nothing (log 6). -/
theorem coreMove_of_empty {s : State} (hf : s.fifo = []) : coreMove s = .next s := by
  simp [coreMove, hf]

/-- A host turn is a host move (log 6). -/
theorem step_of_hostTurn {s : State} {ms : List Move} (h : HostTurn s ms) :
    step s = .next (hostMove { s with schedule := ms }) := by
  rcases h with ⟨hs, hf, rfl⟩ | hs
  · have he : ({ s with schedule := [] } : State) = s := by rw [← hs]
    rw [he]
    simp [step, advance, hs, hf]
  · simp [step, advance, hs]

/-- A core turn is a core move (log 6). -/
theorem step_of_coreTurn {s : State} {ms : List Move} (h : CoreTurn s ms) :
    step s = coreMove { s with schedule := ms } := by
  rcases h with ⟨hs, hf, rfl⟩ | hs
  · have he : ({ s with schedule := [] } : State) = s := by rw [← hs]
    rw [he]
    simp [step, advance, hs, hf]
  · simp [step, advance, hs]

theorem step_of_hardReset {s : State} {ms : List Move} (h : s.schedule = .hardReset :: ms) :
    step s = .next (hardReset { s with schedule := ms }) := by
  simp [step, advance, h]

/-- Whose turn a step is: the core's, the host's or the reset input's (70_reset_and_hazards.md R340). -/
theorem turn_cases (s : State) :
    (∃ ms, CoreTurn s ms) ∨ (∃ ms, HostTurn s ms) ∨ ∃ ms, s.schedule = .hardReset :: ms := by
  rcases h : s.schedule with - | ⟨m, ms⟩
  · by_cases hf : s.fifo = []
    · exact .inr (.inl ⟨[], .inl ⟨h, hf, rfl⟩⟩)
    · exact .inl ⟨[], .inl ⟨h, hf, rfl⟩⟩
  · cases m with
    | core => exact .inl ⟨ms, .inr h⟩
    | host => exact .inr (.inl ⟨ms, .inr h⟩)
    | hardReset => exact .inr (.inr ⟨ms, rfl⟩)

end Sys2Proof.Machine
end

section
/-! PROOFS. Each part of the machine invariant is kept by every command effect (10_state.md R31 to R58). Where an effect writes no
field that the part reads, the part after it is the part before it by definition. -/

namespace Sys2Proof.Machine

open Sys2Proof.Safety

/-! ## The descriptor table and its FM words (20_memory.md R83) -/

theorem allocatedBelow_succ (s : State) (f : Nat) :
    allocatedBelow s (f + 1) = allocatedBelow s f + featWords (descRead s f) := by
  simp [allocatedBelow, List.range_succ]

theorem allocatedBelow_mono (s : State) : Monotone (allocatedBelow s) :=
  monotone_nat_of_le_succ fun f => by rw [allocatedBelow_succ]; omega

theorem allocatedBelow_congr {s t : State} {f : Nat} (h : ∀ g, g < f → descRead t g = descRead s g) :
    allocatedBelow t f = allocatedBelow s f := by
  unfold allocatedBelow
  rw [List.map_congr_left fun g hg => by rw [h g (List.mem_range.1 hg)]]

/-- The words of a committed feature lie below FMEM_USED. -/
theorem feature_below_fmemUsed {s : State} (h : FeatInv s) {f : Nat} (hf : f < s.featCount.toNat) :
    (descRead s f).base.toNat + (descRead s f).rows.toNat * (descRead s f).cols32.toNat ≤ s.fmemUsed.toNat := by
  obtain ⟨-, hdesc, hused, -⟩ := h
  rw [(hdesc f hf).2, hused]
  calc allocatedBelow s f + featWords (descRead s f) = allocatedBelow s (f + 1) := (allocatedBelow_succ s f).symm
    _ ≤ allocatedBelow s s.featCount.toNat := allocatedBelow_mono s hf

/-- Word `k` of row `r` lies within a matrix of `rows × cols` words. -/
theorem row_add_lt {r rows k cols : Nat} (hr : r < rows) (hk : k < cols) : r * cols + k < rows * cols :=
  calc r * cols + k < r * cols + cols := by omega
    _ = (r + 1) * cols := (Nat.succ_mul r cols).symm
    _ ≤ rows * cols := Nat.mul_le_mul_right cols hr

theorem descRead_commitFeature (s : State) (f : Nat) :
    descRead (commitFeature s) f = if f = s.featCount.toNat then newDesc s else descRead s f :=
  memRead_memWrite unlistedDesc s.desc s.featCount.toNat f (newDesc s)

theorem toNat_featCount_commitFeature {s : State} (h : s.featCount.toNat < 65535) :
    (commitFeature s).featCount.toNat = s.featCount.toNat + 1 := by
  rw [commitFeature_featCount]
  bv_omega

theorem toNat_fmemUsed_commitFeature {s : State}
    (h : s.fmemUsed.toNat + s.load.rows.toNat * s.load.cols32.toNat < 2 ^ 32) :
    (commitFeature s).fmemUsed.toNat = s.fmemUsed.toNat + s.load.rows.toNat * s.load.cols32.toNat := by
  rw [commitFeature_fmemUsed, BitVec.toNat_add, BitVec.toNat_ofNat, Nat.add_mod_mod, Nat.mod_eq_of_lt h]

/-- With no committed feature and no allocated word the table is in order. -/
theorem featInv_of_empty {s : State} (hn : s.featCount = 0) (hu : s.fmemUsed = 0) : FeatInv s := by
  exact ⟨by simp [hn], by simp [hn], by simp [hn, hu, allocatedBelow], by simp [hu]⟩

/-- FEAT_END commits a legal feature right after the ones before it (42_feature.md R192). -/
theorem featInv_commitFeature {s : State} (hl : s.cfg.Legal) (hf : FeatInv s) (hload : LoadInv s) (hp : s.phase = .loading) :
    FeatInv (commitFeature s) := by
  obtain ⟨hrows, hcols, hcols32, hbase, -, hroom, hmem, -⟩ := hload hp
  obtain ⟨hcount, hdesc, hused, -⟩ := hf
  obtain ⟨-, ⟨-, hmax⟩, -, -, ⟨-, hfm⟩, -, -⟩ := hl
  have hn := toNat_featCount_commitFeature (s := s) (by omega)
  have hu := toNat_fmemUsed_commitFeature (s := s) (by omega)
  have hold : ∀ f, f < s.featCount.toNat → descRead (commitFeature s) f = descRead s f := fun f hf => by
    rw [descRead_commitFeature, if_neg (by omega)]
  have hnew : descRead (commitFeature s) s.featCount.toNat = newDesc s := by
    rw [descRead_commitFeature, if_pos rfl]
  have halloc : ∀ f, f ≤ s.featCount.toNat → allocatedBelow (commitFeature s) f = allocatedBelow s f := fun f hf =>
    allocatedBelow_congr fun g hg => hold g (by omega)
  refine ⟨?_, fun f hf => ?_, ?_, ?_⟩
  · rw [hn]; exact hroom
  · rw [halloc f (by omega)]
    rcases Nat.lt_or_ge f s.featCount.toNat with hlt | hge
    · rw [hold f hlt]; exact hdesc f hlt
    · obtain rfl : f = s.featCount.toNat := by omega
      rw [hnew, ← hused]
      exact ⟨⟨hrows, hcols, hcols32⟩, congrArg BitVec.toNat hbase⟩
  · rw [hn, hu, allocatedBelow_succ, halloc _ le_rfl, hnew, ← hused]
    rfl
  · rw [hu]; exact hmem

theorem CommandEffect.keeps_featInv {i : Instr} {s t : State} (he : CommandEffect s i t) (hl : s.cfg.Legal) (hf : FeatInv s)
    (hload : LoadInv s) : FeatInv t := by
  cases he with
  | softReset => exact featInv_of_empty rfl rfl
  | featEnd hp => exact featInv_commitFeature hl hf hload hp
  | pixels => rw [packPixels_frame]; exact hf
  | _ => exact hf

/-! ## The row codec -/

/-- The pixel count after a PIXELS that fits its row. -/
theorem toNat_pixCount_packPixels {n : BitVec 6} {p : Word} {s : State} (hfit : s.pixCount.toNat + n.toNat ≤ rowLen s) :
    (packPixels (payloadPixels n.toNat p) s).pixCount.toNat = s.pixCount.toNat + n.toNat := by
  have hlen : rowLen s < 2 ^ 24 := by
    unfold rowLen
    split <;> omega
  rw [packPixels_pixCount]
  simp [payloadPixels]
  omega

theorem memWf_stage_packPixels (px : List Bool) {s : State} (h : memWf unlistedWord s.stage) :
    memWf unlistedWord (packPixels px s).stage := by
  induction px generalizing s with
  | nil => exact h
  | cons b px ih =>
    refine ih (s := packStep s b) ?_
    rw [packStep_stage]
    split
    · exact memWf_memWrite h _ _
    · exact h

theorem memWithin_stage_packPixels (px : List Bool) {s : State} {n : Nat} (h : memWithin s.stage n) (hw : rowWords s ≤ n) :
    memWithin (packPixels px s).stage n := by
  induction px generalizing s with
  | nil => exact h
  | cons b px ih =>
    refine ih (s := packStep s b) ?_ hw
    rw [packStep_stage]
    split
    · next hk => exact memWithin_memWrite h (by omega) _
    · exact h

/-! ## The feature being loaded, and the image size -/

theorem CommandEffect.keeps_loadInv {i : Instr} {s t : State} (he : CommandEffect s i t) (hf : FeatInv s) (h : LoadInv s) :
    LoadInv t := by
  intro ht
  cases he with
  | unchanged => exact h ht
  | setWidth | setHeight => exact h ht
  | featBegin rows cols hp hr hc hn hm =>
    have hcount := hf.1
    exact ⟨hr, rfl, hc, rfl, Nat.zero_le _, by simp; omega, hm, Nat.zero_le _⟩
  | pixels n p hp hfit =>
    have hpix := toNat_pixCount_packPixels (p := p) hfit
    rw [packPixels_frame] at ht ⊢
    obtain ⟨hrows, hcols, hcols32, hbase, hr, hroom, hmem, -⟩ := h ht
    rw [rowLen, if_pos ht] at hfit
    exact ⟨hrows, hcols, hcols32, hbase, hr, hroom, hmem, hpix.trans_le hfit⟩
  | rowCommitted hp hr hm =>
    obtain ⟨hrows, hcols, hcols32, hbase, hle, hroom, hmem, -⟩ := h hp
    refine ⟨hrows, hcols, hcols32, hbase, ?_, hroom, hmem, Nat.zero_le _⟩
    show (s.load.r + 1).toNat ≤ s.load.rows.toNat
    bv_omega
  | rowMissed n hp => rcases rowMissed_phase_cases n hp with ⟨-, h⟩ | ⟨-, h⟩ <;> cases h.symm.trans ht
  | scanStart => rcases startScan_phase_cases s with ⟨-, h⟩ | ⟨-, h⟩ <;> cases h.symm.trans ht
  | raised | softReset | featEnd | rowFound => cases ht

theorem CommandEffect.keeps_imageInv {i : Instr} {s t : State} (he : CommandEffect s i t) (h : ImageInv s) : ImageInv t := by
  cases he with
  | softReset => exact ⟨Nat.zero_le _, by simp⟩
  | setWidth val hp hw => exact ⟨hw, rfl⟩
  | pixels => rw [packPixels_frame]; exact h
  | _ => exact h

/-! ## The scan -/

theorem CommandEffect.keeps_scanInv {i : Instr} {s t : State} (he : CommandEffect s i t) (h : ScanInv s) : ScanInv t := by
  intro ht
  cases he with
  | unchanged => exact h ht
  | setWidth val hp | setHeight val hp => cases hp.symm.trans ht
  | pixels n p hp hfit =>
    have hpix := toNat_pixCount_packPixels (p := p) hfit
    rw [packPixels_frame] at ht ⊢
    obtain ⟨hn, hcycle, hy, -⟩ := h ht
    have hlen : rowLen s = s.imgWidth.toNat := by
      rw [rowLen, show s.phase = .scanning from ht]
      rfl
    exact ⟨hn, hcycle, hy, hpix.trans_le (hlen ▸ hfit)⟩
  | rowCommitted hp => cases hp.symm.trans ht
  | rowMissed n hp =>
    obtain ⟨hn, hcycle, hy, -⟩ := h hp
    rcases rowMissed_phase_cases n hp with ⟨-, h⟩ | ⟨hne, -⟩
    · cases h.symm.trans ht
    refine ⟨hn, hcycle, ?_, Nat.zero_le _⟩
    show (s.rowY + 1).toNat < s.imgHeight.toNat
    bv_omega
  | scanStart hp hn =>
    rcases startScan_phase_cases s with ⟨-, h⟩ | ⟨hne, -⟩
    · cases h.symm.trans ht
    refine ⟨?_, rfl, ?_, Nat.zero_le _⟩
    · show 1 ≤ s.featCount.toNat
      bv_omega
    · show 0 < s.imgHeight.toNat
      bv_omega
  | raised | softReset | featBegin | featEnd | rowFound => cases ht

theorem CommandEffect.keeps_rowInv {i : Instr} {s t : State} (he : CommandEffect s i t) (h : RowInv s) : RowInv t := by
  obtain ⟨hidle, hdone⟩ := h
  cases he with
  | unchanged => exact ⟨hidle, hdone⟩
  | raised => exact ⟨by simp, by simp⟩
  | softReset => exact ⟨fun _ => ⟨rfl, rfl, rfl⟩, by simp⟩
  | setWidth val hp | setHeight val hp => exact ⟨hidle, fun ht => by cases hp.symm.trans ht⟩
  | featBegin rows cols hp => exact ⟨fun _ => hidle (.inl hp), by simp⟩
  | featEnd hp => exact ⟨fun _ => hidle (.inr hp), by simp⟩
  | pixels => rw [packPixels_frame]; exact ⟨hidle, hdone⟩
  | rowCommitted hp => exact ⟨hidle, hdone⟩
  | rowFound => exact ⟨by simp, by simp⟩
  | rowMissed n hp =>
    rcases rowMissed_phase_cases n hp with ⟨hy, h⟩ | ⟨-, h⟩ <;> rw [RowInv, h]
    · exact ⟨by simp, fun _ => hy⟩
    · exact ⟨by simp, by simp⟩
  | scanStart =>
    rcases startScan_phase_cases s with ⟨hh, h⟩ | ⟨-, h⟩ <;> rw [RowInv, h]
    · exact ⟨by simp, fun _ => hh.symm⟩
    · exact ⟨by simp, by simp⟩

/-! ## Errors and results -/

theorem errorNumber_ne_zero (e : ErrorCode) : errorNumber e ≠ 0 := by
  cases e <;> decide

theorem CommandEffect.keeps_errorInv {i : Instr} {s t : State} (he : CommandEffect s i t) (h : ErrorInv s) : ErrorInv t := by
  cases he with
  | unchanged => exact h
  | raised e => exact ⟨by simp, fun _ => errorNumber_ne_zero e⟩
  | softReset => exact ⟨fun _ => ⟨rfl, rfl⟩, by simp⟩
  | setWidth | setHeight => exact h
  | featBegin rows cols hp | featEnd hp | rowFound _ _ hp => exact ⟨fun _ => h.1 (by simp [hp]), by simp⟩
  | pixels => rw [packPixels_frame]; exact h
  | rowCommitted hp => exact h
  | rowMissed n hp =>
    refine ⟨fun _ => h.1 (by simp [hp]), fun ht => ?_⟩
    rcases rowMissed_phase_cases n hp with ⟨-, h⟩ | ⟨-, h⟩ <;> cases h.symm.trans ht
  | scanStart hp =>
    refine ⟨fun _ => h.1 (by simp [hp]), fun ht => ?_⟩
    rcases startScan_phase_cases s with ⟨-, h⟩ | ⟨-, h⟩ <;> cases h.symm.trans ht

theorem CommandEffect.keeps_resultInv {i : Instr} {s t : State} (he : CommandEffect s i t) (h : ResultInv s) : ResultInv t := by
  intro ht
  cases he with
  | unchanged => exact h ht
  | raised e hterm => exact h fun hp => by simp [hp, isTerminal] at hterm
  | softReset => exact ⟨rfl, rfl, rfl, rfl⟩
  | setWidth | setHeight => exact h ht
  | featBegin rows cols hp | featEnd hp | rowMissed _ hp | scanStart hp => exact h (by simp [hp])
  | pixels => rw [packPixels_frame] at ht ⊢; exact h ht
  | rowCommitted hp => exact h ht
  | rowFound => exact absurd rfl ht

/-! ## The memories -/

theorem CommandEffect.keeps_canonical {i : Instr} {s t : State} (he : CommandEffect s i t) (h : Canonical s) : Canonical t := by
  cases he with
  | softReset =>
    obtain ⟨hstage, hsig, hdesc, hfm, hrb⟩ := h
    exact ⟨memWf_afterReset _ hstage, memWf_afterReset _ hsig, memWf_afterReset _ hdesc, memWf_afterReset _ hfm,
      memWf_afterReset _ hrb⟩
  | featEnd =>
    obtain ⟨hstage, hsig, hdesc, hfm, hrb⟩ := h
    exact ⟨hstage, hsig, memWf_memWrite hdesc _ _, hfm, hrb⟩
  | pixels n p =>
    obtain ⟨hstage, hrest⟩ := h
    have hnew := memWf_stage_packPixels (payloadPixels n.toNat p) hstage
    rw [packPixels_frame]
    exact ⟨hnew, hrest⟩
  | rowCommitted =>
    obtain ⟨hstage, hsig, hdesc, hfm, hrb⟩ := h
    exact ⟨hstage, hsig, hdesc, memWf_memWriteBlock hfm _ _, hrb⟩
  | rowFound | rowMissed =>
    obtain ⟨hstage, hsig, hdesc, hfm, hrb⟩ := h
    exact ⟨hstage, memWf_memWriteBlock hsig _ _, hdesc, hfm, memWf_memWriteBlock hrb _ _⟩
  | scanStart =>
    obtain ⟨hstage, hsig, hdesc, hfm, hrb⟩ := h
    exact ⟨hstage, memWf_memWriteBlock hsig _ _, hdesc, hfm, hrb⟩
  | _ => exact h

/-- A scan row needs no missing address exactly when these hold (log 11). -/
theorem scanRowFault_eq_none_iff (s : State) :
    scanRowFault s = none ↔
      s.imgCols32.toNat ≤ s.cfg.stageWords ∧
      (s.cycleRows.toNat ≠ 0 ∧ s.cycleRows.toNat ≤ s.cfg.maxFeatRows ∧ s.imgCols32.toNat ≤ s.cfg.maxCols32) ∧
      s.featCount.toNat ≤ s.cfg.maxFeatures ∧ featureOutsideFm s = false := by
  unfold scanRowFault
  split_ifs with hstage hrb hdesc hfm
  · simp [Nat.not_le.2 hstage]
  · simp only [false_iff]
    rintro ⟨-, hrb', -⟩
    omega
  · simp [Nat.not_le.2 hdesc]
  · simp [hfm]
  · simp [hfm]
    omega

theorem toNat_imgCols32 {s : State} (h : ImageInv s) : s.imgCols32.toNat = s.imgWidth.toNat / 32 := by
  rw [h.2]
  simp [BitVec.toNat_ushiftRight, Nat.shiftRight_eq_div_pow]
  omega

theorem imgCols32_le_maxCols32 {s : State} (h : ImageInv s) : s.imgCols32.toNat ≤ s.cfg.maxCols32 := by
  rw [toNat_imgCols32 h]
  exact Nat.div_le_div_right h.1

/-- The words a row keeps are words of STAGE. -/
theorem rowWords_le_stageWords {s : State} (hload : LoadInv s) (himg : ImageInv s)
    (hp : s.phase = .loading ∨ s.phase = .scanning) : rowWords s ≤ s.cfg.stageWords := by
  rcases hp with hp | hp
  · obtain ⟨-, -, ⟨-, hcols⟩, -⟩ := hload hp
    rw [rowWords, if_pos hp]
    exact hcols.trans (le_max_right _ _)
  · rw [rowWords, if_neg (by simp [hp])]
    exact (imgCols32_le_maxCols32 himg).trans (le_max_left _ _)

/-- The current row's words lie within RB. -/
theorem imageRow_within_rb {s : State} (hf : scanRowFault s = none) :
    rbAddr s.cfg (currentLine s) 0 + (imageRowWords s).length ≤ s.cfg.maxFeatRows * s.cfg.maxCols32 := by
  obtain ⟨-, ⟨hcycle, hrows, hcols⟩, -, -⟩ := (scanRowFault_eq_none_iff s).1 hf
  have hline : currentLine s < s.cycleRows.toNat := Nat.mod_lt _ (Nat.pos_of_ne_zero hcycle)
  rw [length_imageRowWords]
  calc currentLine s * s.cfg.maxCols32 + 0 + s.imgCols32.toNat
      ≤ (currentLine s + 1) * s.cfg.maxCols32 := by rw [Nat.succ_mul]; omega
    _ ≤ s.cfg.maxFeatRows * s.cfg.maxCols32 := Nat.mul_le_mul_right _ (by omega)

/-- The updated signatures lie within SIG. -/
theorem newSignatures_within_sig {s : State} (hf : scanRowFault s = none) :
    0 + (newSignatures (storeRow s)).length ≤ 32 * s.cfg.maxCols32 := by
  obtain ⟨-, ⟨-, -, hcols⟩, -, -⟩ := (scanRowFault_eq_none_iff s).1 hf
  simp [newSignatures]
  omega

theorem CommandEffect.keeps_withinSpaces {i : Instr} {s t : State} (he : CommandEffect s i t) (hload : LoadInv s)
    (himg : ImageInv s) (h : WithinSpaces s) : WithinSpaces t := by
  obtain ⟨hstage, hsig, hdesc, hfm, hrb⟩ := h
  cases he with
  | softReset =>
    exact ⟨memWithin_afterReset _ hstage, memWithin_afterReset _ hsig, memWithin_afterReset _ hdesc,
      memWithin_afterReset _ hfm, memWithin_afterReset _ hrb⟩
  | featEnd hp =>
    obtain ⟨-, -, -, -, -, hroom, -⟩ := hload hp
    exact ⟨hstage, hsig, memWithin_memWrite hdesc hroom _, hfm, hrb⟩
  | pixels n p hp =>
    have hnew := memWithin_stage_packPixels (payloadPixels n.toNat p) hstage (rowWords_le_stageWords hload himg hp)
    rw [packPixels_frame]
    exact ⟨hnew, hsig, hdesc, hfm, hrb⟩
  | rowCommitted hp hr hm =>
    exact ⟨hstage, hsig, hdesc, memWithin_memWriteBlock hfm (by simpa [featureRowWords] using hm), hrb⟩
  | rowFound k n hp hf | rowMissed n hp hf =>
    exact ⟨hstage, memWithin_memWriteBlock hsig (newSignatures_within_sig hf), hdesc, hfm,
      memWithin_memWriteBlock hrb (imageRow_within_rb hf)⟩
  | scanStart => exact ⟨hstage, memWithin_memWriteBlock hsig (by simp), hdesc, hfm, hrb⟩
  | _ => exact ⟨hstage, hsig, hdesc, hfm, hrb⟩

/-- Every command keeps the invariant. -/
theorem CommandEffect.keeps_inv {i : Instr} {s t : State} (he : CommandEffect s i t) (h : Inv s) : Inv t := by
  obtain ⟨hl, hfeat, hload, himg, hscan, hrow, hstream, herr, hres, hcan, hwithin⟩ := h
  obtain ⟨hcfg, -, hparse, hfifo, -⟩ := he.sameInterface
  refine ⟨hcfg ▸ hl, he.keeps_featInv hl hfeat hload, he.keeps_loadInv hfeat hload, he.keeps_imageInv himg,
    he.keeps_scanInv hscan, he.keeps_rowInv hrow, ?_, he.keeps_errorInv herr, he.keeps_resultInv hres,
    he.keeps_canonical hcan, he.keeps_withinSpaces hload himg hwithin⟩
  rw [StreamInv, hparse, hfifo, hcfg]
  exact hstream

/-! ## No command faults under the invariant (42_feature.md R191, 44_scan_engine.md R247) -/

/-- A guarded command answers a next state where its body does. -/
theorem guarded_answers {legal : Phase → Bool} {h : Word} {body : State → Result} {s : State}
    (hb : legal s.phase = true → ∃ t, body s = .next t) : ∃ t, guarded legal h body s = .next t := by
  unfold guarded
  split
  · exact ⟨_, rfl⟩
  split
  · next hl => exact hb hl
  · exact ⟨_, rfl⟩

theorem execFeatEnd_answers {s : State} (h : Inv s) : ∃ t, execFeatEnd s = .next t := by
  obtain ⟨-, -, hload, -⟩ := h
  refine guarded_answers fun hp => ?_
  obtain ⟨-, -, -, hbase, -, hroom, hmem, -⟩ := hload (by simpa [loadingOnly] using hp)
  rw [← hbase] at hmem
  split_ifs with hpix hr hfm hdesc
  · exact ⟨_, rfl⟩
  · exact ⟨_, rfl⟩
  · omega
  · omega
  · exact ⟨_, rfl⟩

theorem execPixels_answers {s : State} (n : BitVec 6) (p : Word) (h : Inv s) : ∃ t, execPixels n p s = .next t := by
  obtain ⟨-, -, hload, himg, -⟩ := h
  unfold execPixels
  split
  · exact ⟨_, rfl⟩
  split
  · exact ⟨_, rfl⟩
  refine guarded_answers fun hp => ?_
  have hw := rowWords_le_stageWords hload himg (rowPhases_cases hp)
  have hstage : stageWordMissing n.toNat s = false := by
    simp [stageWordMissing]
    omega
  unfold pixelsBody
  split
  · exact ⟨_, rfl⟩
  · simp [hstage]

/-- In LOADING the row that ROW_END commits has its words in STAGE and its place in FM (42_feature.md R191). -/
theorem featureRowCommit_answers {s : State} (h : Word) (hload : LoadInv s) (hp : s.phase = .loading) :
    ∃ t, featureRowCommit h s = .next t := by
  obtain ⟨-, -, ⟨-, hcols⟩, hbase, hr, -, hmem, -⟩ := hload hp
  unfold featureRowCommit
  split
  · exact ⟨_, rfl⟩
  next hne =>
  have hlt : s.load.r.toNat < s.load.rows.toNat := by bv_omega
  have hstage : s.load.cols32.toNat ≤ s.cfg.stageWords := hcols.trans (le_max_right _ _)
  have hrow : (s.load.r.toNat + 1) * s.load.cols32.toNat ≤ s.load.rows.toNat * s.load.cols32.toNat :=
    Nat.mul_le_mul_right _ hlt
  rw [Nat.succ_mul] at hrow
  rw [if_neg (by omega), if_neg (by rw [commitAddr, hbase]; omega)]
  exact ⟨_, rfl⟩

/-- While scanning, CYCLE_ROWS is some committed feature's height. -/
theorem cycleRows_eq_rows {s : State} (hscan : ScanInv s) (hp : s.phase = .scanning) :
    ∃ f, f < s.featCount.toNat ∧ s.cycleRows = (descRead s f).rows := by
  obtain ⟨hn, hcycle, -⟩ := hscan hp
  rw [hcycle]
  exact tallest_eq_rows s (by omega)

/-- Every address a scan row needs exists (44_scan_engine.md R247). -/
theorem scanRowFault_eq_none {s : State} (hfeat : FeatInv s) (himg : ImageInv s) (hscan : ScanInv s)
    (hp : s.phase = .scanning) : scanRowFault s = none := by
  have hcols := imgCols32_le_maxCols32 himg
  obtain ⟨f, hf, hcycle⟩ := cycleRows_eq_rows hscan hp
  obtain ⟨⟨hrows, -⟩, -⟩ := hfeat.2.1 f hf
  refine (scanRowFault_eq_none_iff s).2 ⟨hcols.trans (le_max_left _ _), ?_, hfeat.1, ?_⟩
  · rw [hcycle]
    exact ⟨by omega, hrows.2, hcols⟩
  · simp only [featureOutsideFm, List.any_eq_false, List.mem_range, decide_eq_true_eq]
    intro g hg
    have hbelow := feature_below_fmemUsed hfeat hg
    have hfm := hfeat.2.2.2
    omega

theorem execRowEnd_answers {s : State} (h : Inv s) : ∃ t, execRowEnd s = .next t := by
  obtain ⟨-, hfeat, hload, himg, hscan, -⟩ := h
  refine guarded_answers fun hl => ?_
  unfold rowEndBody
  split
  · exact ⟨_, rfl⟩
  split
  · next hp => exact featureRowCommit_answers _ hload hp
  · next hp =>
    have hnone := scanRowFault_eq_none hfeat himg hscan ((rowPhases_cases hl).resolve_left hp)
    simp [scanRowEnd, hnone]

theorem execScanStart_answers {s : State} (h : Inv s) : ∃ t, execScanStart s = .next t := by
  obtain ⟨-, hfeat, -, himg, -⟩ := h
  have hcols := imgCols32_le_maxCols32 himg
  have hcount := hfeat.1
  refine guarded_answers fun _ => ?_
  split_ifs with hn hdesc hsig
  · exact ⟨_, rfl⟩
  · omega
  · omega
  · exact ⟨_, rfl⟩

/-- Under the invariant every command completes. -/
theorem exec_answers {s : State} (i : Instr) (h : Inv s) : ∃ t, exec i s = .next t := by
  cases i with
  | nop =>
    show ∃ t, execNop s = .next t
    exact guarded_answers fun _ => ⟨_, rfl⟩
  | softReset => exact ⟨_, rfl⟩
  | setWidth val =>
    show ∃ t, execSetWidth val s = .next t
    exact guarded_answers fun _ => by split_ifs <;> exact ⟨_, rfl⟩
  | setHeight val =>
    show ∃ t, execSetHeight val s = .next t
    exact guarded_answers fun _ => ⟨_, rfl⟩
  | featBegin rows cols =>
    show ∃ t, execFeatBegin rows cols s = .next t
    exact guarded_answers fun _ => by split_ifs <;> exact ⟨_, rfl⟩
  | featEnd => exact execFeatEnd_answers h
  | pixels n p => exact execPixels_answers n p h
  | rowEnd => exact execRowEnd_answers h
  | streamEnd =>
    show ∃ t, execStreamEnd s = .next t
    exact guarded_answers fun _ => ⟨_, rfl⟩
  | scanStart => exact execScanStart_answers h

end Sys2Proof.Machine
end

section
/-! PROOFS. The invariant holds at reset and every step keeps it (10_state.md R31 to R58). -/

namespace Sys2Proof.Machine

open Sys2Proof.Safety

/-! ## The invariant along a core move -/

/-- An error keeps the invariant, whatever header it records. -/
theorem inv_raise {s : State} (e : ErrorCode) (h : Word) (ht : isTerminal s.phase = false) (hi : Inv s) :
    Inv (raise e h s) := by
  obtain ⟨hl, hfeat, hload, himg, hscan, hrow, hstream, ⟨-, hcode⟩, hrest⟩ :=
    (CommandEffect.raised (i := .nop) e ht).keeps_inv hi
  exact ⟨hl, hfeat, hload, himg, hscan, hrow, hstream, ⟨fun hne => absurd rfl hne, hcode⟩, hrest⟩

/-- Executing a decoded or refused header completes and keeps the invariant (30_encoding.md R116). -/
theorem execute_keeps_inv {s : State} (h p : Word) (hi : Inv s) : ∃ t, execute h p s = .next t ∧ Inv t := by
  unfold execute
  split
  · next i hd =>
    obtain ⟨t, ht⟩ := exec_answers i hi
    exact ⟨t, ht, (commandEffect_of_exec ht).keeps_inv hi⟩
  · next e hd =>
    refine ⟨_, rfl, ?_⟩
    rcases rejectWord_cases e h s with hr | ⟨ht, hr⟩ <;> rw [hr]
    · exact hi
    · exact inv_raise _ h ht hi

theorem inv_takeWord {s : State} (h : Inv s) : Inv (takeWord s) := by
  obtain ⟨hl, hfeat, hload, himg, hscan, hrow, ⟨hfifo, hparse⟩, hrest⟩ := h
  refine ⟨hl, hfeat, hload, himg, hscan, hrow, ⟨?_, hparse⟩, hrest⟩
  rw [takeWord_fifo, List.length_drop]
  exact (Nat.sub_le _ _).trans hfifo

/-- Any parser position that saves only PIXELS headers keeps the invariant. -/
theorem inv_withParse {s : State} {q : Parse} (h : Inv s) (hq : payloadHeader q = true) : Inv { s with parse := q } := by
  obtain ⟨hl, hfeat, hload, himg, hscan, hrow, ⟨hfifo, -⟩, hrest⟩ := h
  exact ⟨hl, hfeat, hload, himg, hscan, hrow, ⟨hfifo, hq⟩, hrest⟩

theorem coreMove_keeps_inv {s : State} (h : Inv s) : ∃ t, coreMove s = .next t ∧ Inv t := by
  unfold coreMove
  split
  · exact ⟨s, rfl, h⟩
  next w _ _ =>
  have h := inv_takeWord h
  unfold parseWord
  split
  · exact execute_keeps_inv _ _ (inv_withParse h rfl)
  split
  · next hw => exact ⟨_, rfl, inv_withParse h hw⟩
  · exact execute_keeps_inv _ _ h

/-! ## The invariant along a reset and a host move -/

theorem inv_softReset {s : State} (h : Inv s) : Inv (softReset s) := CommandEffect.softReset.keeps_inv h

theorem inv_srst {s : State} (v : Word) (h : Inv s) : Inv (srst v s) := by
  refine inv_softReset ?_
  obtain ⟨hl, hfeat, hload, himg, hscan, hrow, -, hrest⟩ := h
  exact ⟨hl, hfeat, hload, himg, hscan, hrow, ⟨Nat.zero_le _, rfl⟩, hrest⟩

/-- A hardware reset is a soft reset with CTRL, the command stream, CMD_COUNT and FEAT_SEL cleared too
(70_reset_and_hazards.md R323). -/
theorem hardReset_eq (s : State) :
    hardReset s = { srst 0 s with cmdCount := 0, featSel := 0 } := rfl

theorem inv_hardReset {s : State} (h : Inv s) : Inv (hardReset s) := by
  have hs := inv_srst 0 h
  rw [hardReset_eq]
  exact hs

theorem HostEffect.keeps_inv {s t : State} (he : HostEffect s t) (h : Inv s) : Inv t := by
  cases he with
  | srst v =>
    have hs := inv_srst v h
    exact hs
  | push v rest hroom =>
    obtain ⟨hl, hfeat, hload, himg, hscan, hrow, ⟨-, hparse⟩, hrest⟩ := h
    refine ⟨hl, hfeat, hload, himg, hscan, hrow, ⟨?_, hparse⟩, hrest⟩
    simpa [pushCmd] using hroom
  | _ => exact h

theorem inv_resetWith {cfg : Config} (h : cfg.Legal) : Inv (State.resetWith cfg) := by
  have hphase : (State.resetWith cfg).phase = .config := rfl
  refine ⟨h, featInv_of_empty rfl rfl, ?_, ⟨Nat.zero_le _, by simp [State.resetWith]⟩, ?_, ⟨fun _ => ⟨rfl, rfl, rfl⟩, ?_⟩,
    ⟨Nat.zero_le _, rfl⟩, ⟨fun _ => ⟨rfl, rfl⟩, ?_⟩, fun _ => ⟨rfl, rfl, rfl, rfl⟩, ?_, ?_⟩
  · simp [hphase]
  · simp [hphase]
  · simp [hphase]
  · simp [hphase]
  · simp [State.resetWith, Canonical, memWf]
  · simp [State.resetWith, WithinSpaces, memWithin]

end Sys2Proof.Machine

open Sys2Proof Sys2Proof.Machine Sys2Proof.Safety

/-- Settles O27: whoever has the turn, its move completes and keeps every part of the invariant. -/
theorem stepKeepsInvariant : Obligations.StepKeepsInvariant := by
  intro s h
  rcases turn_cases s with ⟨ms, hc⟩ | ⟨ms, hh⟩ | ⟨ms, hr⟩
  · rw [step_of_coreTurn hc]
    exact coreMove_keeps_inv (s := { s with schedule := ms }) h
  · exact ⟨_, step_of_hostTurn hh, (hostMove_effect _).keeps_inv h⟩
  · exact ⟨_, step_of_hardReset hr, inv_hardReset (s := { s with schedule := ms }) h⟩

/-- Settles O26: at reset every count and every memory is empty. -/
theorem invariantAtReset : Obligations.InvariantAtReset := by
  refine ⟨fun cfg h => ⟨inv_resetWith h, fun f hf => ?_⟩, inv_resetWith (by decide)⟩
  exact absurd hf (Nat.not_lt_zero f)
end

section
/-! PROOFS. A committed feature stays as it is until a reset, and its signature with it (10_state.md R40, R41, 42_feature.md R193). -/

namespace Sys2Proof.Machine

open Sys2Proof.Safety

/-- `t` holds feature `f` as `s` does: its descriptor and every word of its matrix. -/
def SameFeature (s t : State) (f : Nat) : Prop :=
  descRead t f = descRead s f ∧
    ∀ r, r < (descRead s f).rows.toNat → ∀ k, k < (descRead s f).cols32.toNat →
      featureWord t (descRead s f) r k = featureWord s (descRead s f) r k

/-- A row commit writes FM from FMEM_USED on, above every committed feature (42_feature.md R191). -/
theorem fmRead_commitRow_of_lt {s : State} (hload : LoadInv s) (hp : s.phase = .loading) {a : Nat}
    (ha : a < s.fmemUsed.toNat) : fmRead (commitRow s) a = fmRead s a := by
  obtain ⟨-, -, -, hbase, -⟩ := hload hp
  rw [fmRead_commitRow, if_neg]
  rw [commitAddr, hbase]
  omega

theorem featureWord_lt_fmemUsed {s : State} (h : FeatInv s) {f r k : Nat} (hf : f < s.featCount.toNat)
    (hr : r < (descRead s f).rows.toNat) (hk : k < (descRead s f).cols32.toNat) :
    (descRead s f).base.toNat + r * (descRead s f).cols32.toNat + k < s.fmemUsed.toNat := by
  have hrow := row_add_lt hr hk
  have hend := feature_below_fmemUsed h hf
  omega

/-- No command changes a feature that is committed before and after it (10_state.md R40, R41). -/
theorem CommandEffect.sameFeature {i : Instr} {s t : State} (he : CommandEffect s i t) (hfeat : FeatInv s)
    (hload : LoadInv s) {f : Nat} (hf : f < s.featCount.toNat) (hf' : f < t.featCount.toNat) : SameFeature s t f := by
  cases he with
  | softReset => exact absurd hf' (Nat.not_lt_zero f)
  | featEnd =>
    refine ⟨?_, fun _ _ _ _ => rfl⟩
    rw [descRead_commitFeature, if_neg (by omega)]
  | pixels => rw [packPixels_frame]; exact ⟨rfl, fun _ _ _ _ => rfl⟩
  | rowCommitted hp =>
    exact ⟨rfl, fun r hr k hk => fmRead_commitRow_of_lt hload hp (featureWord_lt_fmemUsed hfeat hf hr hk)⟩
  | _ => exact ⟨rfl, fun _ _ _ _ => rfl⟩

/-- How FEAT_COUNT can change: FEAT_END adds the one feature it commits, SOFT_RESET drops them all. -/
theorem CommandEffect.featCount_cases {i : Instr} {s t : State} (he : CommandEffect s i t) (hl : s.cfg.Legal)
    (hload : LoadInv s) :
    t.featCount = s.featCount ∨
    (t = commitFeature s ∧ t.featCount.toNat = s.featCount.toNat + 1) ∨
    (i = .softReset ∧ t.featCount = 0) := by
  cases he with
  | softReset => exact .inr (.inr ⟨rfl, rfl⟩)
  | featEnd hp =>
    obtain ⟨-, -, -, -, -, hroom, -⟩ := hload hp
    obtain ⟨-, ⟨-, hmax⟩, -⟩ := hl
    exact .inr (.inl ⟨rfl, toNat_featCount_commitFeature (by omega)⟩)
  | pixels => rw [packPixels_frame]; exact .inl rfl
  | _ => exact .inl rfl

/-! ## Signatures -/

/-- The stored signature reads words of the feature's own matrix alone. -/
theorem storedSignature_congr {s t : State} {d : Desc} (hd : 1 ≤ d.cols32.toNat)
    (h : ∀ r, r < d.rows.toNat → ∀ k, k < d.cols32.toNat → featureWord t d r k = featureWord s d r k) :
    storedSignature t d = storedSignature s d := by
  unfold storedSignature
  refine List.foldl_ext _ _ _ fun v r hr => ?_
  rw [h r (List.mem_range.1 hr) 0 hd]

/-- FEAT_END stores the signature of the rows it commits (42_feature.md R193). -/
theorem sig_newDesc (s : State) : (newDesc s).sig = storedSignature (commitFeature s) (newDesc s) := rfl

theorem CommandEffect.keeps_signatureInv {i : Instr} {s t : State} (he : CommandEffect s i t) (hi : Inv s)
    (h : SignatureInv s) : SignatureInv t := by
  obtain ⟨hl, hfeat, hload, -⟩ := hi
  intro f hf
  by_cases hold : f < s.featCount.toNat
  · obtain ⟨hdesc, hwords⟩ := he.sameFeature hfeat hload hold hf
    obtain ⟨⟨-, -, hcols, -⟩, -⟩ := hfeat.2.1 f hold
    rw [hdesc, storedSignature_congr hcols hwords]
    exact h f hold
  · rcases he.featCount_cases hl hload with hn | ⟨rfl, hn⟩ | ⟨-, hn⟩
    · exact absurd (hn ▸ hf) hold
    · obtain rfl : f = s.featCount.toNat := by omega
      rw [descRead_commitFeature, if_pos rfl]
      exact sig_newDesc s
    · rw [hn] at hf
      exact absurd hf (Nat.not_lt_zero f)

theorem signatureInv_of_empty {s : State} (h : s.featCount = 0) : SignatureInv s := by
  intro f hf
  rw [h] at hf
  exact absurd hf (Nat.not_lt_zero f)

theorem coreMove_keeps_signatureInv {s t : State} (hx : coreMove s = .next t) (hi : Inv s) (h : SignatureInv s) :
    SignatureInv t := by
  rcases coreMove_cases hx with ⟨-, rfl⟩ | ⟨w, ws, -, ⟨-, -, rfl⟩ | ⟨hd, p, -, ⟨i, -, hex⟩ | ⟨e, -, rfl⟩⟩⟩
  · exact h
  · exact h
  · exact (commandEffect_of_exec hex).keeps_signatureInv (inv_withParse (inv_takeWord hi) rfl) h
  · rcases rejectWord_cases e hd { takeWord s with parse := .header } with hr | ⟨-, hr⟩ <;> rw [hr] <;> exact h

theorem HostEffect.keeps_signatureInv {s t : State} (he : HostEffect s t) (h : SignatureInv s) : SignatureInv t := by
  cases he with
  | srst => exact signatureInv_of_empty rfl
  | _ => exact h

end Sys2Proof.Machine

open Sys2Proof Sys2Proof.Machine Sys2Proof.Safety

/-- Settles O28: a core move keeps each committed feature's descriptor and words, and commits a new one with its signature; a reset
drops them all. -/
theorem stepKeepsSignatures : Obligations.StepKeepsSignatures := by
  intro s t hi h hx
  rcases turn_cases s with ⟨ms, hc⟩ | ⟨ms, hh⟩ | ⟨ms, hr⟩
  · rw [step_of_coreTurn hc] at hx
    exact coreMove_keeps_signatureInv hx hi h
  · rw [step_of_hostTurn hh] at hx
    cases hx
    exact (hostMove_effect _).keeps_signatureInv h
  · rw [step_of_hardReset hr] at hx
    cases hx
    exact signatureInv_of_empty rfl

/-- Settles O29: row commits write FM above FMEM_USED, and FEAT_END writes the first free descriptor. -/
theorem committedFeaturesStay : Obligations.CommittedFeaturesStay := by
  intro i s t ⟨hl, hfeat, hload, _⟩ hx hi
  have he := commandEffect_of_exec hx
  have hcount : s.featCount.toNat ≤ t.featCount.toNat := by
    rcases he.featCount_cases hl hload with hn | ⟨-, hn⟩ | ⟨hs, -⟩
    · rw [hn]
    · omega
    · exact absurd hs hi
  refine ⟨hcount, fun f hf => ?_⟩
  obtain ⟨hdesc, hwords⟩ := he.sameFeature hfeat hload hf (by omega)
  refine ⟨hdesc, fun r hr k hk => ?_⟩
  rw [hdesc]
  exact hwords r hr k hk

/-- Settles O10: a core move takes one word and counts it, and no host move does. -/
theorem cmdCountCountsConsumedWords : Obligations.CmdCountCountsConsumedWords := by
  refine ⟨fun s t ms hx => ⟨fun hc w ws hf => ?_, fun hc hf => ?_, fun hh => ?_, fun hr => ?_⟩, fun s t hx => ?_⟩
  · rw [step_of_coreTurn hc] at hx
    obtain ⟨-, hfifo, hcount⟩ := coreMove_takes_word hx hf
    exact ⟨hcount, hfifo⟩
  · have hrun : coreMove { s with schedule := ms } = .next { s with schedule := ms } := coreMove_of_empty hf
    rw [step_of_coreTurn (.inr hc), hrun] at hx
    cases hx
    rfl
  · rw [step_of_hostTurn hh] at hx
    cases hx
    exact (hostMove_effect _).cmdCount_eq
  · rw [step_of_hardReset hr] at hx
    cases hx
    rfl
  · obtain ⟨-, -, -, -, hcount, -⟩ := (commandEffect_of_exec hx).sameInterface
    exact hcount
end

section
/-! PROOFS. The transitions of the phase (10_state.md R31), and what one scan row makes of CAND_COUNT, RB and SIG
(44_scan_engine.md R241 to R244). -/

namespace Sys2Proof.Machine

open Sys2Proof.Safety

/-! ## One scan row -/

/-- ROW_END of a complete row in SCANNING is scan_row and the row's end, and then needs no missing address (41_row_codec.md R172). -/
theorem execRowEnd_complete {s t : State} (hp : s.phase = .scanning) (hpix : s.pixCount = s.imgWidth)
    (hx : execRowEnd s = .next t) : scanRowFault s = none ∧ t = clearRow (searchRow (searchState s)) := by
  have hrun : execRowEnd s = scanRowEnd s := by
    simp [execRowEnd, guarded, rowEndBody, rowPhases, rowLen, isTerminal, hp, hpix]
  exact scanRowEnd_cases (hrun ▸ hx)

/-- The comparisons of a search: the candidates before the first match, and the match itself (44_scan_engine.md R243). -/
theorem toNat_search_count (s : State) (ks : List Candidate) (n : BitVec 32) :
    (search s ks n).1.toNat = min (2 ^ 32 - 1)
      (n.toNat + (ks.takeWhile fun k => !matchesAt s k.f k.o k.c s.rowY.toNat).length +
        if (search s ks n).2.isSome then 1 else 0) := by
  induction ks generalizing n with
  | nil => simp [search]; omega
  | cons k ks ih =>
    have hcount := toNat_countCandidate n
    unfold search
    cases hm : matchesAt s k.f k.o k.c s.rowY.toNat with
    | true => simp [hm, hcount]
    | false =>
      simp [hm, ih, hcount]
      omega

/-! ## The history of a scan (10_state.md R38, R42) -/

/-- Two rows fewer than `n` apart lie in different lines of `n`. -/
theorem mod_ne_of_near {i j n : Nat} (hlt : i < j) (hnear : j < i + n) : i % n ≠ j % n := by
  intro h
  have hdvd : n ∣ j - i := (Nat.modEq_iff_dvd' hlt.le).1 h
  exact absurd (Nat.le_of_dvd (by omega) hdvd) (by omega)

/-- Storing row ROW_Y keeps the last CYCLE_ROWS rows, that one included, in RB. -/
theorem rbRead_searchState {img : Nat → Nat → Bool} {s : State} (hcols : s.imgCols32.toNat ≤ s.cfg.maxCols32)
    (hbuf : BufferHolds img s) (hstaged : RowStaged img s) {i c : Nat} (hi : i < s.rowY.toNat + 1)
    (hnear : s.rowY.toNat + 1 ≤ i + s.cycleRows.toNat) (hc : c < s.imgCols32.toNat) :
    rbRead (searchState s) (i % s.cycleRows.toNat) c = imageWord img i c := by
  show rbRead (storeRow s) (i % s.cycleRows.toNat) c = imageWord img i c
  rw [rbRead_storeRow s _ c hcols (by omega)]
  rcases Nat.lt_succ_iff_lt_or_eq.1 hi with hlt | rfl
  · rw [if_neg fun h => mod_ne_of_near hlt (by omega) h.1]
    exact hbuf i hlt c hc (by omega)
  · rw [if_pos ⟨rfl, hc⟩]
    exact hstaged c hc

/-- Taking row ROW_Y in keeps the last 32 pixels of every column, that row's included, in SIG. -/
theorem sigRead_searchState {img : Nat → Nat → Bool} {s : State} (hsig : SignaturesHold img s) (hstaged : RowStaged img s)
    {x b : Nat} (hx : x < 32 * s.imgCols32.toNat) (hb : b < 32) :
    (sigRead (searchState s) x).getLsbD b = (decide (b < s.rowY.toNat + 1) && img (s.rowY.toNat - b) x) := by
  show (sigRead (updateSignatures (storeRow s)) x).getLsbD b = _
  rw [sigRead_updateSignatures, storeRow_imgCols32, if_pos hx, getLsbD_shiftIn _ _ _ hb]
  by_cases h0 : b = 0
  · subst h0
    rw [if_pos rfl, show stageRead (storeRow s) (x / 32) = imageWord img s.rowY.toNat (x / 32) from hstaged _ (by omega),
      imageWord, pixelOf_packWord _ _ (Nat.mod_lt _ (by omega)), Nat.div_add_mod]
    simp
  · rw [if_neg h0, show sigRead (storeRow s) x = sigRead s x from rfl, hsig x hx (b - 1) (by omega)]
    rw [show s.rowY.toNat - 1 - (b - 1) = s.rowY.toNat - b by omega]
    congr 1
    simp
    omega

/-- A row without a match leaves the history of the next row. -/
theorem scanned_advanceRow {img : Nat → Nat → Bool} {s : State} (n : BitVec 32) (himg : ImageInv s) (hscan : ScanInv s)
    (hp : s.phase = .scanning) (h : Scanned img s) (hstaged : RowStaged img s) :
    Scanned img (clearRow (advanceRow { searchState s with candCount := n })) := by
  obtain ⟨-, -, hy, -⟩ := hscan hp
  have hnext : (s.rowY + 1).toNat = s.rowY.toNat + 1 := by bv_omega
  refine ⟨fun i hi c hc hnear => ?_, fun x hx b hb => ?_⟩
  · exact rbRead_searchState (imgCols32_le_maxCols32 himg) h.1 hstaged (hnext ▸ hi) (hnext ▸ hnear) hc
  · show (sigRead (searchState s) x).getLsbD b = (decide (b < (s.rowY + 1).toNat) && img ((s.rowY + 1).toNat - 1 - b) x)
    rw [sigRead_searchState h.2 hstaged hx hb, hnext]
    rfl

end Sys2Proof.Machine

open Sys2Proof Sys2Proof.Machine Sys2Proof.Safety

/-- Settles O24: each effect that changes the phase is one of the transitions; of the host's moves only CTRL.SRST changes it. -/
theorem phaseTransitions : Obligations.PhaseTransitions := by
  refine ⟨fun i s t hx => ?_, fun s t ms hh hx => ?_⟩
  · cases commandEffect_of_exec hx with
    | unchanged | setWidth | setHeight | rowCommitted => exact .inl rfl
    | pixels => rw [packPixels_frame]; exact .inl rfl
    | raised e ht => simp [ht]
    | softReset => simp
    | featBegin rows cols hp => simp [hp]
    | featEnd hp => simp [hp]
    | rowFound k n hp => simp [hp]
    | rowMissed n hp =>
      rcases rowMissed_phase_cases n hp with ⟨-, h⟩ | ⟨-, h⟩ <;> rw [h] <;> simp [hp]
    | scanStart hp =>
      rcases startScan_phase_cases s with ⟨hz, h⟩ | ⟨-, h⟩ <;> rw [h]
      · simp [hp, hz]
      · simp [hp]
  · rw [step_of_hostTurn hh] at hx
    cases hx
    exact (hostMove_effect { s with schedule := ms }).phase_cases

/-- Settles O53: by induction on the candidates searched. -/
theorem candidateCountSaturates : Obligations.CandidateCountSaturates := by
  intro s t hp hpix hx
  obtain ⟨-, rfl⟩ := execRowEnd_complete hp hpix hx
  have hcount := toNat_search_count (searchState s) (candidates (searchState s)) s.candCount
  rcases searchRow_cases (searchState s) with ⟨k, n, hk, h⟩ | ⟨n, hk, h⟩ <;> rw [h]
  · rw [show search _ _ s.candCount = (n, some k) from hk] at hcount
    exact hcount
  · rw [show search _ _ s.candCount = (n, none) from hk] at hcount
    rw [if_neg]
    · exact hcount
    · rcases rowMissed_phase_cases n hp with ⟨-, hph⟩ | ⟨-, hph⟩ <;> rw [hph] <;> decide

/-- Settles O54: the row overwrites the one line and shifts out the one pixel per column that the next row no longer needs. -/
theorem rowEndKeepsTheHistory : Obligations.RowEndKeepsTheHistory := by
  intro img s t ⟨_, _, _, himg, hscan, _⟩ hp hpix hs hstaged hx hfound
  obtain ⟨-, rfl⟩ := execRowEnd_complete hp hpix hx
  rcases searchRow_cases (searchState s) with ⟨k, n, -, h⟩ | ⟨n, -, h⟩
  · rw [h] at hfound
    exact absurd rfl hfound
  · rw [h]
    exact scanned_advanceRow n himg hscan hp hs hstaged
end

section
/-! PROOFS. What the host reads through the register window (10_state.md R23 to R34, R50 to R58). -/

namespace Sys2Proof.Machine

open Sys2Proof.Safety

/-! ## The configuration -/

/-- No step changes the configuration (10_state.md R20, log 1). -/
theorem step_cfg_eq {s t : State} (hx : step s = .next t) : t.cfg = s.cfg := by
  rcases turn_cases s with ⟨ms, hc⟩ | ⟨ms, hh⟩ | ⟨ms, hr⟩
  · rw [step_of_coreTurn hc] at hx
    rcases hf : s.fifo with - | ⟨w, ws⟩
    · have hrun : coreMove { s with schedule := ms } = .next { s with schedule := ms } := coreMove_of_empty hf
      cases hrun.symm.trans hx
      rfl
    · exact (coreMove_takes_word hx hf).1
  · cases (step_of_hostTurn hh).symm.trans hx
    exact (hostMove_effect _).cfg_eq
  · cases (step_of_hardReset hr).symm.trans hx
    rfl

/-- ID, VERSION and the capability registers read nothing but the configuration (10_state.md R24, R25). -/
theorem regRead_congr_of_cfg {s t : State} (h : t.cfg = s.cfg) {off : Nat}
    (ho : off ∈ [0x00, 0x04, 0x08, 0x0C, 0x10, 0x14]) : regRead t off = regRead s off := by
  simp only [List.mem_cons, List.not_mem_nil, or_false] at ho
  rcases ho with rfl | rfl | rfl | rfl | rfl | rfl <;> simp [regRead, h]

/-! ## Fields of a register word -/

/-- A field reads back from the place it was put at. -/
theorem extractLsb'_field_same {w n : Nat} (x : BitVec w) (h : n + w ≤ 32) :
    (x.setWidth 32 <<< n).extractLsb' n w = x := by
  apply BitVec.eq_of_getLsbD_eq
  intro i hi
  simp [hi, show n + i < 32 by omega]

/-- A field leaves the bits beside it 0. -/
theorem extractLsb'_field_beside {w n m k : Nat} (x : BitVec w) (h : n + w ≤ m ∨ m + k ≤ n) :
    (x.setWidth 32 <<< n).extractLsb' m k = 0#k := by
  apply BitVec.eq_of_getLsbD_eq
  intro i hi
  by_cases hn : m + i < n
  · simp [hn]
  · simp [BitVec.getLsbD_of_ge x (m + i - n) (by omega)]

/-- CAP_FEAT field by field (10_state.md R25). -/
theorem capFeatWord_fields (cfg : Config) :
    (capFeatWord cfg).extractLsb' 0 16 = BitVec.ofNat 16 cfg.maxFeatures ∧
    (capFeatWord cfg).extractLsb' 16 12 = BitVec.ofNat 12 cfg.maxFeatRows ∧
    (capFeatWord cfg).extractLsb' 28 4 = 0#4 := by
  rw [capFeatWord, ← BitVec.shiftLeft_zero ((BitVec.ofNat 16 cfg.maxFeatures).setWidth 32)]
  refine ⟨?_, ?_, ?_⟩ <;>
    simp (disch := omega) only [BitVec.extractLsb'_or, extractLsb'_field_same, extractLsb'_field_beside, BitVec.or_zero,
      BitVec.zero_or]

theorem phaseCode_injective : Function.Injective phaseCode := by
  intro p q h
  cases p <;> cases q <;> simp [phaseCode] at h ⊢

/-- STATUS field by field (10_state.md R27). -/
theorem statusWord_fields (s : State) :
    (statusWord s).extractLsb' 0 3 = phaseCode s.phase ∧ (statusWord s).getLsbD 3 = doneBit s ∧
    (statusWord s).getLsbD 4 = idleBit s ∧ (statusWord s).getLsbD 5 = payloadWaitBit s ∧
    (statusWord s).getLsbD 6 = irqLine s ∧ (statusWord s).getLsbD 7 = fifoFullBit s ∧
    (statusWord s).extractLsb' 8 24 = 0#24 := by
  unfold statusWord
  refine ⟨?_, by simp, by simp, by simp, by simp, by simp, ?_⟩ <;>
    rw [← BitVec.shiftLeft_zero ((phaseCode s.phase).setWidth 32)] <;>
    simp (disch := omega) only [BitVec.extractLsb'_or, extractLsb'_field_same, extractLsb'_field_beside, BitVec.or_zero]

/-- The fields of FEAT_DIM (10_state.md R58). -/
theorem dimWord_fields (d : Desc) :
    (dimWord d).getLsbD 31 = true ∧ (dimWord d).extractLsb' 24 7 = d.cols32 ∧ (dimWord d).extractLsb' 12 12 = d.rows ∧
    (dimWord d).extractLsb' 0 12 = d.cols := by
  have hvalid : (1#32 : Word) <<< 31 = (1#1).setWidth 32 <<< 31 := rfl
  unfold dimWord
  refine ⟨by simp, ?_, ?_, ?_⟩ <;> rw [hvalid, ← BitVec.shiftLeft_zero (d.cols.setWidth 32)] <;>
    simp (disch := omega) only [BitVec.extractLsb'_or, extractLsb'_field_same, extractLsb'_field_beside, BitVec.or_zero,
      BitVec.zero_or]

/-! ## Writing a register -/

/-- A host write to a window register that does not wait takes its effect and is answered (40_control.md R151). -/
theorem hostMove_windowWrite {s : State} {off : Nat} {v : Word} {hs : List HostAccess}
    (hh : s.host = .write (s.cfg.baseAddr + off) 4 v :: hs) (hoff : off ≤ 0xFF) (halign : off % 4 = 0)
    (hroom : off = 0x28 → s.fifo.length < s.cfg.cmdFifoDepth) :
    hostMove s = { regWrite off v { s with host := hs } with response := some .done } := by
  have hw : inWindow s.cfg (s.cfg.baseAddr + off) = true := by
    simp [inWindow]
    omega
  have ho : windowOffset s.cfg (s.cfg.baseAddr + off) = off := Nat.add_sub_cancel_left _ _
  have hl : legalAccess off 4 = true := by simp [legalAccess, halign]
  have hstall : stalls s (.write (s.cfg.baseAddr + off) 4 v) = false := by
    simp only [stalls, isCmdWrite, hw, ho, hl, Bool.true_and, Bool.and_eq_false_iff, beq_eq_false_iff_ne,
      decide_eq_false_iff_not]
    omega
  unfold hostMove
  rw [hh]
  simp only [hstall, access, busWrite, hw, ho, hl, if_true]
  rfl

end Sys2Proof.Machine

open Sys2Proof Sys2Proof.Machine Sys2Proof.Safety

/-- Settles O16: the six registers read the configuration alone, which no step changes. -/
theorem constantRegisters : Obligations.ConstantRegisters := by
  intro s hl
  obtain ⟨⟨-, hwidth⟩, ⟨-, hfeats⟩, ⟨-, hrows⟩, ⟨-, hcols⟩, ⟨-, hwords⟩, -, -⟩ := hl
  obtain ⟨hcapFeats, hcapRows, hcapZero⟩ := capFeatWord_fields s.cfg
  refine ⟨fun off v hs ms ho hh hw => ?_, fun t hx off ho => regRead_congr_of_cfg (step_cfg_eq hx) ho, rfl, rfl,
    ?_, ?_, ?_, hcapZero, ?_, ?_⟩
  · refine ⟨_, step_of_hostTurn hh, ?_⟩
    rw [hostMove_windowWrite (s := { s with schedule := ms }) hw (by omega) (by omega) (by omega)]
    rcases ho with rfl | rfl <;> rfl
  · show ((BitVec.ofNat 24 s.cfg.maxWidth).setWidth 32).toNat = _
    simp
    omega
  · show ((capFeatWord s.cfg).extractLsb' 0 16).toNat = _
    rw [hcapFeats, BitVec.toNat_ofNat, Nat.mod_eq_of_lt (by omega)]
  · show ((capFeatWord s.cfg).extractLsb' 16 12).toNat = _
    rw [hcapRows, BitVec.toNat_ofNat, Nat.mod_eq_of_lt (by omega)]
  · show (BitVec.ofNat 32 s.cfg.featMemWords).toNat = _
    rw [BitVec.toNat_ofNat, Nat.mod_eq_of_lt (by omega)]
  · show ((BitVec.ofNat 7 s.cfg.maxFeatCols32).setWidth 32).toNat = _
    simp
    omega

/-- Settles O17: each register's value fits in its 32 bits. -/
theorem registerWindowReads : Obligations.RegisterWindowReads := by
  intro s
  refine ⟨?_, fun off ho => ?_⟩
  · have hirq := Bool.toNat_lt s.irqEn
    simp [regRead, ctrlWord]
    omega
  · simp only [List.mem_cons, List.not_mem_nil, or_false, not_or] at ho
    simp [regRead, ho]

/-- Settles O18: STATUS field by field, each phase with its own code. -/
theorem statusBits : Obligations.StatusBits := by
  intro s
  obtain ⟨hphase, hdone, hidle, hwait, hirq, hfull, hzero⟩ := statusWord_fields s
  have hterm : doneBit s = true ↔ s.phase = .found ∨ s.phase = .exhausted ∨ s.phase = .error := by
    unfold doneBit
    cases s.phase <;> simp [isTerminal]
  have hcode : ∀ p, (statusWord s).extractLsb' 0 3 = phaseCode p ↔ s.phase = p := by
    intro p
    rw [hphase]
    exact phaseCode_injective.eq_iff
  refine ⟨hcode .config, hcode .loading, hcode .scanning, hcode .found, hcode .exhausted, hcode .error, ?_, ?_, ?_, hirq,
    ?_, ?_, hzero⟩
  · exact (Bool.eq_iff_iff.1 hdone).trans hterm
  · refine (Bool.eq_iff_iff.1 hidle).trans ?_
    simp [idleBit]
  · refine (Bool.eq_iff_iff.1 hwait).trans ?_
    unfold payloadWaitBit
    cases s.parse <;> simp
  · rw [irqLine, Bool.and_eq_true, hterm]
  · refine (Bool.eq_iff_iff.1 hfull).trans ?_
    simp [fifoFullBit]

/-- Settles O19: the view of the selected descriptor, 0 where none is selected. -/
theorem descriptorWindow : Obligations.DescriptorWindow := by
  intro s
  have hread : regRead s 0x84 = descWindow dimWord s ∧ regRead s 0x88 = descWindow Desc.sig s ∧
    regRead s 0x8C = descWindow Desc.base s := ⟨rfl, rfl, rfl⟩
  obtain ⟨h84, h88, h8C⟩ := hread
  rw [h84, h88, h8C]
  refine ⟨fun h => ?_, fun h => ?_⟩
  · have hsel : featSelected s = true := decide_eq_true h
    obtain ⟨hvalid, hcols32, hrows, hcols⟩ := dimWord_fields (descRead s s.featSel.toNat)
    simp only [descWindow, hsel, if_true]
    exact ⟨hvalid, hcols32, hrows, hcols, trivial, trivial⟩
  · have hsel : featSelected s = false := by simpa [featSelected] using h
    simp [descWindow, hsel]

/-- Settles O33: with an empty FIFO of at least one word, IDLE is the only bit of STATUS, and every later register is 0. -/
theorem afterResetReads : Obligations.AfterResetReads := by
  intro cfg hl
  refine ⟨by simp [regRead, State.resetWith, ctrlWord], ?_, fun off ho => ?_⟩
  · have hne : 0 ≠ cfg.cmdFifoDepth := by
      obtain ⟨-, -, -, -, -, hd, -⟩ := hl
      omega
    have hfull : fifoFullBit (State.resetWith cfg) = false := beq_false_of_ne hne
    show statusWord (State.resetWith cfg) = _
    rw [statusWord, hfull]
    simp [State.resetWith, phaseCode, doneBit, isTerminal, idleBit, payloadWaitBit, irqLine]
  · have habove : ∀ k < 0x28, off ≠ k := fun k hk => by omega
    simp [regRead, habove, State.resetWith, descWindow, featSelected, Load.zero]
end

section
/-! PROOFS. Which command writes which internal memory (20_memory.md R80), and which host accesses wait, are answered with a bus error
or are ignored (20_memory.md R81, R87 to R89). -/

namespace Sys2Proof.Machine

/-! ## The writer of each memory (20_memory.md R80; SOFT_RESET leaves their contents unspecified) -/

/-- Only PIXELS writes STAGE. -/
theorem CommandEffect.stageRead_eq {i : Instr} {s t : State} (he : CommandEffect s i t) (hr : i ≠ .softReset)
    (hi : ∀ n p, i ≠ .pixels n p) (k : Nat) : stageRead t k = stageRead s k := by
  cases he with
  | softReset => contradiction
  | pixels n p => exact absurd rfl (hi n p)
  | _ => rfl

/-- Only SCAN_START and a scan ROW_END write SIG. -/
theorem CommandEffect.sigRead_eq {i : Instr} {s t : State} (he : CommandEffect s i t) (hr : i ≠ .softReset)
    (hstart : i ≠ .scanStart) (hrow : i ≠ .rowEnd ∨ s.phase ≠ .scanning) (x : Nat) : sigRead t x = sigRead s x := by
  cases he with
  | softReset | scanStart => contradiction
  | rowFound k n hp | rowMissed n hp => simp [hp] at hrow
  | pixels => rw [packPixels_frame]; rfl
  | _ => rfl

/-- Only FEAT_END writes DESC. -/
theorem CommandEffect.descRead_eq {i : Instr} {s t : State} (he : CommandEffect s i t) (hr : i ≠ .softReset)
    (hend : i ≠ .featEnd) (f : Nat) : descRead t f = descRead s f := by
  cases he with
  | softReset | featEnd => contradiction
  | pixels => rw [packPixels_frame]; rfl
  | _ => rfl

/-- Only a feature ROW_END writes FM. -/
theorem CommandEffect.fmRead_eq {i : Instr} {s t : State} (he : CommandEffect s i t) (hr : i ≠ .softReset)
    (hrow : i ≠ .rowEnd ∨ s.phase ≠ .loading) (a : Nat) : fmRead t a = fmRead s a := by
  cases he with
  | softReset => contradiction
  | rowCommitted hp => simp [hp] at hrow
  | pixels => rw [packPixels_frame]; rfl
  | _ => rfl

/-- Only a scan ROW_END writes RB. -/
theorem CommandEffect.rbRead_eq {i : Instr} {s t : State} (he : CommandEffect s i t) (hr : i ≠ .softReset)
    (hrow : i ≠ .rowEnd ∨ s.phase ≠ .scanning) (line c : Nat) : rbRead t line c = rbRead s line c := by
  cases he with
  | softReset => contradiction
  | rowFound k n hp | rowMissed n hp => simp [hp] at hrow
  | pixels => rw [packPixels_frame]; rfl
  | _ => rfl

/-! ## Which accesses are legal and which wait -/

theorem inWindow_eq_true_iff (cfg : Config) (addr : Nat) :
    inWindow cfg addr = true ↔ cfg.baseAddr ≤ addr ∧ addr ≤ cfg.baseAddr + 0xFF := by
  simp [inWindow]

theorem windowOffset_baseAddr_add (cfg : Config) (off : Nat) : windowOffset cfg (cfg.baseAddr + off) = off :=
  Nat.add_sub_cancel_left _ _

theorem legalAccess_eq_false_iff (off size : Nat) : legalAccess off size = false ↔ size ≠ 4 ∨ off % 4 ≠ 0 := by
  simp only [legalAccess, Bool.and_eq_false_iff, beq_eq_false_iff_ne]

/-- A CMD write waits exactly while the FIFO is full (20_memory.md R88). -/
theorem stalls_cmdWrite_iff (s : State) (v : Word) :
    stalls s (.write (s.cfg.baseAddr + 0x28) 4 v) = true ↔ s.cfg.cmdFifoDepth ≤ s.fifo.length := by
  have hw : inWindow s.cfg (s.cfg.baseAddr + 0x28) = true := (inWindow_eq_true_iff _ _).2 (by omega)
  simp [stalls, isCmdWrite, hw, windowOffset_baseAddr_add, legalAccess]

/-- A write that is not a legal one inside the window never waits. -/
theorem stalls_write_eq_false {s : State} {addr size : Nat} (v : Word)
    (h : inWindow s.cfg addr = false ∨ legalAccess (windowOffset s.cfg addr) size = false) :
    stalls s (.write addr size v) = false := by
  rcases h with h | h <;> simp [stalls, isCmdWrite, h]

/-! ## Host moves that leave the TMC as it is -/

/-- A host whose access waits keeps it (20_memory.md R88). -/
theorem hostMove_of_stalls {s : State} {a : HostAccess} {hs : List HostAccess} (hh : s.host = a :: hs)
    (h : stalls s a = true) : hostMove s = s := by
  simp [hostMove, hh, h]

/-- A bus error is all that an illegal access to the window brings about (20_memory.md R87). -/
theorem hostMove_illegalAccess {s : State} {a : HostAccess} {off size : Nat} {hs : List HostAccess}
    (hh : s.host = a :: hs) (hoff : off ≤ 0xFF)
    (ha : a = .read (s.cfg.baseAddr + off) size ∨ ∃ v, a = .write (s.cfg.baseAddr + off) size v)
    (hbad : size ≠ 4 ∨ off % 4 ≠ 0) : hostMove s = { s with host := hs, response := some .busError } := by
  have hw : inWindow s.cfg (s.cfg.baseAddr + off) = true := (inWindow_eq_true_iff _ _).2 (by omega)
  have hl : legalAccess (windowOffset s.cfg (s.cfg.baseAddr + off)) size = false := by
    rwa [windowOffset_baseAddr_add, legalAccess_eq_false_iff]
  rcases ha with rfl | ⟨v, rfl⟩
  · simp [hostMove, hh, stalls, isCmdWrite, access, busRead, hw, hl]
  · simp [hostMove, hh, stalls_write_eq_false v (.inr hl), access, busWrite, hw, hl]

/-- A write outside the window is no access to the TMC (20_memory.md R81). -/
theorem hostMove_writeOutside {s : State} {addr size : Nat} {v : Word} {hs : List HostAccess}
    (hh : s.host = .write addr size v :: hs) (hout : ¬(s.cfg.baseAddr ≤ addr ∧ addr ≤ s.cfg.baseAddr + 0xFF)) :
    hostMove s = { s with host := hs, response := some .notSelected } := by
  have hw : inWindow s.cfg addr = false := by rwa [← Bool.not_eq_true, inWindow_eq_true_iff]
  simp [hostMove, hh, stalls_write_eq_false v (.inl hw), access, busWrite, hw]

/-- A write to an RO or reserved offset is ignored (20_memory.md R89, 40_control.md R151). -/
theorem regWrite_of_ignored {off : Nat} (v : Word) (s : State) (hctrl : off ≠ 0x20) (hcmd : off ≠ 0x28)
    (hsel : off ≠ 0x80) : regWrite off v s = s := by
  rcases regWrite_cases off v s with ⟨h, -⟩ | ⟨h, -⟩ | ⟨h, -⟩ | ⟨h, -⟩ | ⟨-, -, -, h⟩
  exacts [absurd h hctrl, absurd h hctrl, absurd h hcmd, absurd h hsel, h]

end Sys2Proof.Machine

open Sys2Proof Sys2Proof.Machine Sys2Proof.Safety

/-- Settles O21: memory by memory, no command effect but its writer's touches it. -/
theorem spacesWrittenOnlyByTheirCommands : Obligations.SpacesWrittenOnlyByTheirCommands := by
  intro i s t hx hr
  have he := commandEffect_of_exec hx
  exact ⟨he.stageRead_eq hr, he.sigRead_eq hr, he.descRead_eq hr, he.fmRead_eq hr, he.rbRead_eq hr⟩

/-- Settles O11: a CMD write waits exactly while the FIFO is full, and otherwise the word goes to its tail. -/
theorem cmdWriteQueuesOrStalls : Obligations.CmdWriteQueuesOrStalls := by
  intro s v hs ms hturn hh
  rw [step_of_hostTurn hturn]
  refine ⟨fun hroom => ?_, fun hfull => ?_⟩
  · rw [hostMove_windowWrite (s := { s with schedule := ms }) hh (by decide) (by decide) fun _ => hroom]
    rfl
  · rw [hostMove_of_stalls (s := { s with schedule := ms }) hh ((stalls_cmdWrite_iff _ v).2 hfull)]

/-- Settles O13: the access lies in the window and is not legal, so the bus error is its whole effect. -/
theorem busErrorsChangeNothing : Obligations.BusErrorsChangeNothing := by
  intro s a off size hs ms hturn hh hoff ha hbad
  rw [step_of_hostTurn hturn, hostMove_illegalAccess (s := { s with schedule := ms }) hh hoff ha hbad]

/-- Settles O14: outside the window the bus answers alone, and inside it an offset that is not writable ignores the write. -/
theorem ignoredWritesChangeNothing : Obligations.IgnoredWritesChangeNothing := by
  intro s addr size v hs ms hturn hh
  rw [step_of_hostTurn hturn]
  refine ⟨fun hout => ?_, ?_⟩
  · rw [hostMove_writeOutside (s := { s with schedule := ms }) hh hout]
  · rintro off rfl hoff rfl halign hctrl hcmd hsel
    rw [hostMove_windowWrite (s := { s with schedule := ms }) hh hoff halign fun h => absurd h hcmd,
      regWrite_of_ignored v _ hctrl hcmd hsel]
end

section
/-! PROOFS. The decoder and the encoder are inverse to each other, and what the decoder refuses (30_encoding.md R110 to R119). -/

namespace Sys2Proof

/-! ## A header is put together again from its fields (30_encoding.md R111) -/

/-- Two neighbouring fields of a word, put in their places, are the field that spans both. -/
theorem extractLsb'_or_shiftLeft (h : Word) (m k : Nat) :
    ((h.extractLsb' m k).setWidth 32 <<< m) ||| (h.extractLsb' 0 m).setWidth 32 = (h.extractLsb' 0 (m + k)).setWidth 32 := by
  apply BitVec.eq_of_getLsbD_eq
  intro i hi
  by_cases him : i < m
  · simp [hi, him, show i < m + k by omega]
  · simp [hi, him, show m + (i - m) = i by omega, show i - m < k ↔ i < m + k by omega]

theorem headerHW_opcOf_immOf (h : Word) : headerHW (opcOf h) (immOf h) = h :=
  (extractLsb'_or_shiftLeft h 24 8).trans (by simp)

theorem headerHF_opcOf_rowsOf_colsOf (h : Word) : headerHF (opcOf h) (rowsOf h) (colsOf h) = h := by
  calc headerHF (opcOf h) (rowsOf h) (colsOf h) = headerHW (opcOf h) (immOf h) := by
        rw [headerHF, BitVec.or_assoc]
        exact congrArg (((opcOf h).setWidth 32 <<< 24) ||| ·) (extractLsb'_or_shiftLeft h 12 12)
    _ = h := headerHW_opcOf_immOf h

theorem headerHP_opcOf_countOf {h : Word} (hres : reservedOf h = 0#18) : headerHP (opcOf h) (countOf h) = h := by
  calc headerHP (opcOf h) (countOf h) = headerHW (opcOf h) (immOf h) := by
        have hlow := extractLsb'_or_shiftLeft h 6 18
        rw [show h.extractLsb' 6 18 = 0#18 from hres, BitVec.setWidth_zero, BitVec.zero_shiftLeft, BitVec.zero_or] at hlow
        exact congrArg (((opcOf h).setWidth 32 <<< 24) ||| ·) hlow
    _ = h := headerHW_opcOf_immOf h

theorem headerH0_opcOf {h : Word} (himm : immOf h = 0#24) : headerH0 (opcOf h) = h := by
  calc headerH0 (opcOf h) = headerHW (opcOf h) 0#24 := by simp [headerH0, headerHW]
    _ = h := by rw [← himm, headerHW_opcOf_immOf]

/-! ## The decoder's answer for one header -/

/-- The opcodes of 30_encoding.md R113. -/
def opcodes : List (BitVec 8) := [0x00#8, 0x01#8, 0x02#8, 0x03#8, 0x10#8, 0x11#8, 0x20#8, 0x21#8, 0x22#8, 0x30#8]

/-- The opcodes of format H0, whose operand bits are all reserved (R111, R113). -/
def opcodesH0 : List (BitVec 8) := [0x00#8, 0x01#8, 0x11#8, 0x21#8, 0x22#8, 0x30#8]

/-- A reserved operand bit of the header is set (R111, R119). -/
def ReservedBitSet (h : Word) : Prop :=
  (opcOf h ∈ opcodesH0 ∧ immOf h ≠ 0#24) ∨ (opcOf h = 0x20#8 ∧ reservedOf h ≠ 0#18)

/-- `p` is the payload of `i`, where `i` has one. -/
def CarriesPayload (i : Instr) (p : Word) : Prop := ∀ n q, i = .pixels n q → q = p

/-- What the decoder can answer to header `h` with payload `p`, one constructor per outcome. -/
inductive DecodesTo (h p : Word) : Except Illegal Instr → Prop where
  | unknownOpcode (ho : opcOf h ∉ opcodes) : DecodesTo h p (.error .opcode)
  | reservedBit (hr : ReservedBitSet h) : DecodesTo h p (.error .operand)
  | command (i : Instr) (hh : headerOf i = h) (hp : CarriesPayload i p) : DecodesTo h p (.ok i)

/-- A command without operands is accepted with all operand bits 0 and refused otherwise. -/
theorem decodesTo_decodeH0 {h : Word} (p : Word) {opc : BitVec 8} {i : Instr} (ho : opcOf h = opc) (hopc : opc ∈ opcodesH0)
    (hi : headerOf i = headerH0 opc) (hp : CarriesPayload i p) : DecodesTo h p (decodeH0 h i) := by
  subst ho
  unfold decodeH0
  split
  · next himm => exact .command i (hi.trans (headerH0_opcOf himm)) hp
  · next himm => exact .reservedBit (.inl ⟨hopc, himm⟩)

theorem decodeCommand_decodesTo (h p : Word) : DecodesTo h p (decodeCommand h p) := by
  unfold decodeCommand
  split_ifs with h00 h01 h02 h03 h10 h11 h20 hres h21 h22 h30
  · exact decodesTo_decodeH0 p h00 (by decide) rfl nofun
  · exact decodesTo_decodeH0 p h01 (by decide) rfl nofun
  · exact .command _ (by rw [headerOf, ← h02, headerHW_opcOf_immOf]) nofun
  · exact .command _ (by rw [headerOf, ← h03, headerHW_opcOf_immOf]) nofun
  · exact .command _ (by rw [headerOf, ← h10, headerHF_opcOf_rowsOf_colsOf]) nofun
  · exact decodesTo_decodeH0 p h11 (by decide) rfl nofun
  · exact .command _ (by rw [headerOf, ← h20, headerHP_opcOf_countOf hres]) fun _ _ hi => by cases hi; rfl
  · exact .reservedBit (.inr ⟨h20, hres⟩)
  · exact decodesTo_decodeH0 p h21 (by decide) rfl nofun
  · exact decodesTo_decodeH0 p h22 (by decide) rfl nofun
  · exact decodesTo_decodeH0 p h30 (by decide) rfl nofun
  · exact .unknownOpcode (by simp [opcodes, h00, h01, h02, h03, h10, h11, h20, h21, h22, h30])

/-! ## The headers of commands are accepted -/

theorem opcOf_headerOf_mem_opcodes (i : Instr) : opcOf (headerOf i) ∈ opcodes := by
  rw [opcOf_headerOf]
  cases i <;> simp [opcodes]

theorem opcOf_mem_opcodes_of_reservedBitSet {h : Word} (hr : ReservedBitSet h) : opcOf h ∈ opcodes := by
  rcases hr with ⟨ho, -⟩ | ⟨ho, -⟩
  · exact (by decide : opcodesH0 ⊆ opcodes) ho
  · rw [ho]
    decide

/-- The reserved bits of every command's header are 0. -/
theorem not_reservedBitSet_headerOf (i : Instr) : ¬ ReservedBitSet (headerOf i) := by
  unfold ReservedBitSet
  rw [opcOf_headerOf]
  cases i with
  | setWidth | setHeight | featBegin => simp [opcodesH0]
  | pixels n => simp [opcodesH0, headerOf, reservedOf_headerHP]
  | _ => simp [headerOf, immOf_headerH0]

/-- Every command is what its own header and payload decode to. -/
theorem decodeCommand_headerOf {i : Instr} {p : Word} (hp : CarriesPayload i p) : decodeCommand (headerOf i) p = .ok i := by
  cases i with
  | setWidth | setHeight => simp [decodeCommand, headerOf, opcOf_headerHW, immOf_headerHW]
  | featBegin => simp [decodeCommand, headerOf, opcOf_headerHF, rowsOf_headerHF, colsOf_headerHF]
  | pixels n q => simp [decodeCommand, headerOf, opcOf_headerHP, reservedOf_headerHP, countOf_headerHP, hp n q rfl]
  | _ => simp [decodeCommand, decodeH0, headerOf, opcOf_headerH0, immOf_headerH0]

theorem decodeCommand_eq_ok_iff (h p : Word) (i : Instr) :
    decodeCommand h p = .ok i ↔ headerOf i = h ∧ CarriesPayload i p := by
  constructor
  · intro hd
    cases hd ▸ decodeCommand_decodesTo h p with
    | command _ hh hp => exact ⟨hh, hp⟩
  · rintro ⟨rfl, hp⟩
    exact decodeCommand_headerOf hp

/-- The unknown opcodes are those outside the table (R116 step 2). -/
theorem decodeCommand_eq_error_opcode_iff (h p : Word) : decodeCommand h p = .error .opcode ↔ opcOf h ∉ opcodes := by
  generalize ho : decodeCommand h p = o
  cases ho ▸ decodeCommand_decodesTo h p with
  | unknownOpcode hn => simp [hn]
  | reservedBit hr => simp [opcOf_mem_opcodes_of_reservedBitSet hr]
  | command i hh hp => simp [← hh, opcOf_headerOf_mem_opcodes]

/-- The illegal operands the decoder sees are the reserved bits (R119). -/
theorem decodeCommand_eq_error_operand_iff (h p : Word) : decodeCommand h p = .error .operand ↔ ReservedBitSet h := by
  generalize ho : decodeCommand h p = o
  cases ho ▸ decodeCommand_decodesTo h p with
  | unknownOpcode hn => simpa using mt opcOf_mem_opcodes_of_reservedBitSet hn
  | reservedBit hr => simp [hr]
  | command i hh hp => simp [← hh, not_reservedBitSet_headerOf]

/-- Whether a header is refused, and why, does not depend on the payload. -/
theorem decodeCommand_error_congr {h p : Word} {e : Illegal} (q : Word) (hd : decodeCommand h p = .error e) :
    decodeCommand h q = .error e := by
  cases e with
  | opcode => rwa [decodeCommand_eq_error_opcode_iff] at hd ⊢
  | operand => rwa [decodeCommand_eq_error_operand_iff] at hd ⊢

/-! ## Lists of words -/

/-- Only PIXELS headers take a payload (30_encoding.md R110). -/
theorem takesPayload_eq_true_iff (h : Word) : takesPayload h = true ↔ opcOf h = 0x20#8 := beq_iff_eq

theorem takesPayload_eq_false_iff (h : Word) : takesPayload h = false ↔ opcOf h ≠ 0x20#8 := beq_eq_false_iff_ne

/-- The words of a command: two for PIXELS, one for every other (30_encoding.md R110). -/
theorem encode_cases (i : Instr) :
    (∃ n p, i = .pixels n p ∧ takesPayload (headerOf i) = true ∧ encode i = [headerOf i, p]) ∨
    ((∀ n p, i ≠ .pixels n p) ∧ takesPayload (headerOf i) = false ∧ encode i = [headerOf i]) := by
  unfold takesPayload
  rw [opcOf_headerOf]
  cases i with
  | pixels n p => exact .inl ⟨n, p, rfl, rfl, rfl⟩
  | _ => exact .inr ⟨nofun, rfl, rfl⟩

/-- The decoder takes the words that the header asks for (R110). -/
theorem decode_eq_ok_iff (ws : List Word) (i : Instr) (rest : List Word) :
    decode ws = .ok (i, rest) ↔
      ∃ h p, decodeCommand h p = .ok i ∧
        ((takesPayload h = true ∧ ws = h :: p :: rest) ∨ (takesPayload h = false ∧ p = 0#32 ∧ ws = h :: rest)) := by
  constructor
  · intro hd
    unfold decode at hd
    split at hd
    · cases hd
    next h tail =>
    split at hd
    · next ht =>
      split at hd
      · cases hd
      next p _ =>
      split at hd
      · next hc => cases hd; exact ⟨h, p, hc, .inl ⟨ht, rfl⟩⟩
      · cases hd
    · next ht =>
      split at hd
      · next hc => cases hd; exact ⟨h, 0#32, hc, .inr ⟨by simpa using ht, rfl, rfl⟩⟩
      · cases hd
  · rintro ⟨h, p, hc, ⟨ht, rfl⟩ | ⟨ht, rfl, rfl⟩⟩ <;> simp [decode, ht, hc]

theorem decode_encode_append (i : Instr) (rest : List Word) : decode (encode i ++ rest) = .ok (i, rest) := by
  rw [decode_eq_ok_iff]
  rcases encode_cases i with ⟨n, p, rfl, ht, he⟩ | ⟨hi, ht, he⟩ <;> rw [he]
  · exact ⟨_, p, decodeCommand_headerOf fun _ _ h => by cases h; rfl, .inl ⟨ht, rfl⟩⟩
  · exact ⟨_, 0#32, decodeCommand_headerOf fun n q h => absurd h (hi n q), .inr ⟨ht, rfl, rfl⟩⟩

theorem encode_append_of_decode {ws : List Word} {i : Instr} {rest : List Word} (hd : decode ws = .ok (i, rest)) :
    encode i ++ rest = ws := by
  obtain ⟨h, p, hc, hw⟩ := (decode_eq_ok_iff ws i rest).1 hd
  obtain ⟨rfl, hp⟩ := (decodeCommand_eq_ok_iff h p i).1 hc
  rcases encode_cases i with ⟨n, q, rfl, ht, he⟩ | ⟨-, ht, he⟩ <;> rw [he] <;> simp [ht] at hw
  · rw [hw, hp n q rfl]
    rfl
  · rw [hw.2]
    rfl

end Sys2Proof

open Sys2Proof Sys2Proof.Machine Sys2Proof.Safety

/-- Settles O2: each header field is read back from where its format puts it. -/
theorem decodeOfEncode : Obligations.DecodeOfEncode := decode_encode_append

/-- Settles O3: an accepted header is put together again from its fields, its reserved bits being 0. -/
theorem encodeOfDecode : Obligations.EncodeOfDecode := fun _ _ _ => encode_append_of_decode

/-- Settles O4: a header is unknown, has a reserved bit set, or is the header of a command. -/
theorem illegalHeaders : Obligations.IllegalHeaders := fun h p =>
  ⟨decodeCommand_eq_error_opcode_iff h p, decodeCommand_eq_error_operand_iff h p⟩

/-- Settles O1: by evaluation. -/
theorem sampleWordsDecode : Obligations.SampleWordsDecode :=
  ⟨rfl, rfl, rfl, rfl, rfl, rfl, rfl, rfl, rfl, rfl⟩
end

section
/-! PROOFS. What the core makes of the word it takes (30_encoding.md R115, R116, R118). -/

namespace Sys2Proof.Machine

open Sys2Proof.Safety

/-- The state after the core has taken the word at the head of the FIFO `w :: ws`, its parser at `q` (10_state.md R22, R34, R35). -/
def afterWord (s : State) (ws : List Word) (q : Parse) : State :=
  { s with parse := q, fifo := ws, cmdCount := s.cmdCount + 1 }

theorem takeWord_eq {s : State} {w : Word} {ws : List Word} (hf : s.fifo = w :: ws) :
    takeWord s = afterWord s ws s.parse := by
  rw [takeWord, hf]
  rfl

theorem coreMove_eq_parseWord {s : State} {w : Word} {ws : List Word} (hf : s.fifo = w :: ws) :
    coreMove s = parseWord w (afterWord s ws s.parse) := by
  rw [coreMove, ← takeWord_eq hf]
  split
  · next h => cases h.symm.trans hf
  · next h => cases h.symm.trans hf; rfl

/-- The header of a one-word command is executed at once. -/
theorem coreMove_header {s : State} {h : Word} {ws : List Word} (hf : s.fifo = h :: ws) (hp : s.parse = .header)
    (ht : takesPayload h = false) : coreMove s = execute h 0#32 (afterWord s ws .header) := by
  rw [coreMove_eq_parseWord hf, hp]
  simp [parseWord, afterWord, ht]

/-- A PIXELS header is saved. -/
theorem coreMove_pixelsHeader {s : State} {h : Word} {ws : List Word} (hf : s.fifo = h :: ws) (hp : s.parse = .header)
    (ht : takesPayload h = true) : coreMove s = .next (afterWord s ws (.payload h)) := by
  rw [coreMove_eq_parseWord hf, hp]
  simp [parseWord, afterWord, ht]

/-- A payload is executed with its saved header, and PARSE goes back to HEADER. -/
theorem coreMove_payload {s : State} {h p : Word} {ws : List Word} (hf : s.fifo = p :: ws) (hp : s.parse = .payload h) :
    coreMove s = execute h p (afterWord s ws .header) := by
  rw [coreMove_eq_parseWord hf, hp]
  rfl

theorem execute_of_ok {h p : Word} {i : Instr} (s : State) (hd : decodeCommand h p = .ok i) : execute h p s = exec i s := by
  rw [execute, hd]

theorem execute_of_error {h p : Word} {e : Illegal} (s : State) (hd : decodeCommand h p = .error e) :
    execute h p s = .next (rejectWord e h s) := by
  rw [execute, hd]

theorem rejectWord_of_terminal (e : Illegal) (h : Word) {s : State} (ht : isTerminal s.phase = true) :
    rejectWord e h s = s := if_pos ht

theorem rejectWord_of_working (e : Illegal) (h : Word) {s : State} (ht : isTerminal s.phase = false) :
    rejectWord e h s = raise (illegalCode e) h s := if_neg (by simp [ht])

/-- A core move that completes an illegal command refuses its header. -/
theorem coreMove_illegal {s : State} {w h : Word} {ws : List Word} {e : Illegal} (hf : s.fifo = w :: ws)
    (hp : s.parse = .header ∧ h = w ∧ opcOf h ≠ 0x20#8 ∨ s.parse = .payload h) (hd : decodeCommand h w = .error e) :
    coreMove s = .next (rejectWord e h (afterWord s ws .header)) := by
  rcases hp with ⟨hp, rfl, ho⟩ | hp
  · rw [coreMove_header hf hp ((takesPayload_eq_false_iff h).2 ho), execute_of_error _ (decodeCommand_error_congr _ hd)]
  · rw [coreMove_payload hf hp, execute_of_error _ hd]

end Sys2Proof.Machine

open Sys2Proof Sys2Proof.Machine Sys2Proof.Safety

/-- Settles O6: the word alone is the whole command. -/
theorem stepRunsOneWordCommand : Obligations.StepRunsOneWordCommand := by
  intro s h ws ms i hc hp hf hd
  obtain ⟨h', p, hd, ⟨-, hw⟩ | ⟨ht, rfl, hw⟩⟩ := (decode_eq_ok_iff _ _ _).1 hd <;> cases hw
  rw [step_of_coreTurn hc, coreMove_header (s := { s with schedule := ms }) hf hp ht, execute_of_ok _ hd, ← hp]
  rfl

/-- Settles O7: the saved header and the word together are the whole command. -/
theorem stepRunsPixelsOnItsPayload : Obligations.StepRunsPixelsOnItsPayload := by
  intro s h p ws ms i hc hp hf hd
  obtain ⟨h', p', hd, ⟨-, hw⟩ | ⟨-, -, hw⟩⟩ := (decode_eq_ok_iff _ _ _).1 hd <;> cases hw
  rw [step_of_coreTurn hc, coreMove_payload (s := { s with schedule := ms }) hf hp, execute_of_ok _ hd]
  rfl

/-- Settles O8: the parser saves the header without looking at the phase. -/
theorem stepTakesPixelsHeader : Obligations.StepTakesPixelsHeader := by
  intro s h ws ms hc hp hf ho
  rw [step_of_coreTurn hc,
    coreMove_pixelsHeader (s := { s with schedule := ms }) hf hp ((takesPayload_eq_true_iff h).2 ho)]
  rfl

/-- Settles O9: the header is refused whichever word completed its command. -/
theorem stepRejectsIllegalHeader : Obligations.StepRejectsIllegalHeader := by
  intro s w h ws ms e hc hf hp hd
  rw [step_of_coreTurn hc, coreMove_illegal (s := { s with schedule := ms }) hf hp hd]
  refine ⟨fun ht => ?_, fun ht => ?_⟩
  · rw [rejectWord_of_terminal e h (s := afterWord { s with schedule := ms } ws .header) ht]
    rfl
  · rw [rejectWord_of_working e h (s := afterWord { s with schedule := ms } ws .header) ht]
    cases e <;> rfl
end

section
/-! PROOFS. The checks before a command's own meaning: terminal phases, legal phases and the pixel count (30_encoding.md R113,
R116, R119), and the row length (41_row_codec.md R171). -/

namespace Sys2Proof.Machine

open Sys2Proof.Safety

/-! ## The phase checks -/

theorem isTerminal_eq_true_iff (p : Phase) : isTerminal p = true ↔ p = .found ∨ p = .exhausted ∨ p = .error := by
  cases p <;> simp [isTerminal]

theorem isTerminal_eq_false_iff (p : Phase) : isTerminal p = false ↔ p = .config ∨ p = .loading ∨ p = .scanning := by
  cases p <;> simp [isTerminal]

theorem guarded_of_terminal {legal : Phase → Bool} {h : Word} {body : State → Result} {s : State}
    (ht : isTerminal s.phase = true) : guarded legal h body s = .next s := if_pos ht

theorem guarded_of_legal {legal : Phase → Bool} {h : Word} {body : State → Result} {s : State}
    (ht : isTerminal s.phase = false) (hl : legal s.phase = true) : guarded legal h body s = body s := by
  simp [guarded, ht, hl]

theorem guarded_of_illegal {legal : Phase → Bool} {h : Word} {body : State → Result} {s : State}
    (ht : isTerminal s.phase = false) (hl : legal s.phase = false) :
    guarded legal h body s = .next (raise .illegalPhase h s) := by
  simp [guarded, ht, hl]

/-- A terminal phase discards every command but SOFT_RESET, a PIXELS with a bad count among them. -/
theorem exec_of_terminal {i : Instr} {s : State} (ht : isTerminal s.phase = true) (hi : i ≠ .softReset) :
    exec i s = .next s := by
  cases i with
  | softReset => exact absurd rfl hi
  | pixels n p => exact if_pos ht
  | _ =>
    unfold exec
    exact guarded_of_terminal ht

/-! ## PIXELS -/

theorem badCount_eq_true_iff (n : BitVec 6) : badCount n = true ↔ n.toNat = 0 ∨ 32 < n.toNat := by
  simp [badCount, ← BitVec.toNat_inj]

theorem badCount_eq_false_iff (n : BitVec 6) : badCount n = false ↔ 1 ≤ n.toNat ∧ n.toNat ≤ 32 := by
  rw [← Bool.not_eq_true, badCount_eq_true_iff]
  omega

theorem execPixels_of_badCount {n : BitVec 6} {p : Word} {s : State} (ht : isTerminal s.phase = false)
    (hn : badCount n = true) : execPixels n p s = .next (raise .illegalOperand (headerOf (.pixels n p)) s) := by
  simp [execPixels, ht, hn]

theorem execPixels_of_goodCount {n : BitVec 6} {p : Word} {s : State} (hn : badCount n = false) :
    execPixels n p s = guarded rowPhases (headerOf (.pixels n p)) (pixelsBody n p) s := by
  cases ht : isTerminal s.phase with
  | true => exact (if_pos ht).trans (guarded_of_terminal ht).symm
  | false => simp [execPixels, ht, hn]

/-- A PIXELS that would overrun the row raises the row-length error of the phase (41_row_codec.md R170, R171). -/
theorem exec_pixels_tooLong {n : BitVec 6} {p : Word} {s : State} (hn : badCount n = false)
    (hp : s.phase = .loading ∨ s.phase = .scanning) (hlen : rowLen s < s.pixCount.toNat + n.toNat) :
    exec (.pixels n p) s = .next (raise (rowLengthError s) (headerOf (.pixels n p)) s) := by
  have ht : isTerminal s.phase = false := (isTerminal_eq_false_iff _).2 (.inr hp)
  have hl : rowPhases s.phase = true := by rcases hp with hp | hp <;> simp [rowPhases, hp]
  exact (execPixels_of_goodCount hn).trans ((guarded_of_legal ht hl).trans (if_pos hlen))

/-- The header that a PIXELS error records (60_exceptions.md R284). -/
theorem headerOf_pixels (n : BitVec 6) (p : Word) : headerOf (.pixels n p) = 0x20000000#32 ||| n.setWidth 32 := rfl

/-- The pixels of a payload are its top `n` bits (30_encoding.md R114). -/
theorem payloadPixels_congr {n : Nat} {p q : Word}
    (h : ∀ b, b < 32 → 32 ≤ b + n → p.getLsbD b = q.getLsbD b) : payloadPixels n p = payloadPixels n q := by
  refine List.map_congr_left fun j hj => h (31 - j) (by omega) ?_
  have := List.mem_range.1 hj
  omega

/-- The payload matters to PIXELS through its pixels alone. -/
theorem pixelsBody_congr {n : BitVec 6} {p q : Word} (h : payloadPixels n.toNat p = payloadPixels n.toNat q) :
    pixelsBody n p = pixelsBody n q := by
  unfold pixelsBody
  rw [h]
  rfl

/-! ## The legal phases of every command -/

/-- Every well-formed command but SOFT_RESET runs under the phase check of 30_encoding.md R113. -/
theorem exec_eq_guarded {i : Instr} (s : State) (hw : i.wellFormed = true) (hi : i ≠ .softReset) :
    ∃ body, exec i s = guarded (legalIn i) (headerOf i) body s := by
  cases i with
  | softReset => exact absurd rfl hi
  | nop =>
    have hl : legalIn .nop = anyWorkingPhase := funext fun p => by cases p <;> rfl
    exact ⟨_, by rw [hl]; rfl⟩
  | pixels n p =>
    have hn : badCount n = false := (badCount_eq_false_iff n).2 (by simpa [Instr.wellFormed] using hw)
    exact ⟨_, execPixels_of_goodCount hn⟩
  | _ =>
    unfold exec
    exact ⟨_, rfl⟩

end Sys2Proof.Machine

open Sys2Proof Sys2Proof.Machine Sys2Proof.Safety

/-- Settles O22: the check for a terminal phase comes before every other. -/
theorem terminalPhaseDiscards : Obligations.TerminalPhaseDiscards := fun _ _ hp hi =>
  exec_of_terminal ((isTerminal_eq_true_iff _).2 hp) hi

/-- Settles O23: the phase check of a well-formed command comes before its body. -/
theorem illegalPhaseRaises : Obligations.IllegalPhaseRaises := by
  intro i s hp hw hl
  have hi : i ≠ .softReset := by
    rintro rfl
    cases hl
  obtain ⟨body, hx⟩ := exec_eq_guarded s hw hi
  rw [hx, guarded_of_illegal ((isTerminal_eq_false_iff _).2 hp) hl]
  rfl

/-- Settles O38: both checks come before the packer. -/
theorem pixelsErrors : Obligations.PixelsErrors := by
  intro n p s
  refine ⟨fun hp hn => ?_, fun h1 h32 => ?_⟩
  · exact execPixels_of_badCount ((isTerminal_eq_false_iff _).2 hp) ((badCount_eq_true_iff n).2 hn)
  have hn : badCount n = false := (badCount_eq_false_iff n).2 ⟨h1, h32⟩
  refine ⟨fun hp hlen => ?_, fun hp hlen => ?_⟩
  · rw [exec_pixels_tooLong hn (.inl hp) (by simpa [rowLen, hp] using hlen), headerOf_pixels]
    simp [raise, rowLengthError, hp, errorNumber]
  · rw [exec_pixels_tooLong hn (.inr hp) (by simpa [rowLen, hp] using hlen), headerOf_pixels]
    simp [raise, rowLengthError, hp, errorNumber]

/-- Settles O39: the unused bits are no pixels, and nothing but the pixels of a payload is looked at. -/
theorem payloadTailIgnored : Obligations.PayloadTailIgnored := by
  intro n p q s h
  show execPixels n p s = execPixels n q s
  unfold execPixels
  rw [pixelsBody_congr (payloadPixels_congr h), headerOf_pixels, headerOf_pixels]
end

section
/-! PROOFS. The expansion of a ROW line into PIXELS commands (30_encoding.md R114, R121). -/

namespace Sys2Proof.Machine

open Sys2Proof.Safety

/-- A payload of packed pixels delivers the first `n` of them. -/
theorem payloadPixels_packWord {n : Nat} (px : Nat → Bool) (hn : n ≤ 32) :
    payloadPixels n (packWord px) = (List.range n).map px := by
  refine List.map_congr_left fun j hj => pixelOf_packWord px j ?_
  have := List.mem_range.1 hj
  omega

/-- The `i`-th PIXELS of a row delivers the `i`-th group of 32 pixels, the last one shorter. -/
theorem payloadPixels_rowGroup (bits : List Bool) (i : Nat) :
    payloadPixels (min 32 (bits.length - 32 * i)) (packWord fun j => bits.getD (32 * i + j) false) =
      (bits.drop (32 * i)).take 32 := by
  rw [payloadPixels_packWord _ (by omega)]
  refine List.ext_getElem (by simp) fun j hj _ => ?_
  have hlt : 32 * i + j < bits.length := by
    simp at hj
    omega
  simp [hlt]

/-- The first `m` groups of 32 are the first `32 m` elements. -/
theorem flatMap_groups_eq_take (bits : List Bool) (m : Nat) :
    ((List.range m).flatMap fun i => (bits.drop (32 * i)).take 32) = bits.take (32 * m) := by
  induction m with
  | zero => simp
  | succ m ih => rw [List.range_succ, List.flatMap_append, ih, Nat.mul_succ, List.take_add]; simp

theorem linePixels_rowPixels (bits : List Bool) : (rowPixels bits).flatMap linePixels = bits := by
  calc (rowPixels bits).flatMap linePixels
      = (List.range ((bits.length + 31) / 32)).flatMap fun i => (bits.drop (32 * i)).take 32 := by
        rw [rowPixels, List.flatMap_map]
        refine List.flatMap_congr fun i _ => ?_
        rw [linePixels, BitVec.ofNat_toNat, BitVec.setWidth_eq, payloadPixels_rowGroup]
    _ = bits.take (32 * ((bits.length + 31) / 32)) := flatMap_groups_eq_take bits _
    _ = bits := List.take_of_length_le (by omega)

end Sys2Proof.Machine

open Sys2Proof Sys2Proof.Machine Sys2Proof.Safety

/-- Settles O5: the lines deliver the string in groups of 32, and no group is empty. -/
theorem rowExpansionDeliversItsPixels : Obligations.RowExpansionDeliversItsPixels := by
  refine fun bits => ⟨linePixels_rowPixels bits, fun l hl => ?_⟩
  obtain ⟨i, hi, rfl⟩ := List.mem_map.1 hl
  have := List.mem_range.1 hi
  exact ⟨_, _, rfl, by omega, by omega, BitVec.isLt _⟩
end

section
/-! PROOFS. NOP, SET_WIDTH and SET_HEIGHT where they are legal, and what a host read and the CTRL and FEAT_SEL writes do
(40_control.md R140, R142, R143, R150 to R153). -/

namespace Sys2Proof.Machine

open Sys2Proof.Safety

/-! ## Commands that are legal in CONFIG alone -/

theorem guarded_configOnly {h : Word} {body : State → Result} {s : State} (hp : s.phase = .config) :
    guarded configOnly h body s = body s :=
  guarded_of_legal ((isTerminal_eq_false_iff _).2 (.inl hp)) (by simp [configOnly, hp])

theorem exec_setWidth_of_le {val : BitVec 24} {s : State} (hp : s.phase = .config) (hw : val.toNat ≤ s.cfg.maxWidth) :
    exec (.setWidth val) s = .next (setImageWidth val s) := by
  rw [exec, execSetWidth, guarded_configOnly hp, if_neg (Nat.not_lt.2 hw)]

theorem exec_setWidth_of_gt {val : BitVec 24} {s : State} (hp : s.phase = .config) (hw : s.cfg.maxWidth < val.toNat) :
    exec (.setWidth val) s = .next (raise .streamTooWide (headerOf (.setWidth val)) s) := by
  rw [exec, execSetWidth, guarded_configOnly hp, if_pos hw]

theorem exec_setHeight_of_config (val : BitVec 24) {s : State} (hp : s.phase = .config) :
    exec (.setHeight val) s = .next (setImageHeight val s) := by
  rw [exec, execSetHeight, guarded_configOnly hp]

/-! ## Host reads -/

theorem legalAccess_eq_true_iff (off size : Nat) : legalAccess off size = true ↔ size = 4 ∧ off % 4 = 0 := by
  simp [legalAccess]

/-- BusRead with its two checks written out (40_control.md R150, 20_memory.md R81, R87). -/
theorem busRead_eq (s : State) (addr size : Nat) :
    busRead s addr size =
      if s.cfg.baseAddr ≤ addr ∧ addr ≤ s.cfg.baseAddr + 0xFF then
        if size = 4 ∧ (addr - s.cfg.baseAddr) % 4 = 0 then .data (regRead s (addr - s.cfg.baseAddr)) else .busError
      else .notSelected := by
  simp only [busRead, inWindow_eq_true_iff, legalAccess_eq_true_iff, windowOffset]

/-- No register shows the schedule. -/
theorem busRead_withSchedule (s : State) (ms : List Move) (addr size : Nat) :
    busRead { s with schedule := ms } addr size = busRead s addr size := rfl

/-- A read never waits, and its answer is all that it brings about (20_memory.md R89). -/
theorem hostMove_read {s : State} {addr size : Nat} {hs : List HostAccess} (hh : s.host = .read addr size :: hs) :
    hostMove s = { s with host := hs, response := some (busRead s addr size) } := by
  have hstall : stalls s (.read addr size) = false := rfl
  simp only [hostMove, hh, hstall]
  rfl

/-! ## Writes to CTRL and FEAT_SEL -/

theorem regWrite_ctrl_of_noSrst {v : Word} (s : State) (hv : v.getLsbD 1 = false) :
    regWrite 0x20 v s = { s with irqEn := v.getLsbD 0 } := by
  rw [regWrite, if_pos rfl, writeCtrl, hv]
  rfl

theorem regWrite_featSel (v : Word) (s : State) : regWrite 0x80 v s = { s with featSel := v.extractLsb' 0 16 } := by
  rw [← BitVec.setWidth_eq_extractLsb' (by decide)]
  rfl

end Sys2Proof.Machine

open Sys2Proof Sys2Proof.Machine Sys2Proof.Safety

/-- Settles O34: a terminal phase discards NOP, and every other phase runs its empty body. -/
theorem nopDoesNothing : Obligations.NopDoesNothing := by
  intro s
  cases ht : isTerminal s.phase with
  | true => exact exec_of_terminal ht (by simp)
  | false => exact guarded_of_legal ht (by simp [anyWorkingPhase, ht])

/-- Settles O35: MAX_WIDTH divides the writes of SET_WIDTH from its error; IMG_COLS32 then fits the image. -/
theorem setWidthSetsOrRaises : Obligations.SetWidthSetsOrRaises := by
  intro val s hp
  refine ⟨fun hw => ?_, fun hw => exec_setWidth_of_gt hp hw⟩
  have himg : ImageInv (setImageWidth val s) := ⟨hw, rfl⟩
  exact ⟨_, exec_setWidth_of_le hp hw, rfl, toNat_imgCols32 himg, rfl⟩

/-- Settles O36: no value of IMG_HEIGHT is refused. -/
theorem setHeightSets : Obligations.SetHeightSets := fun val _ hp => exec_setHeight_of_config val hp

/-- Settles O12: a read is answered by BusRead and changes nothing else. -/
theorem hostReadChangesNothing : Obligations.HostReadChangesNothing := by
  intro s addr size hs ms hturn hh
  rw [step_of_hostTurn hturn, hostMove_read (s := { s with schedule := ms }) hh, busRead_withSchedule s ms, busRead_eq]

/-- Settles O15: neither write can wait, and each reaches its own register alone. -/
theorem ctrlAndFeatSelWrites : Obligations.CtrlAndFeatSelWrites := by
  intro s v hs ms hturn
  rw [step_of_hostTurn hturn]
  refine ⟨fun hh hv => ?_, fun hh => ?_⟩
  · rw [hostMove_windowWrite (s := { s with schedule := ms }) hh (by decide) (by decide) (by simp),
      regWrite_ctrl_of_noSrst _ hv]
  · rw [hostMove_windowWrite (s := { s with schedule := ms }) hh (by decide) (by decide) (by simp), regWrite_featSel]
end

section
/-! PROOFS. PIXELS that fit their row, a row split into PIXELS commands, and the errors of ROW_END (41_row_codec.md R170 to R173,
42_feature.md R191). -/

namespace Sys2Proof.Machine

open Sys2Proof.Safety

theorem guarded_rowPhases {h : Word} {body : State → Result} {s : State} (hp : s.phase = .loading ∨ s.phase = .scanning) :
    guarded rowPhases h body s = body s :=
  guarded_of_legal ((isTerminal_eq_false_iff _).2 (.inr hp)) (by simpa [rowPhases] using hp)

/-! ## ROW_END -/

theorem headerOf_rowEnd : headerOf .rowEnd = 0x21000000#32 := rfl

/-- The length check comes before the row's own work (41_row_codec.md R172). -/
theorem exec_rowEnd_of_wrongLength {s : State} (hp : s.phase = .loading ∨ s.phase = .scanning)
    (hlen : s.pixCount.toNat ≠ rowLen s) : exec .rowEnd s = .next (raise (rowLengthError s) (headerOf .rowEnd) s) := by
  rw [exec, execRowEnd, guarded_rowPhases hp, rowEndBody, if_pos hlen]

theorem exec_rowEnd_of_completeFeatureRow {s : State} (hp : s.phase = .loading) (hlen : s.pixCount.toNat = s.load.cols.toNat) :
    exec .rowEnd s = featureRowCommit (headerOf .rowEnd) s := by
  have hrow : s.pixCount.toNat = rowLen s := hlen.trans (if_pos hp).symm
  rw [exec, execRowEnd, guarded_rowPhases (.inl hp), rowEndBody, if_neg (not_not_intro hrow), if_pos hp]

/-! ## The pixels of a payload -/

theorem length_payloadPixels (n : Nat) (p : Word) : (payloadPixels n p).length = n := by
  simp [payloadPixels]

theorem getD_payloadPixels {n j : Nat} (p : Word) (d : Bool) (hj : j < n) : (payloadPixels n p).getD j d = pixelOf p j := by
  simp [payloadPixels, List.getD, hj]

/-! ## PIXELS that fit the row -/

theorem rowLen_lt (s : State) : rowLen s < 2 ^ 24 := by
  unfold rowLen
  split <;> omega

/-- A word that the row keeps is never missing from a STAGE as long as the row (log 11). -/
theorem stageWordMissing_eq_false (n : Nat) {s : State} (hw : rowWords s ≤ s.cfg.stageWords) :
    stageWordMissing n s = false := by
  simp [stageWordMissing]
  omega

/-- PIXELS that fit the row enter it, one after another (41_row_codec.md R171). -/
theorem exec_pixels_of_fits {n : BitVec 6} (p : Word) {s : State} (hp : s.phase = .loading ∨ s.phase = .scanning)
    (hn : 1 ≤ n.toNat ∧ n.toNat ≤ 32) (hfit : s.pixCount.toNat + n.toNat ≤ rowLen s)
    (hw : rowWords s ≤ s.cfg.stageWords) :
    exec (.pixels n p) s = .next (packPixels (payloadPixels n.toNat p) s) := by
  rw [exec, execPixels_of_goodCount ((badCount_eq_false_iff n).2 hn), guarded_rowPhases hp, pixelsBody,
    if_neg (Nat.not_lt.2 hfit), stageWordMissing_eq_false _ hw]
  rfl

/-- The last pixel of a payload enters in bit 0 of ACC. -/
theorem getLsbD_acc_packPixels_payload (n : Nat) (p : Word) (s : State) {b : Nat} (hb : b < 32) :
    (packPixels (payloadPixels n p) s).acc.getLsbD b =
      if b < n then pixelOf p (n - 1 - b) else s.acc.getLsbD (b - n) := by
  have h := getLsbD_foldl_shiftIn (payloadPixels n p) id s.acc b hb
  rw [List.map_id, length_payloadPixels] at h
  rw [packPixels_acc]
  refine h.trans ?_
  split
  · rw [getD_payloadPixels p _ (by omega)]
  · rfl

/-- At most 32 pixels complete at most one word, the one their first pixel belongs to (41_row_codec.md R170). -/
theorem completes_word_iff {c n w : Nat} (k : Nat) (hn : n ≤ 32) :
    (c ≤ 32 * k + 31 ∧ 32 * k + 31 < c + n ∧ k < w) ↔ (k = c / 32 ∧ 32 ≤ c % 32 + n ∧ k < w) := by
  omega

/-- STAGE after one PIXELS: the word it completes takes its first pixels out of ACC and its last ones out of the payload. -/
theorem stageRead_packPixels_payload {n : Nat} (p : Word) {s : State} (k : Nat) (hn : n ≤ 32)
    (hfit : s.pixCount.toNat + n ≤ rowLen s) :
    if k = s.pixCount.toNat / 32 ∧ 32 ≤ s.pixCount.toNat % 32 + n ∧ k < rowWords s then
      ∀ b, b < 32 → (stageRead (packPixels (payloadPixels n p) s) k).getLsbD b =
        if b < 32 - s.pixCount.toNat % 32 then pixelOf p (31 - s.pixCount.toNat % 32 - b)
        else s.acc.getLsbD (b - (32 - s.pixCount.toNat % 32))
    else stageRead (packPixels (payloadPixels n p) s) k = stageRead s k := by
  have hlen := rowLen_lt s
  have h := stageRead_packPixels (payloadPixels n p) s k (by rw [length_payloadPixels]; omega)
  simp only [length_payloadPixels, completes_word_iff k hn] at h
  split
  · next hk =>
    rw [if_pos hk, show 32 * k + 32 - s.pixCount.toNat = 32 - s.pixCount.toNat % 32 by omega] at h
    intro b hb
    rw [h b hb]
    split
    · rw [getD_payloadPixels p _ (by omega),
        show 32 * k + 31 - b - s.pixCount.toNat = 31 - s.pixCount.toNat % 32 - b by omega]
    · rfl
  · next hk => rwa [if_neg hk] at h

/-! ## A row in several PIXELS commands (41_row_codec.md R173) -/

/-- The pixels that a list of PIXELS operands delivers. -/
def deliveredPixels (cmds : List (BitVec 6 × Word)) : List Bool := cmds.flatMap fun c => payloadPixels c.1.toNat c.2

/-- PIXELS commands that fit the row together enter its pixels as one list. -/
theorem execAll_pixels (cmds : List (BitVec 6 × Word)) {s : State} (hp : s.phase = .loading ∨ s.phase = .scanning)
    (hw : rowWords s ≤ s.cfg.stageWords) (hn : ∀ c, c ∈ cmds → 1 ≤ c.1.toNat ∧ c.1.toNat ≤ 32)
    (hfit : s.pixCount.toNat + (deliveredPixels cmds).length ≤ rowLen s) :
    execAll (cmds.map fun c => .pixels c.1 c.2) s = .next (packPixels (deliveredPixels cmds) s) := by
  induction cmds generalizing s with
  | nil => rfl
  | cons c cmds ih =>
    have hcons : deliveredPixels (c :: cmds) = payloadPixels c.1.toNat c.2 ++ deliveredPixels cmds := rfl
    rw [hcons, List.length_append, length_payloadPixels] at hfit
    have hfirst : s.pixCount.toNat + c.1.toNat ≤ rowLen s := by omega
    have hcount := toNat_pixCount_packPixels (p := c.2) hfirst
    rw [List.map_cons, execAll, exec_pixels_of_fits c.2 hp (hn c (by simp)) hfirst hw, hcons, packPixels_append]
    refine ih ?_ ?_ (fun c' hc' => hn c' (by simp [hc'])) ?_
    · rwa [packPixels_frame]
    · rwa [rowWords_packPixels, packPixels_frame]
    · rw [hcount, rowLen_packPixels]
      omega

theorem toNat_pixCount_packPixels_of_lt {px : List Bool} {s : State} (h : s.pixCount.toNat + px.length < 2 ^ 24) :
    (packPixels px s).pixCount.toNat = s.pixCount.toNat + px.length := by
  rw [packPixels_pixCount]
  bv_omega

/-- Each word that a row from its start on completes and keeps holds its own 32 pixels, packed. -/
theorem stageRead_packPixels_of_complete {px : List Bool} {s : State} {k : Nat} (hc : s.pixCount.toNat = 0)
    (hlen : px.length < 2 ^ 24) (hk : 32 * k + 31 < px.length) (hkept : k < rowWords s) :
    stageRead (packPixels px s) k = packWord fun i => px.getD (32 * k + i) false := by
  have h := stageRead_packPixels px s k (by omega)
  rw [if_pos (by omega)] at h
  refine eq_of_pixelOf_eq fun j hj => ?_
  rw [pixelOf_packWord _ j hj, pixelOf, h _ (by omega), if_pos (by omega),
    show 32 * k + 31 - (31 - j) - s.pixCount.toNat = 32 * k + j by omega]

/-- A row from its start on stores no word that it does not complete. -/
theorem stageRead_packPixels_of_incomplete {px : List Bool} {s : State} {k : Nat} (hc : s.pixCount.toNat = 0)
    (hlen : px.length < 2 ^ 24) (hk : px.length ≤ 32 * k + 31) : stageRead (packPixels px s) k = stageRead s k := by
  have h := stageRead_packPixels px s k (by omega)
  rwa [if_neg (by omega)] at h

/-! ## A packed word as a number (41_row_codec.md R173) -/

/-- The low `n` bits of a number are the sum of their powers of two, the highest bit first. -/
theorem sum_testBit_eq_mod (x n : Nat) :
    ((List.range n).map fun i => (x.testBit (n - (i + 1))).toNat * 2 ^ (n - (i + 1))).sum = x % 2 ^ n := by
  induction n with
  | zero => simp [Nat.mod_one]
  | succ n ih =>
    rw [List.range_succ_eq_map, List.map_cons, List.sum_cons, List.map_map, Nat.mod_pow_succ, ← Nat.toNat_testBit,
      Nat.add_comm, Nat.mul_comm (2 ^ n), ← ih]
    simp [Function.comp_def]

/-- `Pack(b, W)[k]` as the spec writes it, a sum of pixels times powers of two. -/
theorem toNat_packWord (px : Nat → Bool) :
    (packWord px).toNat = ((List.range 32).map fun i => (px i).toNat * 2 ^ (31 - i)).sum := by
  have hbits := sum_testBit_eq_mod (packWord px).toNat 32
  rw [Nat.mod_eq_of_lt (packWord px).isLt] at hbits
  refine hbits.symm.trans (congrArg List.sum (List.map_congr_left fun i hi => ?_))
  rw [← pixelOf_packWord px i (List.mem_range.1 hi), Nat.add_sub_add_right 31 1 i]
  rfl

end Sys2Proof.Machine

open Sys2Proof Sys2Proof.Machine Sys2Proof.Safety

/-- Settles O41: the length is checked first, and the number of rows before the commit. -/
theorem rowEndErrors : Obligations.RowEndErrors := by
  intro s
  refine ⟨fun hp hlen => ?_, fun hp hlen => ?_, fun hp hlen hr => ?_⟩
  · rw [exec_rowEnd_of_wrongLength (.inl hp) (by simpa [rowLen, hp] using hlen), headerOf_rowEnd]
    simp [raise, rowLengthError, hp, errorNumber]
  · rw [exec_rowEnd_of_wrongLength (.inr hp) (by simpa [rowLen, hp] using hlen), headerOf_rowEnd]
    simp [raise, rowLengthError, hp, errorNumber]
  · rw [exec_rowEnd_of_completeFeatureRow hp hlen, featureRowCommit, if_pos hr, headerOf_rowEnd]
    rfl

/-- Settles O37: PIXELS that fit pass every check, and their pixels shift into ACC one after another. -/
theorem pixelsEnterTheRow : Obligations.PixelsEnterTheRow := by
  intro n p s hp h1 h32 hfit hw
  exact ⟨_, exec_pixels_of_fits p hp ⟨h1, h32⟩ hfit hw, packPixels_frame _ _, toNat_pixCount_packPixels hfit,
    fun b hb => getLsbD_acc_packPixels_payload _ p s hb, fun k => stageRead_packPixels_payload p k h32 hfit⟩

/-- Settles O40: the packer sees the pixels alone, not their split; and only PIXELS writes STAGE. -/
theorem rowCodecPacksTheRow : Obligations.RowCodecPacksTheRow := by
  intro s cmds hp hc hwords hstage hn hlen
  have hlen : (deliveredPixels cmds).length = rowLen s := hlen
  have hlt := rowLen_lt s
  have hc : s.pixCount.toNat = 0 := by rw [hc]; rfl
  refine ⟨_, execAll_pixels cmds hp hstage hn (by omega), packPixels_frame _ _, ?_, fun k hk => ?_, fun k hk => ?_,
    fun u hu k => (commandEffect_of_exec hu).stageRead_eq (by simp) (by simp) k⟩
  · rw [toNat_pixCount_packPixels_of_lt (by omega), hc, hlen, Nat.zero_add]
  · rw [stageRead_packPixels_of_complete hc (by omega) (by omega) (by omega)]
    exact toNat_packWord _
  · exact stageRead_packPixels_of_incomplete hc (by omega) (by omega)
end

section
/-! PROOFS. Loading a feature: FEAT_BEGIN, ROW_END in LOADING and FEAT_END (42_feature.md R190 to R192), and what the committed
signature holds (R193). -/

namespace Sys2Proof.Machine

open Sys2Proof.Safety

/-! ## FEAT_BEGIN -/

theorem toNat_featCols32 (cols : BitVec 12) : (featCols32 cols).toNat = cols.toNat / 32 := by
  rw [featCols32, BitVec.toNat_setWidth, BitVec.toNat_ushiftRight, Nat.shiftRight_eq_div_pow]
  omega

/-- FEAT_BEGIN in CONFIG, with the checks of 42_feature.md R190 on numbers. -/
theorem exec_featBegin_of_config (rows cols : BitVec 12) {s : State} (hp : s.phase = .config) :
    exec (.featBegin rows cols) s =
      if rows.toNat = 0 ∨ cols.toNat / 32 = 0 then
        .next (raise .loadBadDims (headerOf (.featBegin rows cols)) s)
      else if s.cfg.maxFeatRows < rows.toNat ∨ s.cfg.maxFeatCols32 < cols.toNat / 32 then
        .next (raise .loadTooLarge (headerOf (.featBegin rows cols)) s)
      else if s.featCount.toNat = s.cfg.maxFeatures then
        .next (raise .loadTableFull (headerOf (.featBegin rows cols)) s)
      else if s.cfg.featMemWords < s.fmemUsed.toNat + rows.toNat * (cols.toNat / 32) then
        .next (raise .loadMemFull (headerOf (.featBegin rows cols)) s)
      else .next (beginLoad rows cols s) := by
  rw [exec, execFeatBegin, guarded_configOnly hp, toNat_featCols32]

/-- The header that a FEAT_BEGIN error records (60_exceptions.md R284). -/
theorem headerOf_featBegin (rows cols : BitVec 12) :
    headerOf (.featBegin rows cols) = 0x10000000#32 ||| (rows.setWidth 32 <<< 12) ||| cols.setWidth 32 := rfl

/-! ## ROW_END in LOADING -/

/-- A complete row of a feature that still lacks rows is committed, where its words and its place exist. -/
theorem exec_rowEnd_of_featureRow {s : State} (hp : s.phase = .loading) (hlen : s.pixCount.toNat = s.load.cols.toNat)
    (hr : s.load.r ≠ s.load.rows) (hstage : s.load.cols32.toNat ≤ s.cfg.stageWords)
    (hfm : commitAddr s + s.load.cols32.toNat ≤ s.cfg.featMemWords) :
    exec .rowEnd s = .next (clearRow (commitRow s)) := by
  rw [exec_rowEnd_of_completeFeatureRow hp hlen, featureRowCommit, if_neg hr, if_neg (Nat.not_lt.2 hstage),
    if_neg (Nat.not_lt.2 hfm)]

/-! ## FEAT_END -/

theorem guarded_loadingOnly {h : Word} {body : State → Result} {s : State} (hp : s.phase = .loading) :
    guarded loadingOnly h body s = body s :=
  guarded_of_legal ((isTerminal_eq_false_iff _).2 (.inr (.inl hp))) (by simp [loadingOnly, hp])

theorem exec_featEnd_of_partialRow {s : State} (hp : s.phase = .loading) (hpix : s.pixCount ≠ 0) :
    exec .featEnd s = .next (raise .loadRowLength (headerOf .featEnd) s) := by
  rw [exec, execFeatEnd, guarded_loadingOnly hp, if_pos hpix]

theorem exec_featEnd_of_wrongRowCount {s : State} (hp : s.phase = .loading) (hpix : s.pixCount = 0)
    (hr : s.load.r ≠ s.load.rows) : exec .featEnd s = .next (raise .loadRowCount (headerOf .featEnd) s) := by
  rw [exec, execFeatEnd, guarded_loadingOnly hp, if_neg (not_not_intro hpix), if_pos hr]

/-- A complete feature is committed, where its matrix lies in FM and the table has an entry for it. -/
theorem exec_featEnd_of_complete {s : State} (hp : s.phase = .loading) (hpix : s.pixCount = 0)
    (hr : s.load.r = s.load.rows)
    (hfm : s.load.base.toNat + s.load.rows.toNat * s.load.cols32.toNat ≤ s.cfg.featMemWords)
    (hroom : s.featCount.toNat < s.cfg.maxFeatures) : exec .featEnd s = .next (commitFeature s) := by
  rw [exec, execFeatEnd, guarded_loadingOnly hp, if_neg (not_not_intro hpix), if_neg (not_not_intro hr),
    if_neg (Nat.not_lt.2 hfm), if_neg (Nat.not_le.2 hroom)]

end Sys2Proof.Machine

open Sys2Proof Sys2Proof.Machine Sys2Proof.Safety

/-- Settles O44: every check of ROW_END passes, and the block written to FM is the row's words. -/
theorem rowEndCommitsFeatureRow : Obligations.RowEndCommitsFeatureRow := fun s hp hlen hr hstage hfm =>
  ⟨_, exec_rowEnd_of_featureRow hp hlen hr hstage hfm, rfl, fmRead_commitRow s⟩

/-- Settles O45: the invariant gives the feature its FM words and its table entry, and neither counter wraps. -/
theorem featEndCommits : Obligations.FeatEndCommits := by
  rintro s ⟨hlegal, -, hload, -⟩ hp hpix hr
  obtain ⟨-, ⟨-, hmax⟩, -, -, ⟨-, hwords⟩, -⟩ := hlegal
  obtain ⟨-, -, -, hbase, -, hroom, hfm, -⟩ := hload hp
  exact ⟨_, exec_featEnd_of_complete hp hpix hr (hbase ▸ hfm) hroom, rfl,
    toNat_featCount_commitFeature (by omega), toNat_fmemUsed_commitFeature (by omega), descRead_commitFeature s⟩

/-- Settles O47: the rows are shifted in from the top, so the last one is in bit 0. -/
theorem featureSignatureBits : Obligations.FeatureSignatureBits := by
  intro s i hi
  rw [featureSignature, getLsbD_foldl_shiftIn _ _ _ i hi, List.length_range]
  split
  · next hrow =>
    have hlt : s.load.rows.toNat - 1 - i < s.load.rows.toNat := by omega
    simp [List.getD, hlt]
  · simp

/-- Settles O42: every check of FEAT_BEGIN passes. -/
theorem featBeginStartsLoading : Obligations.FeatBeginStartsLoading := by
  intro rows cols s hp hr hr' hc hc' hn hm
  rw [exec_featBegin_of_config rows cols hp, if_neg (by omega), if_neg (by omega), if_neg hn, if_neg (Nat.not_lt.2 hm)]
  exact ⟨_, rfl, rfl, rfl, rfl, toNat_featCols32 cols, rfl, rfl⟩

/-- Settles O43: the first check that fails raises its error. -/
theorem featBeginErrorsInOrder : Obligations.FeatBeginErrorsInOrder := by
  intro rows cols s hp herr
  rw [exec_featBegin_of_config rows cols hp, headerOf_featBegin]
  split_ifs with hdims hlarge hfull hmem
  · rfl
  · rfl
  · rfl
  · rfl
  · omega

/-- Settles O46: the partial row is checked before the number of rows. -/
theorem featEndErrors : Obligations.FeatEndErrors := fun _ hp =>
  ⟨exec_featEnd_of_partialRow hp, exec_featEnd_of_wrongRowCount hp⟩
end

section
/-! PROOFS. The template comparator in pixels (42_feature.md R194, R196). -/

namespace Sys2Proof.Machine

open Sys2Proof.Safety

/-- Two words are equal when their 32 pixels are. -/
theorem eq_iff_pixelOf_eq {v w : Word} : v = w ↔ ∀ i, i < 32 → pixelOf v i = pixelOf w i :=
  ⟨fun h _ _ => h ▸ rfl, eq_of_pixelOf_eq⟩

/-- The pixels of a row of `n` words, word by word. -/
theorem forall_pixel_iff {P : Nat → Prop} (n : Nat) :
    (∀ j, j < 32 * n → P j) ↔ ∀ k, k < n → ∀ i, i < 32 → P (32 * k + i) := by
  refine ⟨fun h k hk i hi => h _ (by omega), fun h j hj => ?_⟩
  rw [← Nat.div_add_mod j 32]
  exact h _ (by omega) _ (by omega)

/-- Pixel `i` of a stored feature word is pixel `32k + i` of its row. -/
theorem pixelOf_featureWord (s : State) (d : Desc) (r k : Nat) {i : Nat} (hi : i < 32) :
    pixelOf (featureWord s d r k) i = featurePixel s d r (32 * k + i) := by
  rw [featurePixel, Nat.mul_add_div (by decide), Nat.div_eq_of_lt hi, Nat.mul_add_mod, Nat.mod_eq_of_lt hi, Nat.add_zero]

/-- Pixel `i` of a window word is the buffer's pixel `i` places after the window's first (42_feature.md R194). -/
theorem pixelOf_windowWord (s : State) (line c k : Nat) {o i : Nat} (ho : o < 32) (hi : i < 32) :
    pixelOf (windowWord s line c o k) i = bufferPixel s line (32 * c + o + (32 * k + i)) := by
  rw [windowWord, pixelOf_funnel _ _ _ _ ho hi, bufferPixel]
  split
  · next h =>
    rw [show (32 * c + o + (32 * k + i)) / 32 = c + k by omega, show (32 * c + o + (32 * k + i)) % 32 = o + i by omega]
  · next h =>
    rw [show (32 * c + o + (32 * k + i)) / 32 = c + k + 1 by omega,
      show (32 * c + o + (32 * k + i)) % 32 = o + i - 32 by omega]

/-- A row of window words equals a feature row when their pixels do (42_feature.md R196). -/
theorem rowMatches_iff (s : State) (d : Desc) (line c r : Nat) {o : Nat} (ho : o < 32) :
    (∀ k, k < d.cols32.toNat → windowWord s line c o k = featureWord s d r k) ↔
      ∀ j, j < 32 * d.cols32.toNat → bufferPixel s line (32 * c + o + j) = featurePixel s d r j := by
  rw [forall_pixel_iff]
  refine forall₂_congr fun k _ => eq_iff_pixelOf_eq.trans (forall₂_congr fun i hi => ?_)
  rw [pixelOf_windowWord s line c k ho hi, pixelOf_featureWord s d r k hi]

/-- The comparator in packed words: its two guards, and every word of every row equal (42_feature.md R194). -/
theorem matchesAt_eq_true_iff (s : State) (f o c y : Nat) :
    matchesAt s f o c y = true ↔
      (descRead s f).rows.toNat ≤ y + 1 ∧
      c + (descRead s f).cols32.toNat + (if 0 < o then 1 else 0) ≤ s.imgCols32.toNat ∧
      ∀ r, r < (descRead s f).rows.toNat → ∀ k, k < (descRead s f).cols32.toNat →
        windowWord s (windowLine s (descRead s f) y r) c o k = featureWord s (descRead s f) r k := by
  simp only [matchesAt, Bool.and_eq_true, decide_eq_true_iff, List.all_eq_true, List.mem_range, beq_iff_eq, and_assoc]

end Sys2Proof.Machine

open Sys2Proof Sys2Proof.Machine Sys2Proof.Safety

/-- Settles O48: row by row, equal words are equal pixels. -/
theorem matchesPixelwise : Obligations.MatchesPixelwise := by
  intro s f o c y ho
  rw [matchesAt_eq_true_iff]
  exact and_congr_right' <| and_congr_right' <| forall₂_congr fun r _ => rowMatches_iff s _ _ c r ho
end

section
/-! PROOFS. SCAN_START and STREAM_END where they are legal (44_scan_engine.md R240, R245). -/

namespace Sys2Proof.Machine

open Sys2Proof.Safety

/-! ## SCAN_START -/

theorem headerOf_scanStart : headerOf .scanStart = 0x30000000#32 := rfl

/-- The scan starts, where the table and SIG have every entry it needs. -/
theorem exec_scanStart_of_features {s : State} (hp : s.phase = .config) (hn : s.featCount ≠ 0)
    (hdesc : s.featCount.toNat ≤ s.cfg.maxFeatures) (hsig : s.imgCols32.toNat ≤ s.cfg.maxCols32) :
    exec .scanStart s = .next (startScan s) := by
  rw [exec, execScanStart, guarded_configOnly hp, if_neg hn, if_neg (Nat.not_lt.2 hdesc), if_neg (Nat.not_lt.2 hsig)]

theorem exec_scanStart_of_noFeature {s : State} (hp : s.phase = .config) (hn : s.featCount = 0) :
    exec .scanStart s = .next (raise .usageNoFeatures (headerOf .scanStart) s) := by
  rw [exec, execScanStart, guarded_configOnly hp, if_pos hn]

/-- Before the first row RB owes nothing, and SIG holds the zeros above row 0 (10_state.md R38, R42). -/
theorem scanned_startScan {s : State} (hsig : s.imgCols32.toNat ≤ s.cfg.maxCols32) (img : Nat → Nat → Bool) :
    Scanned img (startScan s) := by
  refine ⟨fun i hi => absurd hi (Nat.not_lt_zero i), fun x hx b _ => ?_⟩
  have hx : x < 32 * s.cfg.maxCols32 := Nat.lt_of_lt_of_le hx (Nat.mul_le_mul_left 32 hsig)
  rw [sigRead_startScan, if_pos hx]
  simp

/-! ## STREAM_END -/

theorem headerOf_streamEnd : headerOf .streamEnd = 0x22000000#32 := rfl

theorem guarded_scanningOnly {h : Word} {body : State → Result} {s : State} (hp : s.phase = .scanning) :
    guarded scanningOnly h body s = body s :=
  guarded_of_legal ((isTerminal_eq_false_iff _).2 (.inr (.inr hp))) (by simp [scanningOnly, hp])

theorem exec_streamEnd_of_scanning {s : State} (hp : s.phase = .scanning) :
    exec .streamEnd s = .next (raise .streamTruncated (headerOf .streamEnd) s) := by
  rw [exec, execStreamEnd, guarded_scanningOnly hp]

end Sys2Proof.Machine

open Sys2Proof Sys2Proof.Machine Sys2Proof.Safety

/-- Settles O49: every check of SCAN_START passes; CYCLE_ROWS takes the greatest height in the table. -/
theorem scanStartBegins : Obligations.ScanStartBegins := by
  intro s hp
  refine ⟨fun hn hdesc hsig => ?_, fun hn => ?_⟩
  · have hpos : s.featCount.toNat ≠ 0 := by bv_omega
    exact ⟨_, exec_scanStart_of_features hp hn hdesc hsig, rfl, rows_le_tallest s, tallest_eq_rows s hpos,
      sigRead_startScan s, scanned_startScan hsig⟩
  · rw [exec_scanStart_of_noFeature hp hn, headerOf_scanStart]
    rfl

/-- Settles O58: the truncation error is all that STREAM_END brings about. -/
theorem streamEndTruncates : Obligations.StreamEndTruncates := by
  intro s hp
  rw [exec_streamEnd_of_scanning hp, headerOf_streamEnd]
  rfl
end

section
/-! PROOFS. The candidates of a scan row and their order (43_feature_index.md R221, R222, 44_scan_engine.md R243). -/

namespace Sys2Proof.Machine

open Sys2Proof.Safety

/-- The order of the comparisons of 44_scan_engine.md R243: increasing position, then increasing feature id. -/
def Candidate.Before (k k' : Candidate) : Prop :=
  position k.c k.o < position k'.c k'.o ∨ (position k.c k.o = position k'.c k'.o ∧ k.f < k'.f)

theorem fits_eq_true_iff (s : State) (c f : Nat) :
    fits s c f = true ↔
      (descRead s f).rows.toNat ≤ s.rowY.toNat + 1 ∧ c + (descRead s f).cols32.toNat < s.imgCols32.toNat := by
  simp [fits]

/-- A candidate of the row is a candidate at its own position. -/
theorem mem_candidates_iff_mem_candidatesAt (s : State) (k : Candidate) :
    k ∈ candidates s ↔ k.c < s.imgCols32.toNat ∧ k.o < 32 ∧ k ∈ candidatesAt s k.c k.o := by
  simp only [candidates, List.mem_flatMap, List.mem_range]
  constructor
  · rintro ⟨c, hc, o, ho, hk⟩
    obtain ⟨rfl, rfl, -⟩ := (mem_candidatesAt s c o k).1 hk
    exact ⟨hc, ho, hk⟩
  · rintro ⟨hc, ho, hk⟩
    exact ⟨k.c, hc, k.o, ho, hk⟩

/-- The candidates of a row are what the index and the two conditions of 44_scan_engine.md R243 let in. -/
theorem mem_candidates_iff (s : State) (k : Candidate) :
    k ∈ candidates s ↔
      k.c < s.imgCols32.toNat ∧ k.o < 32 ∧ k.f < s.featCount.toNat ∧
      (descRead s k.f).sig = sigRead s (position k.c k.o) ∧ (descRead s k.f).rows.toNat ≤ s.rowY.toNat + 1 ∧
      k.c + (descRead s k.f).cols32.toNat < s.imgCols32.toNat := by
  simp only [mem_candidates_iff_mem_candidatesAt, mem_candidatesAt, fits_eq_true_iff, true_and]

/-- The index answers its features in increasing id (43_feature_index.md R222). -/
theorem pairwise_lookup (s : State) (key : Word) : (lookup s key).Pairwise (· < ·) :=
  List.pairwise_lt_range.filter _

theorem pairwise_candidatesAt (s : State) (c o : Nat) : (candidatesAt s c o).Pairwise Candidate.Before := by
  rw [candidatesAt, List.pairwise_map]
  exact ((pairwise_lookup s _).filter _).imp fun hlt => .inr ⟨rfl, hlt⟩

/-- Candidates at a smaller position come before those at a greater one. -/
theorem before_of_position_lt {s : State} {c o c' o' : Nat} {k k' : Candidate} (hk : k ∈ candidatesAt s c o)
    (hk' : k' ∈ candidatesAt s c' o') (h : position c o < position c' o') : k.Before k' := by
  obtain ⟨rfl, rfl, -⟩ := (mem_candidatesAt s c o k).1 hk
  obtain ⟨rfl, rfl, -⟩ := (mem_candidatesAt s c' o' k').1 hk'
  exact .inl h

/-- The candidates of a row stand in the order of 44_scan_engine.md R243. -/
theorem pairwise_candidates (s : State) : (candidates s).Pairwise Candidate.Before := by
  refine List.pairwise_flatMap.2 ⟨fun c _ => List.pairwise_flatMap.2 ⟨fun o _ => pairwise_candidatesAt s c o, ?_⟩, ?_⟩
  · refine List.pairwise_lt_range.imp fun ho k hk k' hk' => before_of_position_lt hk hk' ?_
    exact Nat.add_lt_add_left ho _
  · refine List.pairwise_lt_range.imp fun hc k hk k' hk' => ?_
    obtain ⟨o, ho, hk⟩ := List.mem_flatMap.1 hk
    obtain ⟨o', -, hk'⟩ := List.mem_flatMap.1 hk'
    have ho := List.mem_range.1 ho
    exact before_of_position_lt hk hk' (by unfold position; omega)

end Sys2Proof.Machine

open Sys2Proof Sys2Proof.Machine Sys2Proof.Safety

/-- Settles O50: columns, offsets and ids are each run through in increasing order. -/
theorem candidatesInOrder : Obligations.CandidatesInOrder := fun s => ⟨mem_candidates_iff s, pairwise_candidates s⟩
end

section
/-! PROOFS. What a scan row stores, and which match it reports (44_scan_engine.md R241 to R244, R248). -/

namespace Sys2Proof.Machine

open Sys2Proof.Safety

/-! ## The first match (44_scan_engine.md R243) -/

/-- Candidate `k` matches, and no candidate before it does. -/
def FirstMatch (s : State) (k : Candidate) : Prop :=
  MatchesHere s k.c k.o k.f ∧ ∀ k' : Candidate, MatchesHere s k'.c k'.o k'.f → k' = k ∨ k.Before k'

/-- The matches of a row are the candidates at which the comparator succeeds. -/
theorem matchesHere_iff (s : State) (k : Candidate) :
    MatchesHere s k.c k.o k.f ↔ k ∈ candidates s ∧ matchesAt s k.f k.o k.c s.rowY.toNat = true := by
  simp only [MatchesHere, mem_candidates_iff, and_assoc]

/-- What `find?` answers on an ordered list stands before every other element that satisfies the predicate. -/
theorem eq_or_rel_of_find?_eq_some {α : Type} {R : α → α → Prop} {p : α → Bool} {l : List α} {a b : α}
    (hl : l.Pairwise R) (ha : l.find? p = some a) (hb : b ∈ l) (hp : p b = true) : b = a ∨ R a b := by
  obtain ⟨-, before, after, rfl, hnot⟩ := List.find?_eq_some_iff_append.1 ha
  obtain ⟨-, htail, -⟩ := List.pairwise_append.1 hl
  rcases List.mem_append.1 hb with hb | hb
  · have hmiss := hnot b hb
    simp [hp] at hmiss
  · rcases List.mem_cons.1 hb with rfl | hb
    · exact .inl rfl
    · exact .inr ((List.pairwise_cons.1 htail).1 b hb)

/-- The search of a row reports its first match. -/
theorem firstMatch_of_search {s : State} {k : Candidate} {m n : BitVec 32}
    (h : search s (candidates s) m = (n, some k)) : FirstMatch s k := by
  have hfind := search_found s (candidates s) m
  rw [h] at hfind
  refine ⟨(matchesHere_iff s k).2 ⟨List.mem_of_find?_eq_some hfind.symm, ?_⟩, fun k' hk' => ?_⟩
  · simpa using List.find?_some hfind.symm
  · obtain ⟨hmem, hmatch⟩ := (matchesHere_iff s k').1 hk'
    exact eq_or_rel_of_find?_eq_some (pairwise_candidates s) hfind.symm hmem hmatch

theorem not_matchesHere_of_search {s : State} {m n : BitVec 32} (h : search s (candidates s) m = (n, none)) :
    ¬∃ c o f, MatchesHere s c o f := by
  have hfind := search_found s (candidates s) m
  rw [h] at hfind
  rintro ⟨c, o, f, hk⟩
  obtain ⟨hmem, hmatch⟩ := (matchesHere_iff s ⟨c, o, f⟩).1 hk
  exact List.find?_eq_none.1 hfind.symm _ hmem hmatch

/-! ## The two outcomes of a scan row -/

/-- The state after a row that reports `k`. -/
def foundRow (k : Candidate) (n : BitVec 32) (s : State) : State :=
  clearRow (enterFound k { searchState s with candCount := n })

/-- The state after a row without a match. -/
def missedRow (n : BitVec 32) (s : State) : State := clearRow (advanceRow { searchState s with candCount := n })

/-- A complete row reports its first match, or has none and the scan goes on. -/
theorem execRowEnd_outcome {s t : State} (hp : s.phase = .scanning) (hpix : s.pixCount = s.imgWidth)
    (hx : execRowEnd s = .next t) :
    (∃ k n, FirstMatch (searchState s) k ∧ t = foundRow k n s) ∨
    ((¬∃ c o f, MatchesHere (searchState s) c o f) ∧ ∃ n, t = missedRow n s) := by
  obtain ⟨-, rfl⟩ := execRowEnd_complete hp hpix hx
  rcases searchRow_cases (searchState s) with ⟨k, n, hk, h⟩ | ⟨n, hk, h⟩ <;> rw [h]
  · exact .inl ⟨k, n, firstMatch_of_search hk, rfl⟩
  · exact .inr ⟨not_matchesHere_of_search hk, n, rfl⟩

/-- FOUND is entered by a report alone, so only by a complete row. -/
theorem execRowEnd_found {s t : State} (hp : s.phase = .scanning) (hx : execRowEnd s = .next t)
    (ht : t.phase = .found) : ∃ k n, FirstMatch (searchState s) k ∧ t = foundRow k n s := by
  cases commandEffect_rowEnd hx with
  | unchanged => cases hp.symm.trans ht
  | raised => cases ht
  | rowCommitted hload => cases hp.symm.trans hload
  | rowFound k n _ _ hk => exact ⟨k, n, firstMatch_of_search hk, rfl⟩
  | rowMissed n => rcases rowMissed_phase_cases n hp with ⟨-, h⟩ | ⟨-, h⟩ <;> cases h.symm.trans ht

/-- Whichever its outcome, a complete row writes only the registers and memories of 41_row_codec.md R172, and its search writes
neither RB nor SIG. -/
theorem execRowEnd_complete_frame {s t : State} (hp : s.phase = .scanning) (hpix : s.pixCount = s.imgWidth)
    (hx : execRowEnd s = .next t) :
    t = { s with
      rb := t.rb, sig := t.sig, candCount := t.candCount, rowY := t.rowY, phase := t.phase
      resX := t.resX, resY := t.resY, resFeat := t.resFeat, resDim := t.resDim, pixCount := 0, acc := 0 } ∧
    (∀ line c, rbRead t line c = rbRead (storeRow s) line c) ∧ ∀ x, sigRead t x = sigRead (searchState s) x := by
  rcases execRowEnd_outcome hp hpix hx with ⟨k, n, -, rfl⟩ | ⟨-, n, rfl⟩
  · exact ⟨rfl, fun _ _ => rfl, fun _ => rfl⟩
  · exact ⟨rfl, fun _ _ => rfl, fun _ => rfl⟩

/-- The signatures a row is searched with: each position of the image has taken its pixel in (44_scan_engine.md R242). -/
theorem sigRead_searchState_eq (s : State) (x : Nat) :
    sigRead (searchState s) x =
      if x < 32 * s.imgCols32.toNat then shiftIn (sigRead s x) (pixelOf (stageRead s (x / 32)) (x % 32))
      else sigRead s x :=
  sigRead_updateSignatures (storeRow s) x

/-! ## The report's registers (10_state.md R57) -/

/-- A position in the image fits RES_X. -/
theorem toNat_resX_foundRow {s : State} {k : Candidate} (n : BitVec 32) (h : FirstMatch (searchState s) k) :
    (foundRow k n s).resX.toNat = position k.c k.o := by
  obtain ⟨⟨hc, ho, -⟩, -⟩ := h
  have hc : k.c < s.imgCols32.toNat := hc
  show (BitVec.ofNat 24 (position k.c k.o)).toNat = _
  exact Nat.mod_eq_of_lt (by unfold position; omega)

theorem toNat_resFeat_foundRow {s : State} {k : Candidate} (n : BitVec 32) (h : FirstMatch (searchState s) k) :
    (foundRow k n s).resFeat.toNat = k.f := by
  obtain ⟨⟨-, -, hf, -⟩, -⟩ := h
  have hf : k.f < s.featCount.toNat := hf
  show (BitVec.ofNat 16 k.f).toNat = _
  exact Nat.mod_eq_of_lt (by omega)

/-- In a running scan the report's row fits RES_Y. -/
theorem toNat_resY_foundRow {s : State} {k : Candidate} (n : BitVec 32) (hy : s.rowY.toNat < s.imgHeight.toNat) :
    (foundRow k n s).resY.toNat = s.rowY.toNat + 1 - (descRead s k.f).rows.toNat := by
  show (BitVec.ofNat 24 (s.rowY.toNat + 1 - (descRead s k.f).rows.toNat)).toNat = _
  exact Nat.mod_eq_of_lt (by omega)

/-- Candidates fit the image (44_scan_engine.md R248). -/
theorem candidate_fits_image {s : State} (hscan : ScanInv s) (hp : s.phase = .scanning) {k : Candidate}
    (hk : k ∈ candidates (searchState s)) :
    (descRead s k.f).rows.toNat ≤ s.imgHeight.toNat ∧ k.c + (descRead s k.f).cols32.toNat < s.imgCols32.toNat := by
  obtain ⟨-, -, -, -, hrows, hcols⟩ := (mem_candidates_iff _ k).1 hk
  obtain ⟨-, -, hy, -⟩ := hscan hp
  exact ⟨hrows.trans hy, hcols⟩

end Sys2Proof.Machine

open Sys2Proof Sys2Proof.Machine Sys2Proof.Safety

/-- Settles O51: the row is stored before the search, which writes neither RB nor SIG. -/
theorem rowEndScansTheRow : Obligations.RowEndScansTheRow := by
  intro s hi hp hpix
  obtain ⟨t, hx⟩ := execRowEnd_answers hi
  obtain ⟨-, -, -, himg, -⟩ := hi
  obtain ⟨hframe, hrb, hsig⟩ := execRowEnd_complete_frame hp hpix hx
  refine ⟨t, hx, hframe, fun line _ c hc => ?_, fun x => ?_⟩
  · rw [hrb, rbRead_storeRow s line c (imgCols32_le_maxCols32 himg) hc]
    rfl
  · rw [hsig, sigRead_searchState_eq]
    split
    · intro b hb
      rw [getLsbD_shiftIn _ _ _ hb]
      rfl
    · rfl

/-- Settles O52: the candidates are searched in their order, up to the first match. -/
theorem rowEndReportsFirstMatch : Obligations.RowEndReportsFirstMatch := by
  intro s t hp hpix hx
  rcases execRowEnd_outcome hp hpix hx with ⟨k, n, hk, rfl⟩ | ⟨hnone, n, rfl⟩
  · have hx := toNat_resX_foundRow n hk
    have hf := toNat_resFeat_foundRow n hk
    obtain ⟨hmatch, hfirst⟩ := hk
    refine ⟨fun _ => ⟨k.c, k.o, k.f, hmatch, fun c' o' f' hk' => ?_, rfl, hx, rfl, hf, rfl, rfl⟩,
      fun hnone => absurd ⟨_, _, _, hmatch⟩ hnone⟩
    rcases hfirst ⟨c', o', f'⟩ hk' with rfl | hlt | ⟨heq, hlt⟩
    · exact .inr ⟨rfl, Nat.le_refl _⟩
    · exact .inl hlt
    · exact .inr ⟨heq, Nat.le_of_lt hlt⟩
  · refine ⟨fun hsome => absurd hsome hnone, fun _ => ⟨rfl, ?_, rfl, rfl, rfl, rfl⟩⟩
    rw [← hp]
    rfl

/-- Settles O57: the two conditions of 44_scan_engine.md R243 bound every candidate, and a report is of a candidate. -/
theorem tooLargeNeverReported : Obligations.TooLargeNeverReported := by
  rintro s ⟨-, -, -, -, hscan, -⟩ hp
  refine ⟨fun k hk => ?_, fun t hx ht => ?_⟩
  · obtain ⟨hrows, hcols⟩ := candidate_fits_image hscan hp hk
    exact ⟨hrows, by omega, by omega⟩
  · obtain ⟨k, n, hk, rfl⟩ := execRowEnd_found hp hx ht
    obtain ⟨hrows, hcols⟩ := candidate_fits_image hscan hp ((matchesHere_iff _ k).1 hk.1).1
    rw [toNat_resFeat_foundRow n hk]
    exact ⟨hrows, by omega⟩
end

section
/-! PROOFS. The scan is sound and complete: what it reports the image shows, and what the image shows within the bounds it reports
(44_scan_engine.md R249, R250). -/

namespace Sys2Proof.Machine

open Sys2Proof.Safety

/-! ## The comparator on the image -/

/-- RB holds the last CYCLE_ROWS rows of the image pixel for pixel, the row just stored included. -/
theorem bufferPixel_searchState {img : Nat → Nat → Bool} {s : State} (hcols : s.imgCols32.toNat ≤ s.cfg.maxCols32)
    (hbuf : BufferHolds img s) (hstaged : RowStaged img s) {i x : Nat} (hi : i < s.rowY.toNat + 1)
    (hnear : s.rowY.toNat + 1 ≤ i + s.cycleRows.toNat) (hx : x < 32 * s.imgCols32.toNat) :
    bufferPixel (searchState s) (i % s.cycleRows.toNat) x = img i x := by
  rw [bufferPixel, rbRead_searchState hcols hbuf hstaged hi hnear (by omega), imageWord,
    pixelOf_packWord _ _ (Nat.mod_lt _ (by decide)), Nat.div_add_mod]

/-- Within the conditions of 44_scan_engine.md R243 the comparator says whether the image shows the feature with its bottom row on
the row just stored. -/
theorem matchesAt_searchState_iff_shows {img : Nat → Nat → Bool} {s : State} (himg : ImageInv s) (hscan : ScanInv s)
    (hp : s.phase = .scanning) (hbuf : BufferHolds img s) (hstaged : RowStaged img s) {c o f : Nat} (ho : o < 32)
    (hf : f < s.featCount.toNat) (hrows : (descRead s f).rows.toNat ≤ s.rowY.toNat + 1)
    (hcols : c + (descRead s f).cols32.toNat < s.imgCols32.toNat) :
    matchesAt (searchState s) f o c s.rowY.toNat = true ↔
      Shows img s (descRead s f) (position c o) (s.rowY.toNat + 1 - (descRead s f).rows.toNat) := by
  obtain ⟨-, hcycle, -⟩ := hscan hp
  have htall : (descRead s f).rows.toNat ≤ s.cycleRows.toNat := hcycle ▸ rows_le_tallest s f hf
  have hpixel : ∀ r, r < (descRead s f).rows.toNat → ∀ j, j < 32 * (descRead s f).cols32.toNat →
      bufferPixel (searchState s) ((s.rowY.toNat + 1 + r - (descRead s f).rows.toNat) % s.cycleRows.toNat)
        (32 * c + o + j) = img (s.rowY.toNat + 1 - (descRead s f).rows.toNat + r) (position c o + j) := by
    intro r hr j hj
    rw [bufferPixel_searchState (imgCols32_le_maxCols32 himg) hbuf hstaged (by omega) (by omega) (by omega),
      Nat.sub_add_comm hrows, position]
  refine (matchesPixelwise (searchState s) f o c s.rowY.toNat ho).trans ⟨fun ⟨_, _, h⟩ r hr j hj => ?_, fun h => ?_⟩
  · exact (hpixel r hr j hj).symm.trans (h r hr j hj)
  · refine ⟨hrows, ?_, fun r hr j hj => (hpixel r hr j hj).trans (h r hr j hj)⟩
    show c + (descRead s f).cols32.toNat + (if 0 < o then 1 else 0) ≤ s.imgCols32.toNat
    split <;> omega

/-! ## The signature of an occurrence (43_feature_index.md R225) -/

/-- Bit `b` of a stored signature is the left pixel of row `rows − 1 − b`, and 0 from `rows` on (42_feature.md R193). -/
theorem getLsbD_storedSignature (s : State) (d : Desc) {b : Nat} (hb : b < 32) :
    (storedSignature s d).getLsbD b = (decide (b < d.rows.toNat) && featurePixel s d (d.rows.toNat - 1 - b) 0) := by
  rw [storedSignature, getLsbD_foldl_shiftIn _ _ _ b hb, List.length_range]
  by_cases hrow : b < d.rows.toNat
  · have hlt : d.rows.toNat - 1 - b < d.rows.toNat := by omega
    simp [List.getD, hlt, hrow, featurePixel]
  · simp [hrow]

/-- An occurrence that fills the 32 bits, or with zeros above its left column, has the feature's signature at its left column. -/
theorem storedSignature_eq_sigRead {img : Nat → Nat → Bool} {s : State} (hsig : SignaturesHold img s)
    (hstaged : RowStaged img s) {d : Desc} {x y : Nat} (hx : x < 32 * s.imgCols32.toNat) (hcols : 1 ≤ d.cols32.toNat)
    (hy : y + d.rows.toNat = s.rowY.toNat + 1) (hshow : Shows img s d x y)
    (habove : 32 ≤ d.rows.toNat ∨
      ∀ i, i < min 32 (s.rowY.toNat + 1) - d.rows.toNat → img (y - 1 - i) x = false) :
    storedSignature s d = sigRead (searchState s) x := by
  refine BitVec.eq_of_getLsbD_eq fun b hb => ?_
  rw [getLsbD_storedSignature s d hb, sigRead_searchState hsig hstaged hx hb]
  by_cases hrow : b < d.rows.toNat
  · have hpixel := hshow (d.rows.toNat - 1 - b) (by omega) 0 (by omega)
    rw [show y + (d.rows.toNat - 1 - b) = s.rowY.toNat - b by omega] at hpixel
    simp [hrow, ← hpixel, show b < s.rowY.toNat + 1 by omega]
  · by_cases htop : b < s.rowY.toNat + 1
    · have hzero := habove.resolve_left (by omega) (b - d.rows.toNat) (by omega)
      rw [show y - 1 - (b - d.rows.toNat) = s.rowY.toNat - b by omega] at hzero
      simp [hrow, hzero]
    · simp [hrow, htop]

end Sys2Proof.Machine

open Sys2Proof Sys2Proof.Machine Sys2Proof.Safety

/-- Settles O55: the report is a match of the comparator, and RB holds the image's rows. -/
theorem noFalseReport : Obligations.NoFalseReport := by
  rintro img s t ⟨-, -, -, himg, hscan, -⟩ hp - ⟨hbuf, -⟩ hstaged hx ht
  obtain ⟨-, -, hy, -⟩ := hscan hp
  obtain ⟨k, n, hk, rfl⟩ := execRowEnd_found hp hx ht
  rw [toNat_resX_foundRow n hk, toNat_resFeat_foundRow n hk, toNat_resY_foundRow n hy]
  obtain ⟨⟨-, ho, hf, -, hrows, hcols, hmatch⟩, -⟩ := hk
  have hrows : (descRead s k.f).rows.toNat ≤ s.rowY.toNat + 1 := hrows
  exact ⟨hf, Nat.sub_add_cancel hrows, rfl,
    (matchesAt_searchState_iff_shows himg hscan hp hbuf hstaged ho hf hrows hcols).1 hmatch⟩

/-- Settles O56: the occurrence has its feature's signature and matches, so the row's first match is it or one before it. -/
theorem verbatimOccurrenceReported : Obligations.VerbatimOccurrenceReported := by
  intro img s x y f hi hsigs hp hpix ⟨hbuf, hsig⟩ hstaged hf hy hx hshow habove
  obtain ⟨t, ht⟩ := execRowEnd_answers hi
  obtain ⟨-, hfeat, -, himg, hscan, -⟩ := hi
  obtain ⟨⟨-, -, hcols, -⟩, -⟩ := hfeat.2.1 f hf
  obtain ⟨-, -, hlast, -⟩ := hscan hp
  have ho : x % 32 < 32 := Nat.mod_lt _ (by decide)
  have hpos : position (x / 32) (x % 32) = x := Nat.div_add_mod x 32
  have htop : s.rowY.toNat + 1 - (descRead s f).rows.toNat = y := by omega
  have hkey : (descRead s f).sig = sigRead (searchState s) (position (x / 32) (x % 32)) := by
    rw [hsigs f hf, hpos]
    exact storedSignature_eq_sigRead hsig hstaged (by omega) hcols hy hshow habove
  have hcompare : matchesAt (searchState s) f (x % 32) (x / 32) s.rowY.toNat = true :=
    (matchesAt_searchState_iff_shows himg hscan hp hbuf hstaged ho hf (by omega) hx).2 (by rwa [hpos, htop])
  have hmatch : MatchesHere (searchState s) (x / 32) (x % 32) f :=
    ⟨Nat.lt_of_le_of_lt (Nat.le_add_right _ _) hx, ho, hf, hkey, hy ▸ Nat.le_add_left _ _, hx, hcompare⟩
  rcases execRowEnd_outcome hp hpix ht with ⟨k, n, hk, rfl⟩ | ⟨hnone, -⟩
  · refine ⟨_, ht, rfl, ?_⟩
    rw [toNat_resX_foundRow n hk, toNat_resFeat_foundRow n hk, toNat_resY_foundRow n hlast]
    rcases hk.2 ⟨x / 32, x % 32, f⟩ hmatch with rfl | hlt | ⟨heq, hlt⟩
    · exact .inl ⟨hpos, htop, rfl⟩
    · exact .inr (.inl (hlt.trans_eq hpos))
    · exact .inr (.inr ⟨heq.trans hpos, hlt⟩)
  · exact absurd ⟨_, _, _, hmatch⟩ hnone
end

section
/-! PROOFS. Errors are precise (60_exceptions.md R281, R284, R285): every command's meaning is built from the phase check, ordered
checks that raise, and writes that stay out of ERROR. -/

namespace Sys2Proof.Machine

/-- An answer from state `s` is precise: if it enters ERROR, then by raising an error with header `h` on `s` itself, and not the
one error that is the parser's alone (30_encoding.md R116 step 2). -/
def Precise (h : Word) (s : State) (r : Result) : Prop :=
  ∀ t, r = .next t → t.phase = .error → ∃ e, e ≠ .illegalOpcode ∧ t = raise e h s

section
variable {h : Word} {s : State}

/-! ## The parts of a command's meaning -/

theorem precise_raise {e : ErrorCode} (he : e ≠ .illegalOpcode := by decide) : Precise h s (.next (raise e h s)) := by
  rintro t ⟨⟩ -
  exact ⟨e, he, rfl⟩

theorem precise_next {t : State} (ht : t.phase ≠ .error) : Precise h s (.next t) := by
  rintro t ⟨⟩ herr
  exact absurd herr ht

theorem precise_fault (f : Fault) : Precise h s (.fault f) := nofun

theorem precise_ite {c : Prop} [Decidable c] {r r' : Result} (hr : Precise h s r) (hr' : Precise h s r') :
    Precise h s (if c then r else r') :=
  iteInduction (fun _ => hr) fun _ => hr'

theorem precise_guarded {legal : Phase → Bool} {body : State → Result} (hs : s.phase ≠ .error)
    (hbody : Precise h s (body s)) : Precise h s (guarded legal h body s) :=
  precise_ite (precise_next hs) (precise_ite hbody precise_raise)

theorem rowLengthError_ne_illegalOpcode (s : State) : rowLengthError s ≠ .illegalOpcode := by
  unfold rowLengthError
  split <;> decide

/-! ## The commands -/

theorem precise_pixelsBody (n : BitVec 6) (p : Word) (hs : s.phase ≠ .error) :
    Precise (headerOf (.pixels n p)) s (pixelsBody n p s) :=
  precise_ite (precise_raise (rowLengthError_ne_illegalOpcode s))
    (precise_ite (precise_fault _) (precise_next (by rwa [packPixels_frame])))

theorem precise_featureRowCommit (hs : s.phase ≠ .error) : Precise h s (featureRowCommit h s) :=
  precise_ite precise_raise (precise_ite (precise_fault _) (precise_ite (precise_fault _) (precise_next hs)))

/-- A scan row ends in FOUND, in EXHAUSTED, or in the phase it began in (44_scan_engine.md R243, R244). -/
theorem searchRow_phase_ne_error (hs : s.phase ≠ .error) : (searchRow s).phase ≠ .error := by
  rcases searchRow_cases s with ⟨k, n, -, hr⟩ | ⟨n, -, hr⟩ <;> rw [hr]
  · nofun
  · rw [advanceRow_phase]
    split
    · nofun
    · exact hs

theorem precise_scanRowEnd (hs : s.phase ≠ .error) : Precise h s (scanRowEnd s) := by
  intro t hx
  obtain ⟨-, rfl⟩ := scanRowEnd_cases hx
  exact precise_next (t := clearRow (scanRow s)) (searchRow_phase_ne_error hs) _ rfl

theorem precise_rowEndBody (hs : s.phase ≠ .error) : Precise (headerOf .rowEnd) s (rowEndBody s) :=
  precise_ite (precise_raise (rowLengthError_ne_illegalOpcode s))
    (precise_ite (precise_featureRowCommit hs) (precise_scanRowEnd hs))

theorem startScan_phase_ne_error (s : State) : (startScan s).phase ≠ .error := by
  rcases startScan_phase_cases s with ⟨-, hp⟩ | ⟨-, hp⟩ <;> rw [hp] <;> decide

/-- Every command is precise: each of its checks comes before its first write (60_exceptions.md R284). -/
theorem precise_exec (i : Instr) (hs : s.phase ≠ .error) : Precise (headerOf i) s (exec i s) := by
  cases i with unfold exec
  | nop => exact precise_guarded hs (precise_next hs)
  | softReset => exact precise_next (t := softReset s) nofun
  | setWidth val =>
    refine precise_guarded hs ?_
    exact precise_ite precise_raise (precise_next hs)
  | setHeight val =>
    refine precise_guarded hs ?_
    exact precise_next hs
  | featBegin rows cols =>
    refine precise_guarded hs ?_
    exact precise_ite precise_raise (precise_ite precise_raise (precise_ite precise_raise
      (precise_ite precise_raise (precise_next nofun))))
  | featEnd =>
    refine precise_guarded hs ?_
    exact precise_ite precise_raise (precise_ite precise_raise (precise_ite (precise_fault _)
      (precise_ite (precise_fault _) (precise_next nofun))))
  | pixels n p =>
    exact precise_ite (precise_next hs) (precise_ite precise_raise (precise_guarded hs (precise_pixelsBody n p hs)))
  | rowEnd => exact precise_guarded hs (precise_rowEndBody hs)
  | streamEnd =>
    refine precise_guarded hs ?_
    exact precise_raise
  | scanStart =>
    refine precise_guarded hs ?_
    exact precise_ite precise_raise (precise_ite (precise_fault _) (precise_ite (precise_fault _)
      (precise_next (startScan_phase_ne_error s))))

end

end Sys2Proof.Machine

open Sys2Proof Sys2Proof.Machine

/-- Settles O25: the error is raised on the state before the command, and ILLEGAL_OPCODE is the parser's alone. -/
theorem errorsArePrecise : Obligations.ErrorsArePrecise := by
  intro i s t hx ht hs
  obtain ⟨e, he, rfl⟩ := precise_exec i hs t hx ht
  refine ⟨rfl, ?_⟩
  cases e with
  | illegalOpcode => exact absurd rfl he
  | _ => simp [errorNumber]
end

section
/-! PROOFS. What no command touches, and the states the three resets leave (70_reset_and_hazards.md R320 to R323,
20_memory.md R97). -/

namespace Sys2Proof.Machine

open Sys2Proof.Safety

theorem softResetDone_softReset (s : State) : SoftResetDone (softReset s) :=
  ⟨rfl, rfl, rfl, rfl, rfl, rfl, rfl, rfl, rfl, rfl, rfl, rfl, rfl, ⟨rfl, rfl, rfl, rfl, rfl⟩, rfl, rfl, rfl, rfl⟩

theorem softResetDone_srst (v : Word) (s : State) : SoftResetDone (srst v s) := softResetDone_softReset _

theorem softResetDone_hardReset (s : State) : SoftResetDone (hardReset s) := by
  have hs := softResetDone_srst 0 s
  rw [hardReset_eq]
  exact hs

/-- CONFIG is not terminal, so it raises no interrupt (60_exceptions.md R290). -/
theorem irqLine_of_config {s : State} (hp : s.phase = .config) : irqLine s = false := by
  simp [irqLine, doneBit, hp, isTerminal]

theorem regWrite_ctrl_of_srst {v : Word} (s : State) (hv : v.getLsbD 1 = true) : regWrite 0x20 v s = srst v s := by
  rw [regWrite, if_pos rfl, writeCtrl, if_pos hv]

end Sys2Proof.Machine

open Sys2Proof Sys2Proof.Machine Sys2Proof.Safety

/-- Settles O20: no command effect writes a field of the interface. -/
theorem commandsLeaveInterface : Obligations.CommandsLeaveInterface := fun _ _ _ hx =>
  (commandEffect_of_exec hx).sameInterface

/-- Settles O30: a hardware reset is a soft reset that clears CTRL, the command stream, CMD_COUNT and FEAT_SEL too. -/
theorem hardResetState : Obligations.HardResetState := fun _ _ h =>
  ⟨_, step_of_hardReset h, softResetDone_hardReset _, rfl, rfl, rfl, rfl, rfl, rfl, rfl, rfl, rfl, irqLine_of_config rfl⟩

/-- Settles O31: SOFT_RESET has no phase check, and its one effect is the soft reset. -/
theorem softResetState : Obligations.SoftResetState := fun s =>
  ⟨_, rfl, softResetDone_softReset s, CommandEffect.softReset.sameInterface, irqLine_of_config rfl⟩

/-- Settles O32: a CTRL write never waits, and with bit 1 it is CTRL.SRST. -/
theorem srstState : Obligations.SrstState := by
  intro s v hs ms hturn hh hv
  have hmove := hostMove_windowWrite (s := { s with schedule := ms }) hh (by decide) (by decide) nofun
  rw [regWrite_ctrl_of_srst _ hv] at hmove
  have hdone := softResetDone_srst v { s with host := hs, schedule := ms }
  exact ⟨_, (step_of_hostTurn hturn).trans (congrArg _ hmove), hdone, rfl, rfl, rfl, rfl, rfl, rfl, rfl, rfl, rfl,
    irqLine_of_config rfl⟩
end

section
/-! PROOFS. Commands and the interface do not meet: a command neither reads nor writes CTRL, PARSE, the FIFO, CMD_COUNT, FEAT_SEL,
the host or its schedule, so that it does the same under any of them (20_memory.md R97, 70_reset_and_hazards.md R341). -/

namespace Sys2Proof.Machine

open Sys2Proof.Safety

/-- The state `s` behind the interface of `p`. -/
def withInterface (p s : State) : State :=
  { s with
    irqEn := p.irqEn, parse := p.parse, fifo := p.fifo, cmdCount := p.cmdCount, featSel := p.featSel
    host := p.host, response := p.response, schedule := p.schedule }

/-- A change of the state that a command answers. -/
def mapNext (f : State → State) : Result → Result
  | .next s => .next (f s)
  | .fault e => .fault e
  | .refused r => .refused r

theorem mapNext_ite {c : Prop} [Decidable c] (f : State → State) (r r' : Result) :
    mapNext f (if c then r else r') = if c then mapNext f r else mapNext f r' := apply_ite (mapNext f) c r r'

section
variable (p : State)

/-! ## The parts of a command's meaning -/

theorem guarded_withInterface {legal : Phase → Bool} {h : Word} {body : State → Result} {s : State}
    (hbody : body (withInterface p s) = mapNext (withInterface p) (body s)) :
    guarded legal h body (withInterface p s) = mapNext (withInterface p) (guarded legal h body s) := by
  simp only [guarded, mapNext_ite, ← hbody]
  rfl

theorem packPixels_withInterface (px : List Bool) (s : State) :
    packPixels px (withInterface p s) = withInterface p (packPixels px s) := by
  induction px generalizing s with
  | nil => rfl
  | cons b px ih => exact ih (packStep s b)

theorem search_withInterface (s : State) (ks : List Candidate) (n : BitVec 32) :
    search (withInterface p s) ks n = search s ks n := by
  induction ks generalizing n with
  | nil => rfl
  | cons k ks ih =>
    rw [search, search, ih]
    rfl

theorem searchRow_withInterface (s : State) : searchRow (withInterface p s) = withInterface p (searchRow s) := by
  have hsearch : search (withInterface p s) (candidates (withInterface p s)) s.candCount =
      search s (candidates s) s.candCount := search_withInterface p s _ _
  rcases searchRow_cases s with ⟨k, n, hk, h⟩ | ⟨n, hk, h⟩ <;>
  · rw [h, searchRow, show (withInterface p s).candCount = s.candCount from rfl, hsearch, hk]
    rfl

theorem scanRowEnd_withInterface (s : State) :
    scanRowEnd (withInterface p s) = mapNext (withInterface p) (scanRowEnd s) := by
  have hfault : scanRowFault (withInterface p s) = scanRowFault s := rfl
  unfold scanRowEnd
  rw [hfault]
  cases scanRowFault s with
  | some e => rfl
  | none =>
    have hrow : scanRow (withInterface p s) = withInterface p (scanRow s) := searchRow_withInterface p (searchState s)
    simp only [hrow]
    rfl

theorem rowEndBody_withInterface (s : State) :
    rowEndBody (withInterface p s) = mapNext (withInterface p) (rowEndBody s) := by
  simp only [rowEndBody, featureRowCommit, scanRowEnd_withInterface, mapNext_ite]
  rfl

theorem pixelsBody_withInterface (n : BitVec 6) (q : Word) (s : State) :
    pixelsBody n q (withInterface p s) = mapNext (withInterface p) (pixelsBody n q s) := by
  simp only [pixelsBody, packPixels_withInterface, mapNext_ite]
  rfl

/-! ## The commands -/

/-- A command does the same behind every interface. -/
theorem exec_withInterface (i : Instr) (s : State) :
    exec i (withInterface p s) = mapNext (withInterface p) (exec i s) := by
  cases i with
  | softReset => rfl
  | nop | setHeight | streamEnd =>
    unfold exec
    exact guarded_withInterface p rfl
  | rowEnd => exact guarded_withInterface p (rowEndBody_withInterface p s)
  | pixels n q =>
    have hbody := guarded_withInterface p (legal := rowPhases) (h := headerOf (.pixels n q)) (pixelsBody_withInterface p n q s)
    simp only [exec, execPixels, hbody, mapNext_ite]
    rfl
  | setWidth | featBegin | featEnd | scanStart =>
    unfold exec
    refine guarded_withInterface p ?_
    simp only [mapNext_ite]
    rfl

end

end Sys2Proof.Machine
end

section
/-! PROOFS. The host's accesses can be made in advance: whatever the schedule, a step of the machine is a core step or none of the
machine whose host has already made every access (70_reset_and_hazards.md R340, R341). -/

namespace Sys2Proof.Machine

open Sys2Proof.Safety

/-! ## The accesses still to be made -/

/-- What an access writes to the register at `off`, if it is a legal write to it (40_control.md R151). -/
def writtenTo (cfg : Config) (off : Nat) : HostAccess → Option Word
  | .read _ _ => none
  | .write addr size v =>
    if inWindow cfg addr && legalAccess (windowOffset cfg addr) size && windowOffset cfg addr == off then some v else none

/-- The words that a list of accesses writes to the register at `off`, in order. -/
def wordsFor (cfg : Config) (off : Nat) (hs : List HostAccess) : List Word := hs.filterMap (writtenTo cfg off)

/-- The state whose host has made every access at once, as if the FIFO had room for every word and no CTRL write held SRST. -/
def hostDone (s : State) : State :=
  { s with
    irqEn := ((wordsFor s.cfg 0x20 s.host).map fun v => v.getLsbD 0).getLastD s.irqEn
    featSel := ((wordsFor s.cfg 0x80 s.host).map fun v => v.setWidth 16).getLastD s.featSel
    fifo := s.fifo ++ wordsFor s.cfg 0x28 s.host
    host := []
    response := none
    schedule := [] }

theorem hostDone_of_noHost {s : State} (h : s.host = []) : hostDone s = { s with schedule := [], response := none } := by
  simp [hostDone, wordsFor, h]

theorem isCmdWrite_eq_isSome (cfg : Config) (a : HostAccess) : isCmdWrite cfg a = (writtenTo cfg 0x28 a).isSome := by
  cases a with
  | read => rfl
  | write addr size v =>
    simp only [isCmdWrite, writtenTo]
    cases inWindow cfg addr && legalAccess (windowOffset cfg addr) size && windowOffset cfg addr == 0x28 <;> rfl

theorem pendingWords_eq (s : State) : pendingWords s = (hostDone s).fifo.length := by
  have hcmd : isCmdWrite s.cfg = fun a => (writtenTo s.cfg 0x28 a).isSome := funext (isCmdWrite_eq_isSome s.cfg)
  simp [pendingWords, hostDone, wordsFor, hcmd, List.length_filterMap_eq_countP, List.countP_eq_length_filter]

/-! ## A host move leaves them made -/

/-- An access is a legal write to one register, or all that it brings about is its answer. -/
theorem access_cases (a : HostAccess) (s : State) :
    (∃ off v, (∀ off', writtenTo s.cfg off' a = if off = off' then some v else none) ∧
      (isSrstWrite s.cfg a = false → off = 0x20 → v.getLsbD 1 = false) ∧
      access a s = { regWrite off v s with response := some .done }) ∨
    (∀ off, writtenTo s.cfg off a = none) ∧ ∃ r, access a s = { s with response := some r } := by
  cases a with
  | read addr size => exact .inr ⟨fun _ => rfl, _, rfl⟩
  | write addr size v =>
    cases hw : inWindow s.cfg addr with
    | false => exact .inr ⟨fun _ => by simp [writtenTo, hw], _, by simp only [access, busWrite, hw]; rfl⟩
    | true =>
      cases hl : legalAccess (windowOffset s.cfg addr) size with
      | false => exact .inr ⟨fun _ => by simp [writtenTo, hl], _, by simp only [access, busWrite, hw, hl]; rfl⟩
      | true =>
        refine .inl ⟨windowOffset s.cfg addr, v, fun _ => by simp [writtenTo, hw, hl], fun hsrst hoff => ?_,
          by simp only [access, busWrite, hw, hl]; rfl⟩
        rw [hoff] at hl
        simpa [isSrstWrite, hw, hl, hoff] using hsrst

theorem wordsFor_cons (cfg : Config) (off : Nat) (a : HostAccess) (hs : List HostAccess) :
    wordsFor cfg off (a :: hs) = (writtenTo cfg off a).toList ++ wordsFor cfg off hs := by
  simp only [wordsFor, List.filterMap_cons]
  cases writtenTo cfg off a <;> rfl

/-- Making an access now or in advance is the same. -/
theorem hostDone_access {a : HostAccess} {s : State} (hsrst : isSrstWrite s.cfg a = false) :
    hostDone (access a s) = hostDone { s with host := a :: s.host } := by
  rcases access_cases a s with ⟨off, v, hwritten, hctrl, h⟩ | ⟨hwritten, r, h⟩ <;> rw [h]
  · rcases regWrite_cases off v s with ⟨rfl, hv, -⟩ | ⟨rfl, -, h⟩ | ⟨rfl, h⟩ | ⟨rfl, h⟩ | ⟨h20, h28, h80, h⟩
    · cases hv.symm.trans (hctrl hsrst rfl)
    all_goals simp [hostDone, wordsFor_cons, List.getLastD_cons, -List.getLastD_eq_getLast?, *]
  · simp [hostDone, wordsFor_cons, hwritten]

theorem hostDone_hostMove {s : State} (hsrst : NoSrst s.cfg s.host) : hostDone (hostMove s) = hostDone s := by
  rcases hostMove_cases s with h | ⟨a, rest, hh, -, h⟩ <;> rw [h]
  rw [hostDone_access (s := { s with host := rest }) (hsrst a (by simp [hh])), ← hh]

/-! ## A core move does the same before and after them -/

theorem hostDone_withInterface {s t : State} (h : SameInterface s t) : hostDone t = withInterface (hostDone s) t := by
  obtain ⟨hcfg, hirq, hparse, hfifo, hcount, hsel, hhost, -, -⟩ := h
  simp only [hostDone, wordsFor, withInterface, hcfg, hirq, hparse, hfifo, hcount, hsel, hhost]

theorem exec_hostDone {i : Instr} {s t : State} (hx : exec i s = .next t) :
    exec i (hostDone s) = .next (hostDone t) :=
  calc exec i (hostDone s) = exec i (withInterface (hostDone s) s) := rfl
    _ = mapNext (withInterface (hostDone s)) (exec i s) := exec_withInterface _ i s
    _ = .next (hostDone t) := by
      rw [hx, hostDone_withInterface (commandEffect_of_exec hx).sameInterface]
      rfl

theorem execute_hostDone {h p : Word} {s t : State} (hx : execute h p s = .next t) :
    execute h p (hostDone s) = .next (hostDone t) := by
  cases hd : decodeCommand h p with
  | ok i =>
    rw [execute_of_ok _ hd] at hx ⊢
    exact exec_hostDone hx
  | error e =>
    rw [execute_of_error _ hd] at hx ⊢
    cases hx
    cases ht : isTerminal s.phase with
    | true => rw [rejectWord_of_terminal e h ht, rejectWord_of_terminal e h (s := hostDone s) ht]
    | false =>
      rw [rejectWord_of_working e h ht, rejectWord_of_working e h (s := hostDone s) ht]
      rfl

/-- Words that enter the FIFO behind the one the core takes do not change what it does. -/
theorem coreMove_hostDone {s t : State} {w : Word} {ws : List Word} (hf : s.fifo = w :: ws) (hx : coreMove s = .next t) :
    coreMove (hostDone s) = .next (hostDone t) := by
  have hf' : (hostDone s).fifo = w :: (ws ++ wordsFor s.cfg 0x28 s.host) := by simp [hostDone, hf]
  cases hp : s.parse with
  | payload h =>
    rw [coreMove_payload hf hp] at hx
    rw [coreMove_payload hf' hp]
    exact execute_hostDone hx
  | header =>
    cases ht : takesPayload w with
    | true =>
      cases (coreMove_pixelsHeader hf hp ht).symm.trans hx
      rw [coreMove_pixelsHeader hf' hp ht]
      rfl
    | false =>
      rw [coreMove_header hf hp ht] at hx
      rw [coreMove_header hf' hp ht]
      exact execute_hostDone hx

/-! ## Steps without SRST and hardware reset -/

/-- Neither CTRL.SRST nor a hardware reset is still to come. -/
def NoReset (s : State) : Prop := NoSrst s.cfg s.host ∧ NoHardReset s.schedule

theorem step_hostDone_of_core {s : State} (h : (hostDone s).fifo ≠ []) : step (hostDone s) = coreMove (hostDone s) :=
  step_of_coreTurn (.inl ⟨rfl, h, rfl⟩)

/-- A step of the machine is none, or one, of the machine whose host has made every access. -/
theorem hostDone_step {s t : State} (hn : NoReset s) (hx : step s = .next t) :
    hostDone t = hostDone s ∨ ∃ w, (hostDone s).fifo = w :: (hostDone t).fifo ∧ step (hostDone s) = .next (hostDone t) := by
  obtain ⟨hsrst, hhard⟩ := hn
  rcases turn_cases s with ⟨ms, hc⟩ | ⟨ms, hh⟩ | ⟨ms, hr⟩
  · rw [step_of_coreTurn hc] at hx
    rcases hf : s.fifo with - | ⟨w, ws⟩
    · cases (coreMove_of_empty (s := { s with schedule := ms }) hf).symm.trans hx
      exact .inl rfl
    · have hmove : coreMove (hostDone s) = .next (hostDone t) := coreMove_hostDone (s := { s with schedule := ms }) hf hx
      have hf' : (hostDone s).fifo = w :: (ws ++ wordsFor s.cfg 0x28 s.host) := by simp [hostDone, hf]
      obtain ⟨-, hfifo, -⟩ := coreMove_takes_word hmove hf'
      exact .inr ⟨w, by rw [hf', hfifo], by rw [step_hostDone_of_core (by simp [hf']), hmove]⟩
  · cases (step_of_hostTurn hh).symm.trans hx
    exact .inl (hostDone_hostMove (s := { s with schedule := ms }) hsrst)
  · exact absurd rfl (hhard .hardReset (by simp [hr]))

end Sys2Proof.Machine
end

section
/-! PROOFS. What a step makes of the agents' own fields, and runs: every run ends, what it keeps, and where two runs of the same
accesses meet (70_reset_and_hazards.md R332, R340, R341). -/

namespace Sys2Proof.Machine

open Sys2Proof.Safety

/-! ## The host and the schedule along a step -/

/-- The core makes no access of the host's and takes no turn but its own. -/
theorem coreMove_host_frame {s t : State} (hx : coreMove s = .next t) :
    t.host = s.host ∧ t.response = s.response ∧ t.schedule = s.schedule := by
  rcases coreMove_cases hx with ⟨-, rfl⟩ | ⟨w, ws, -, ⟨-, -, rfl⟩ | ⟨h, p, -, ⟨i, -, hi⟩ | ⟨e, -, rfl⟩⟩⟩
  · exact ⟨rfl, rfl, rfl⟩
  · exact ⟨rfl, rfl, rfl⟩
  · obtain ⟨-, -, -, -, -, -, hhost⟩ := (commandEffect_of_exec hi).sameInterface
    exact hhost
  · rcases rejectWord_cases e h { takeWord s with parse := .header } with hr | ⟨-, hr⟩ <;> rw [hr] <;>
      exact ⟨rfl, rfl, rfl⟩

/-- An access leaves the accesses after it and the schedule, and queues one word at most. -/
theorem access_frame (a : HostAccess) (s : State) :
    (access a s).cfg = s.cfg ∧ (access a s).host = s.host ∧ (access a s).schedule = s.schedule ∧
    (access a s).fifo.length ≤ s.fifo.length + 1 := by
  rcases access_cases a s with ⟨off, v, -, -, h⟩ | ⟨-, r, h⟩ <;> rw [h]
  · rcases regWrite_cases off v s with ⟨-, -, h⟩ | ⟨-, -, h⟩ | ⟨-, h⟩ | ⟨-, h⟩ | ⟨-, -, -, h⟩ <;> simp [h]
  · exact ⟨rfl, rfl, rfl, Nat.le_succ _⟩

/-- A step uses up the turn it is, and the host's accesses and its last answer stay, or its next access is made. -/
theorem step_agents {s t : State} (hx : step s = .next t) :
    t.schedule = s.schedule.tail ∧
    ((t.host = s.host ∧ t.response = s.response) ∨
      ∃ a rest, s.host = a :: rest ∧ t = access a { s with host := rest, schedule := s.schedule.tail }) := by
  have htail : ∀ {m ms}, s.schedule = m :: ms → ms = s.schedule.tail := fun h => by rw [h]; rfl
  rcases turn_cases s with ⟨ms, hc⟩ | ⟨ms, hh⟩ | ⟨ms, hr⟩
  · rw [step_of_coreTurn hc] at hx
    obtain ⟨hhost, hresp, hsched⟩ := coreMove_host_frame hx
    refine ⟨hsched.trans ?_, .inl ⟨hhost, hresp⟩⟩
    rcases hc with ⟨h, -, rfl⟩ | h
    · rw [h]; rfl
    · exact htail h
  · have hms : ms = s.schedule.tail := by
      rcases hh with ⟨h, -, rfl⟩ | h
      · rw [h]; rfl
      · exact htail h
    cases (step_of_hostTurn hh).symm.trans hx
    subst hms
    rcases hostMove_cases { s with schedule := s.schedule.tail } with h | ⟨a, rest, ha, -, h⟩ <;> rw [h]
    · exact ⟨rfl, .inl ⟨rfl, rfl⟩⟩
    · obtain ⟨-, -, hsched, -⟩ := access_frame a { s with host := rest, schedule := s.schedule.tail }
      exact ⟨hsched, .inr ⟨a, rest, ha, rfl⟩⟩
  · cases (step_of_hardReset hr).symm.trans hx
    exact ⟨htail hr, .inl ⟨rfl, rfl⟩⟩

theorem step_host_subset {s t : State} (hx : step s = .next t) : t.host ⊆ s.host := by
  obtain ⟨-, ⟨h, -⟩ | ⟨a, rest, hh, rfl⟩⟩ := step_agents hx
  · exact h ▸ List.Subset.refl _
  · obtain ⟨-, hhost, -⟩ := access_frame a { s with host := rest, schedule := s.schedule.tail }
    rw [hhost, hh]
    exact List.subset_cons_self a rest

theorem step_keeps_noReset {s t : State} (hn : NoReset s) (hx : step s = .next t) : NoReset t := by
  obtain ⟨hsrst, hhard⟩ := hn
  obtain ⟨hsched, -⟩ := step_agents hx
  refine ⟨fun a ha => ?_, fun m hm => hhard m (List.mem_of_mem_tail (hsched ▸ hm))⟩
  rw [step_cfg_eq hx]
  exact hsrst a (step_host_subset hx ha)

/-! ## The last answer -/

/-- The answer to a write: the bus looks at the configuration alone (40_control.md R151). -/
def writeAnswer (cfg : Config) (a : HostAccess) : Option BusResponse := (access a (State.resetWith cfg)).response

theorem access_response_of_write {a : HostAccess} (ha : isWrite a = true) (s : State) :
    (access a s).response = writeAnswer s.cfg a := by
  cases a with
  | read => cases ha
  | write addr size v =>
    have hcfg : (State.resetWith s.cfg).cfg = s.cfg := rfl
    simp only [writeAnswer, access, busWrite, hcfg]
    split_ifs <;> rfl

/-- The bus's last answer when a host that only writes has made every access. -/
def lastAnswer (s : State) : Option BusResponse := (s.host.map (writeAnswer s.cfg)).getLastD s.response

theorem step_keeps_lastAnswer {s t : State} (hw : OnlyWrites s.host) (hx : step s = .next t) : lastAnswer t = lastAnswer s := by
  obtain ⟨-, ⟨hhost, hresp⟩ | ⟨a, rest, hh, rfl⟩⟩ := step_agents hx
  · rw [lastAnswer, hhost, hresp, step_cfg_eq hx, lastAnswer]
  · obtain ⟨hcfg, hhost, -⟩ := access_frame a { s with host := rest, schedule := s.schedule.tail }
    rw [lastAnswer, hcfg, hhost, access_response_of_write (hw a (by simp [hh])), lastAnswer, hh, List.map_cons,
      List.getLastD_cons]

/-! ## Runs of a machine -/

section
variable {M : Host.Core}

theorem run_succ {n : Nat} {s t : M.State} (hx : M.step s = .next t) : M.run (n + 1) s = M.run n t := by
  rw [Host.Core.run, hx]

theorem run_succ_eq_next {n : Nat} {s t : M.State} (hr : M.run (n + 1) s = .next t) :
    ∃ u, M.step s = .next u ∧ M.run n u = .next t := by
  rw [Host.Core.run] at hr
  split at hr
  · next u hu => exact ⟨u, hu, hr⟩
  · cases hr
  · cases hr

/-- What every step keeps, a run keeps. -/
theorem run_keeps {P : M.State → Prop} (hstep : ∀ {s t}, P s → M.step s = .next t → P t) {n : Nat} {s t : M.State}
    (hs : P s) (hr : M.run n s = .next t) : P t := by
  induction n generalizing s with
  | zero => cases hr; exact hs
  | succ n ih =>
    obtain ⟨u, hx, hr⟩ := run_succ_eq_next hr
    exact ih (hstep hs hx) hr

theorem run_add {m : Nat} (k : Nat) {s t : M.State} (hr : M.run m s = .next t) : M.run (k + m) s = M.run k t := by
  induction m generalizing s with
  | zero => cases hr; rfl
  | succ m ih =>
    obtain ⟨u, hx, hr⟩ := run_succ_eq_next hr
    rw [← Nat.add_assoc, run_succ hx, ih hr]

theorem run_of_rest (n : Nat) {s : M.State} (hx : M.step s = .next s) : M.run n s = .next s := by
  induction n with
  | zero => rfl
  | succ n ih => rw [run_succ hx, ih]

/-- A machine comes to rest in one state. -/
theorem rest_unique {m₁ m₂ : Nat} {s t₁ t₂ : M.State} (h₁ : M.run m₁ s = .next t₁) (hx₁ : M.step t₁ = .next t₁)
    (h₂ : M.run m₂ s = .next t₂) (hx₂ : M.step t₂ = .next t₂) : t₁ = t₂ := by
  have h₁₂ : M.run (m₂ + m₁) s = .next t₁ := (run_add m₂ h₁).trans (run_of_rest m₂ hx₁)
  have h₂₁ : M.run (m₁ + m₂) s = .next t₂ := (run_add m₁ h₂).trans (run_of_rest m₁ hx₂)
  rw [Nat.add_comm, h₂₁] at h₁₂
  cases h₁₂
  rfl

end

/-! ## Schedules do not matter -/

/-- Every run is a run of the machine whose host has already made every access. -/
theorem run_hostDone {n : Nat} {s t : State} (hn : NoReset s) (hr : core.run n s = .next t) :
    ∃ m, core.run m (hostDone s) = .next (hostDone t) := by
  induction n generalizing s with
  | zero => cases hr; exact ⟨0, rfl⟩
  | succ n ih =>
    obtain ⟨u, hx, hr⟩ := run_succ_eq_next hr
    obtain ⟨m, hm⟩ := ih (step_keeps_noReset hn hx) hr
    rcases hostDone_step hn hx with h | ⟨w, -, h⟩
    · exact ⟨m, h ▸ hm⟩
    · exact ⟨m + 1, (run_succ (M := core) (s := hostDone s) (t := hostDone u) h).trans hm⟩

theorem hostDone_at_rest {t : State} (hh : t.host = []) (hf : t.fifo = []) : step (hostDone t) = .next (hostDone t) := by
  have hf' : (hostDone t).fifo = [] := by rw [hostDone_of_noHost hh, hf]
  exact step_of_hostTurn (.inl ⟨rfl, hf', rfl⟩)

theorem response_of_run {n : Nat} {s t : State} (hw : OnlyWrites s.host) (hr : core.run n s = .next t) (hh : t.host = []) :
    t.response = lastAnswer s := by
  have hkeeps : OnlyWrites t.host ∧ lastAnswer t = lastAnswer s :=
    run_keeps (M := core) (P := fun u : State => OnlyWrites u.host ∧ lastAnswer u = lastAnswer s)
      (fun ⟨hw, hl⟩ hx => ⟨fun a ha => hw a (step_host_subset hx ha), (step_keeps_lastAnswer hw hx).trans hl⟩) ⟨hw, rfl⟩ hr
  rw [← hkeeps.2, lastAnswer, hh]
  rfl

/-! ## Every run ends -/

/-- A bound on the steps to come: one for each turn of the schedule and each word, two for each access, since it can queue a
word. -/
def remaining (s : State) : Nat := s.schedule.length + 2 * s.host.length + s.fifo.length

/-- A host whose FIFO has room makes its next access. -/
theorem hostMove_of_room {s : State} {a : HostAccess} {rest : List HostAccess} (hh : s.host = a :: rest)
    (hroom : s.fifo.length < s.cfg.cmdFifoDepth) : hostMove s = access a { s with host := rest } := by
  simp [hostMove, hh, stalls, hroom]

theorem remaining_access_lt {s : State} {a : HostAccess} {rest : List HostAccess} (hh : s.host = a :: rest) :
    remaining (access a { s with host := rest }) < remaining s := by
  obtain ⟨-, hhost, hsched, hfifo⟩ := access_frame a { s with host := rest }
  change _ ≤ s.fifo.length + 1 at hfifo
  simp only [remaining, hhost, hsched, hh, List.length_cons]
  omega

theorem remaining_hostMove_le (s : State) : remaining (hostMove s) ≤ remaining s := by
  rcases hostMove_cases s with h | ⟨a, rest, hh, -, h⟩ <;> rw [h]
  exact (remaining_access_lt hh).le

theorem remaining_coreMove {s t : State} (hx : coreMove s = .next t) : remaining t = remaining s - min 1 s.fifo.length := by
  obtain ⟨hhost, -, hsched⟩ := coreMove_host_frame hx
  rcases hf : s.fifo with - | ⟨w, ws⟩
  · cases (coreMove_of_empty hf).symm.trans hx
    rfl
  · obtain ⟨-, hfifo, -⟩ := coreMove_takes_word hx hf
    simp [remaining, hhost, hsched, hfifo, hf]

/-- While an access or a word is pending, a step takes the machine nearer to its end. -/
theorem remaining_step_lt {s t : State} (hdepth : 1 ≤ s.cfg.cmdFifoDepth) (hpend : s.host ≠ [] ∨ s.fifo ≠ [])
    (hx : step s = .next t) : remaining t < remaining s := by
  have hturn : ∀ {m ms}, s.schedule = m :: ms → remaining { s with schedule := ms } < remaining s := fun h => by
    simp [remaining, h]
  rcases turn_cases s with ⟨ms, hc⟩ | ⟨ms, hh⟩ | ⟨ms, hr⟩
  · rw [step_of_coreTurn hc] at hx
    have hmove := remaining_coreMove hx
    rcases hc with ⟨h, hf, rfl⟩ | h
    · have := List.length_pos_iff.2 hf
      simp only [remaining, h] at hmove ⊢
      omega
    · have := hturn h
      omega
  · cases (step_of_hostTurn hh).symm.trans hx
    rcases hh with ⟨h, hf, rfl⟩ | h
    · obtain ⟨a, rest, ha⟩ := List.exists_cons_of_ne_nil (hpend.resolve_right (not_not.2 hf))
      have hs : ({ s with schedule := [] } : State) = s := by rw [← h]
      rw [hs, hostMove_of_room ha (by rw [hf]; exact hdepth)]
      exact remaining_access_lt ha
    · exact (remaining_hostMove_le _).trans_lt (hturn h)
  · cases (step_of_hardReset hr).symm.trans hx
    have := hturn hr
    simp only [remaining, hardReset_schedule, hardReset_host, hardReset_fifo, List.length_nil] at this ⊢
    omega

/-- From a state of the invariant the machine makes every access and empties the FIFO (70_reset_and_hazards.md R332). -/
theorem exists_run_to_end {s : State} (h : Inv s) : ∃ n t, core.run n s = .next t ∧ t.host = [] ∧ t.fifo = [] := by
  induction hk : remaining s using Nat.strong_induction_on generalizing s with
  | _ k ih =>
    by_cases hpend : s.host = [] ∧ s.fifo = []
    · exact ⟨0, s, rfl, hpend⟩
    · obtain ⟨u, hx, hu⟩ := stepKeepsInvariant s h
      obtain ⟨⟨-, -, -, -, -, hdepth, -⟩, -⟩ := h
      obtain ⟨n, t, hr, ht⟩ := ih _ (hk ▸ remaining_step_lt hdepth (not_and_or.1 hpend) hx) hu rfl
      exact ⟨n + 1, t, (run_succ (M := core) hx).trans hr, ht⟩

/-! ## Every word is counted -/

/-- Without a reset a word is counted exactly when it stops being pending (10_state.md R34). -/
theorem step_keeps_wordTotal {s t : State} (hn : NoReset s) (hx : step s = .next t) :
    t.cmdCount + BitVec.ofNat 32 (pendingWords t) = s.cmdCount + BitVec.ofNat 32 (pendingWords s) := by
  have hcount : ∀ u : State, u.cmdCount = (hostDone u).cmdCount := fun _ => rfl
  rw [pendingWords_eq, pendingWords_eq, hcount t, hcount s]
  rcases hostDone_step hn hx with h | ⟨w, hf, h⟩
  · rw [h]
  · rw [step_hostDone_of_core (by simp [hf])] at h
    obtain ⟨-, -, hc⟩ := coreMove_takes_word h hf
    rw [hc, hf, List.length_cons, BitVec.ofNat_add, BitVec.add_assoc, BitVec.add_comm 1]
    rfl

theorem cmdCount_of_run {n : Nat} {s t : State} (hn : NoReset s) (hr : core.run n s = .next t) (hh : t.host = [])
    (hf : t.fifo = []) : t.cmdCount = s.cmdCount + BitVec.ofNat 32 (pendingWords s) := by
  have hkeeps : NoReset t ∧ t.cmdCount + BitVec.ofNat 32 (pendingWords t) = s.cmdCount + BitVec.ofNat 32 (pendingWords s) :=
    run_keeps (M := core) (P := fun u : State => NoReset u ∧ u.cmdCount + BitVec.ofNat 32 (pendingWords u) = _)
      (fun ⟨hn, hc⟩ hx => ⟨step_keeps_noReset hn hx, (step_keeps_wordTotal hn hx).trans hc⟩) ⟨hn, rfl⟩ hr
  simpa [pendingWords, hh, hf] using hkeeps.2

end Sys2Proof.Machine

open Sys2Proof Sys2Proof.Machine Sys2Proof.Safety

/-- Settles O59: both runs are runs of the machine whose host has made every access, which comes to rest in one state. -/
theorem scheduleIndependence : Obligations.ScheduleIndependence := by
  intro s t₁ t₂ ms₁ ms₂ n₁ n₂ hm₁ hm₂ hs hr₁ hh₁ hf₁ hr₂ hh₂ hf₂
  have hresp : ∀ {ms n t}, OnlyWrites s.host → core.run n { s with schedule := ms } = .next t → t.host = [] →
      t.response = lastAnswer s := fun {ms} _ _ hw => response_of_run (s := { s with schedule := ms }) hw
  refine ⟨?_, fun hw => (hresp hw hr₁ hh₁).trans (hresp hw hr₂ hh₂).symm⟩
  obtain ⟨m₁, h₁⟩ := run_hostDone (s := { s with schedule := ms₁ }) ⟨hs, hm₁⟩ hr₁
  obtain ⟨m₂, h₂⟩ := run_hostDone (s := { s with schedule := ms₂ }) ⟨hs, hm₂⟩ hr₂
  have h : hostDone t₁ = hostDone t₂ := rest_unique h₁ (hostDone_at_rest hh₁ hf₁) h₂ (hostDone_at_rest hh₂ hf₂)
  rwa [hostDone_of_noHost hh₁, hostDone_of_noHost hh₂] at h

/-- Settles O60: each step brings the end nearer, and without a reset keeps the sum of the words counted and pending. -/
theorem everyAccessCompletes : Obligations.EveryAccessCompletes := by
  intro s h
  obtain ⟨n, t, hr, hh, hf⟩ := exists_run_to_end h
  exact ⟨n, t, hr, hh, hf, fun hhard hsrst => cmdCount_of_run ⟨hsrst, hhard⟩ hr hh hf⟩
end
